-- ==== Sys2Proof/Word.lean ====
section
/-! DEFINITION. The byte, the unit every encoding of the block is made of (20_memory.md R64, R66, R67). -/

namespace Sys2Proof

/-- One byte; bit 7 is the most significant (00_scope.md section 6). -/
abbrev Byte := BitVec 8

end Sys2Proof
end

