-- ==== Sys2Proof/Config.lean ====
section
/-! DEFINITION. What is fixed for one block: the constants of R5, the parameters of R6 (a record that `State` carries
and no step writes), and the free values: constants with no body, so that nothing can be proved of what they are. -/

namespace Sys2Proof

/-! ### Constants the source fixes (00_scope.md R5) -/

def OPS_PREAMBLE_BITS : Nat := 14
def SVC_PREAMBLE_BITS : Nat := 20
def SVC_RESET1_CNT : Nat := 20
def SVC_COMMAND_CNT : Nat := 5
def SVC_RESET2_CNT : Nat := 5
def ACK_MARGIN_MA : Nat := 60
def PKT_MAX_LEN : Nat := 8
def CUTOUT_BITS : Nat := 4
def RC_MAX_BYTES : Nat := 8
def SHORT_AVG_N : Nat := 16
def ADDR_MIN : Nat := 1
def ADDR_SHORT_MAX : Nat := 127
def ADDR_MAX : Nat := 10239
def CV_MIN : Nat := 1
def CV_MAX : Nat := 1024
def SPEED_MAX : Nat := 127
def T1_HALF_US : Nat := 58
def T0_HALF_US : Nat := 100

/-- `FUNC_CAP` (R6): the highest function the throttles are built with. -/
inductive FuncCap where
  | f8 | f12 | f20 | f28 | f36 | f44 | f52 | f60 | f68
deriving DecidableEq, Repr

/-- `RAILCOM_SPEC_VERSION` (R6, 90_conflicts.md C12). -/
inductive RailcomVersion where
  | v2012 | v2021
deriving DecidableEq, Repr

/-- `FEATURE_EXP_OPCODE[3..9]` (R6, R102): the five low bits of each opcode byte `110xxxxx`, by function group. -/
structure FeatureExp where
  f13 : BitVec 5
  f21 : BitVec 5
  f29 : BitVec 5
  f37 : BitVec 5
  f45 : BitVec 5
  f53 : BitVec 5
  f61 : BitVec 5
deriving DecidableEq, Repr

/-- The defaults `DE DF D8 D9 DA DB DC` of R6. -/
def FeatureExp.standard : FeatureExp :=
  { f13 := 0x1E#5, f21 := 0x1F#5, f29 := 0x18#5, f37 := 0x19#5, f45 := 0x1A#5, f53 := 0x1B#5, f61 := 0x1C#5 }

/-- The parameters the block is constructed with (00_scope.md R6, 70_reset_and_hazards.md R461 item 5). -/
structure Config where
  func_cap : FuncCap
  railcom_enabled : Bool
  railcom_version : RailcomVersion
  long_avg_n : Nat
  adc_fifo_depth : Nat
  max_throttles : Nat
  ops_cv_repeat : Nat
  caplog_active : Bool
  start_extra_ones : Nat
  feature_exp : FeatureExp
  dyn_subidx_speed1 : BitVec 6
deriving DecidableEq, Repr

/-- The legal values of R6: the four counts are positive. The seven feature-expansion opcodes are pairwise different
(DEDUCED: R167 gives each group a class of its own; log entry 7). -/
def Config.wf (c : Config) : Bool :=
  0 < c.long_avg_n && 0 < c.adc_fifo_depth && 0 < c.max_throttles && 0 < c.ops_cv_repeat &&
  decide [c.feature_exp.f13, c.feature_exp.f21, c.feature_exp.f29, c.feature_exp.f37, c.feature_exp.f45,
    c.feature_exp.f53, c.feature_exp.f61].Nodup

/-- The defaults of R6. DESIGN CHOICE for the three parameters the spec leaves OPEN (`FUNC_CAP`, `MAX_THROTTLES`,
`OPS_CV_REPEAT`): the values 95_test_vectors.md works with (log entry 6). Every claim over all states is a claim over
all parameters. -/
def Config.standard : Config :=
  { func_cap := .f28, railcom_enabled := true, railcom_version := .v2021, long_avg_n := 166, adc_fifo_depth := 4,
    max_throttles := 4, ops_cv_repeat := 4, caplog_active := false, start_extra_ones := 0,
    feature_exp := .standard, dyn_subidx_speed1 := 0#6 }

/-! ### Free values: the spec fixes no value (`draw`, "unspecified", "not in the source") -/

/-- The latency metrics are draws at every `BitEnd` (10_state.md R43, 93 U19); argument: the draw's number. -/
opaque Config.freeLatency : Nat → Nat

/-- The bytes of `pkt_ops` of a new throttle are unspecified (45_throttle.md R373); argument: the draw's number. -/
opaque Config.freePacket : Nat → List Byte

/-- The number of line slots of the diagnostic ring is not in the source (60_exceptions.md R436, N7). -/
opaque Config.logSlots : Nat

/-- How many bytes a line-sized slot of that ring takes is not in the source (60_exceptions.md R436, N7). -/
opaque Config.lineSize : Nat

/-- What the capture log holds after one more sample, when it is active: size, record and trigger are not in the source
(10_state.md R38, N17). Arguments: the draw's number, what it held, the sample. -/
opaque Config.freeCapture : Nat → List Byte → BitVec 12 → List Byte

/-- The text of `show(buf)` of the codec: its format is not in the source (40_packet_codec.md R174, N16). -/
opaque Config.showText : List Byte → List Byte

/-- The text of the RailCom reader's `dump` of the raw symbols (42_railcom.md R254, N16). Its `show` text is
`Config.messageText`, which stands beside the messages in Syntax.lean. -/
opaque Config.dumpText : List Byte → List Byte

end Sys2Proof
end

