-- ==== Sys2Proof/Syntax.lean ====
section
/-! DEFINITION. The instructions: one constructor per row of spec/opcode_table.json. Under the spec's mapping (00_scope.md
section 4, 92_eei_decisions.md D1) an instruction is a DCC packet form, a RailCom message form or a host command. -/

namespace Sys2Proof

/-- The fields are those the row's encoding names; `x` is the checksum byte (field letter `X`, R96), which the packet
carries and the decoder checks, and `rest` is every byte after the first of a form that R127 tells by its first byte. -/
inductive Instr where
  -- DCC packet forms, fixed (30_encoding.md R104, R105)
  | reset
  | idle
  -- SPEED128 (R99): address, direction, magnitude, checksum; S = one-byte address, L = two-byte address
  | speed128S (a : BitVec 7) (d : Bool) (m : BitVec 7) (x : Byte)
  | speed128L (a : BitVec 14) (d : Bool) (m : BitVec 7) (x : Byte)
  -- function groups (R100 to R102): address, the group's data bits as they stand in the byte, checksum
  | funcF0S (a : BitVec 7) (f0 : Bool) (f : BitVec 4) (x : Byte)
  | funcF0L (a : BitVec 14) (f0 : Bool) (f : BitVec 4) (x : Byte)
  | funcF5S (a : BitVec 7) (f : BitVec 4) (x : Byte)
  | funcF5L (a : BitVec 14) (f : BitVec 4) (x : Byte)
  | funcF9S (a : BitVec 7) (f : BitVec 4) (x : Byte)
  | funcF9L (a : BitVec 14) (f : BitVec 4) (x : Byte)
  | funcF13S (a : BitVec 7) (f : Byte) (x : Byte)
  | funcF13L (a : BitVec 14) (f : Byte) (x : Byte)
  | funcF21S (a : BitVec 7) (f : Byte) (x : Byte)
  | funcF21L (a : BitVec 14) (f : Byte) (x : Byte)
  | funcF29S (a : BitVec 7) (f : Byte) (x : Byte)
  | funcF29L (a : BitVec 14) (f : Byte) (x : Byte)
  | funcF37S (a : BitVec 7) (f : Byte) (x : Byte)
  | funcF37L (a : BitVec 14) (f : Byte) (x : Byte)
  | funcF45S (a : BitVec 7) (f : Byte) (x : Byte)
  | funcF45L (a : BitVec 14) (f : Byte) (x : Byte)
  | funcF53S (a : BitVec 7) (f : Byte) (x : Byte)
  | funcF53L (a : BitVec 14) (f : Byte) (x : Byte)
  | funcF61S (a : BitVec 7) (f : Byte) (x : Byte)
  | funcF61L (a : BitVec 14) (f : Byte) (x : Byte)
  -- operations-mode CV access (R103): address, cv_num - 1, data or (K, D, bit), checksum
  | opsCvVerifyS (a : BitVec 7) (v : BitVec 10) (d : Byte) (x : Byte)
  | opsCvVerifyL (a : BitVec 14) (v : BitVec 10) (d : Byte) (x : Byte)
  | opsCvWriteS (a : BitVec 7) (v : BitVec 10) (d : Byte) (x : Byte)
  | opsCvWriteL (a : BitVec 14) (v : BitVec 10) (d : Byte) (x : Byte)
  | opsCvBitS (a : BitVec 7) (v : BitVec 10) (k : Bool) (d : Bool) (b : BitVec 3) (x : Byte)
  | opsCvBitL (a : BitVec 14) (v : BitVec 10) (k : Bool) (d : Bool) (b : BitVec 3) (x : Byte)
  -- service-mode direct (R110)
  | svcVerifyByte (v : BitVec 10) (d : Byte) (x : Byte)
  | svcWriteByte (v : BitVec 10) (d : Byte) (x : Byte)
  | svcBit (v : BitVec 10) (k : Bool) (d : Bool) (b : BitVec 3) (x : Byte)
  -- decode-only forms, told by the first byte (R111, R127)
  | accessory (r : BitVec 6) (rest : List Byte)
  | reservedE8EF (r : BitVec 3) (rest : List Byte)
  | reservedF0FE (r : BitVec 4) (rest : List Byte)
  | unclassified00 (rest : List Byte)
  | unclassifiedFF (rest : List Byte)
  -- RailCom messages (R119, R120)
  | rcAck
  | rcAck2021
  | rcNak
  | rcBsy
  | rcPom (val : Byte)
  | rcAhi (val : Byte)
  | rcAlo (val : Byte)
  | rcExt (payload : BitVec 14)
  | rcDyn (val : Byte) (subidx : BitVec 6)
  | rcXpom (ss : BitVec 2) (d0 : Byte) (d1 : Byte) (d2 : Byte) (d3 : Byte)
  -- host commands (R131)
  | setModeOff
  | setModeOps
  | writeCv (cv : BitVec 16) (val : Byte)
  | writeBit (cv : BitVec 16) (bit : BitVec 16) (val : Byte)
  | readCv (cv : BitVec 16)
  | readBit (cv : BitVec 16) (bit : BitVec 16)
  | svcDone
  | createThrottle (a : BitVec 16)
  | deleteThrottle (a : BitVec 16)
  | findThrottle (a : BitVec 16)
  | restartThrottles
  | thrSetSpeed (a : BitVec 16) (speed : Byte)
  | thrSetFunction (a : BitVec 16) (n : BitVec 16) (on : Bool)
  | thrSetAddress (a : BitVec 16) (new : BitVec 16)
  | thrReadCv (a : BitVec 16) (cv : BitVec 16)
  | thrWriteCv (a : BitVec 16) (cv : BitVec 16) (val : Byte)
  | thrWriteBit (a : BitVec 16) (cv : BitVec 16) (val : Bool) (bit : BitVec 3)
  | thrOpsDone (a : BitVec 16)
  | setVerbosity (which : BitVec 16) (on : Bool)
deriving DecidableEq, Repr

/-- A RailCom message value (30_encoding.md R122); equality is structural. -/
inductive RcMsg where
  | ack
  | nak
  | bsy
  | pom (val : Byte)
  | ahi (val : Byte)
  | alo (val : Byte)
  | ext (payload : BitVec 14)
  | dyn (val : Byte) (subidx : BitVec 6)
  | xpom (ss : BitVec 2) (d0 : Byte) (d1 : Byte) (d2 : Byte) (d3 : Byte)
deriving DecidableEq, Repr

/-- A free value: the text of the RailCom reader's `show` of `(rc_ch1, rc_ch2)`, whose format is not in the source
(42_railcom.md R254, N16). -/
opaque Config.messageText : Option RcMsg → List RcMsg → List Byte

/-- The three bit-exact places an instruction stands in (30_encoding.md section 1): a packet buffer, with the decoder's
context bit `svc` (R170); the raw bytes of one RailCom frame; a command word of the port. -/
inductive InstrWord where
  | packet (svc : Bool) (bytes : List Byte)
  | frame (raw : List Byte)
  | command (w : BitVec 48)
deriving DecidableEq, Repr

end Sys2Proof
end

