-- ==== Sys2Proof/WellFormed.lean ====
section
/-! DEFINITION. Which instructions the encodings admit: the operand values a row's encoding cannot hold, or that
belong to another row, are refused. A host command admits every operand (R132: an operand out of range is an
invalid-argument error of the command, not an encoding error). The checksum field admits every value: a wrong one makes
the packet `Invalid` when it is decoded (R165), which is the packet's meaning. -/

namespace Sys2Proof

/-- A one-byte address is 1..127 (R97). -/
def shortOk (a : BitVec 7) : Bool := a != 0#7

/-- A two-byte address has its first byte in `C0h..E7h` (R142), which is `a <= 10239`. The decoder accepts values below
128 too; the encoder never makes them (R97). -/
def longOk (a : BitVec 14) : Bool := a.toNat ≤ ADDR_MAX

/-- The bytes after the first of a packet of 3 to 8 bytes (R127). -/
def restOk (rest : List Byte) : Bool := 2 ≤ rest.length && rest.length ≤ 7

def Instr.wf (c : Config) : Instr → Bool
  | .reset | .idle => true
  | .speed128S a _ _ _ => shortOk a
  | .speed128L a _ _ _ => longOk a
  | .funcF0S a _ _ _ => shortOk a
  | .funcF0L a _ _ _ => longOk a
  | .funcF5S a _ _ | .funcF9S a _ _ => shortOk a
  | .funcF5L a _ _ | .funcF9L a _ _ => longOk a
  | .funcF13S a _ _ | .funcF21S a _ _ | .funcF29S a _ _ | .funcF37S a _ _ | .funcF45S a _ _ | .funcF53S a _ _
  | .funcF61S a _ _ => shortOk a
  | .funcF13L a _ _ | .funcF21L a _ _ | .funcF29L a _ _ | .funcF37L a _ _ | .funcF45L a _ _ | .funcF53L a _ _
  | .funcF61L a _ _ => longOk a
  | .opsCvVerifyS a _ _ _ | .opsCvWriteS a _ _ _ => shortOk a
  | .opsCvVerifyL a _ _ _ | .opsCvWriteL a _ _ _ => longOk a
  | .opsCvBitS a _ _ _ _ _ => shortOk a
  | .opsCvBitL a _ _ _ _ _ => longOk a
  | .svcVerifyByte _ _ _ | .svcWriteByte _ _ _ | .svcBit _ _ _ _ _ => true
  | .accessory _ rest => restOk rest
  | .reservedE8EF _ rest => restOk rest
  | .reservedF0FE r rest => r != 15#4 && restOk rest
  | .unclassified00 rest => restOk rest && rest != [0x00#8, 0x00#8]
  | .unclassifiedFF rest => restOk rest && rest != [0x00#8, 0xFF#8]
  | .rcAck | .rcNak => true
  | .rcAck2021 => c.railcom_version == .v2021
  | .rcBsy => c.railcom_version == .v2012
  | .rcPom _ | .rcAhi _ | .rcAlo _ | .rcExt _ | .rcDyn _ _ | .rcXpom _ _ _ _ _ => true
  | .setModeOff | .setModeOps | .writeCv _ _ | .writeBit _ _ _ | .readCv _ | .readBit _ _ | .svcDone
  | .createThrottle _ | .deleteThrottle _ | .findThrottle _ | .restartThrottles | .thrSetSpeed _ _
  | .thrSetFunction _ _ _ | .thrSetAddress _ _ | .thrReadCv _ _ | .thrWriteCv _ _ _ | .thrWriteBit _ _ _ _
  | .thrOpsDone _ | .setVerbosity _ _ => true

end Sys2Proof
end

