-- ==== Sys2Proof/Decode.lean ====
section
/-! DEFINITION. The three decoders (30_encoding.md), total on every input and rejecting by name, and after them the
encoder. The RailCom symbol decoder and message parser (42_railcom.md R245 to R252) are here too: they are how a frame's
bytes become a message. -/

namespace Sys2Proof

/-- Why a word is no instruction of the table. None is an error of the machine: a rejected packet has a class (R165),
a rejected frame an empty parse (R257), a rejected command word the response `ok = 0` (R132). -/
inductive Reject where
  /-- A packet of fewer than 3 or more than 8 bytes (R127): class `Invalid`. -/
  | length
  /-- A multifunction packet of no form of the table (R127): class `MfOther`. -/
  | mfOther
  /-- A service-mode bit manipulation whose data byte is not `111KDBBB` (R165): class `Unclassified`. -/
  | svcBitData
  /-- A RailCom frame that is not exactly one message. -/
  | frame
  /-- A command word whose `op` is not in R131. -/
  | opcode
deriving DecidableEq, Repr

/-! ### DCC packets -/

/-- What follows the address part of a multifunction packet, without the checksum (R99 to R103). -/
inductive MfForm where
  | speed128 (d : Bool) (m : BitVec 7)
  | funcF0 (f0 : Bool) (f : BitVec 4)
  | funcF5 (f : BitVec 4)
  | funcF9 (f : BitVec 4)
  | funcF13 (f : Byte)
  | funcF21 (f : Byte)
  | funcF29 (f : Byte)
  | funcF37 (f : Byte)
  | funcF45 (f : Byte)
  | funcF53 (f : Byte)
  | funcF61 (f : Byte)
  | opsCvVerify (v : BitVec 10) (d : Byte)
  | opsCvWrite (v : BitVec 10) (d : Byte)
  | opsCvBit (v : BitVec 10) (k : Bool) (d : Bool) (b : BitVec 3)
deriving DecidableEq, Repr

/-- The address part (R97): one byte or two. -/
inductive AddrPart where
  | short (a : BitVec 7)
  | long (a : BitVec 14)
deriving DecidableEq, Repr

/-- The opcode byte `110xxxxx` of a feature-expansion group (R102). -/
def featureByte (x : BitVec 5) : Byte := 0b110#3 ++ x

/-- The three bytes `1110GGVV VVVVVVVV DDDDDDDD` (R103) and `111KDBBB`. -/
def cvByte0 (pre : BitVec 4) (gg : BitVec 2) (v : BitVec 10) : Byte := pre ++ gg ++ v.extractLsb' 8 2
def cvByte1 (v : BitVec 10) : Byte := v.extractLsb' 0 8
def bitByte (k d : Bool) (b : BitVec 3) : Byte := 0b111#3 ++ BitVec.ofBool k ++ BitVec.ofBool d ++ b

/-- The 10-bit `cv_num - 1` of two bytes (R103, R110, R168). -/
def cvOf (i0 i1 : Byte) : BitVec 10 := i0.extractLsb' 0 2 ++ i1

/-- The form of the instruction bytes (R98 to R103, R165); none for the class `MfOther`. -/
def decodeMf (c : Config) : List Byte → Option MfForm
  | [i0] =>
    if i0.extractLsb' 5 3 = 0b100#3 then some (.funcF0 (i0.getLsbD 4) (i0.extractLsb' 0 4))
    else if i0.extractLsb' 4 4 = 0b1011#4 then some (.funcF5 (i0.extractLsb' 0 4))
    else if i0.extractLsb' 4 4 = 0b1010#4 then some (.funcF9 (i0.extractLsb' 0 4))
    else none
  | [i0, i1] =>
    if i0 = 0x3F#8 then some (.speed128 (i1.getLsbD 7) (i1.extractLsb' 0 7))
    else if i0 = featureByte c.feature_exp.f13 then some (.funcF13 i1)
    else if i0 = featureByte c.feature_exp.f21 then some (.funcF21 i1)
    else if i0 = featureByte c.feature_exp.f29 then some (.funcF29 i1)
    else if i0 = featureByte c.feature_exp.f37 then some (.funcF37 i1)
    else if i0 = featureByte c.feature_exp.f45 then some (.funcF45 i1)
    else if i0 = featureByte c.feature_exp.f53 then some (.funcF53 i1)
    else if i0 = featureByte c.feature_exp.f61 then some (.funcF61 i1)
    else none
  | [i0, i1, i2] =>
    if i0.extractLsb' 4 4 = 0b1110#4 then
      if i0.extractLsb' 2 2 = 0b01#2 then some (.opsCvVerify (cvOf i0 i1) i2)
      else if i0.extractLsb' 2 2 = 0b11#2 then some (.opsCvWrite (cvOf i0 i1) i2)
      else if i0.extractLsb' 2 2 = 0b10#2 ∧ i2.extractLsb' 5 3 = 0b111#3 then
        some (.opsCvBit (cvOf i0 i1) (i2.getLsbD 4) (i2.getLsbD 3) (i2.extractLsb' 0 3))
      else none
    else none
  | _ => none

/-- The row of a form behind a one-byte address. -/
def shortInstr (a : BitVec 7) (x : Byte) : MfForm → Instr
  | .speed128 d m => .speed128S a d m x
  | .funcF0 f0 f => .funcF0S a f0 f x
  | .funcF5 f => .funcF5S a f x
  | .funcF9 f => .funcF9S a f x
  | .funcF13 f => .funcF13S a f x
  | .funcF21 f => .funcF21S a f x
  | .funcF29 f => .funcF29S a f x
  | .funcF37 f => .funcF37S a f x
  | .funcF45 f => .funcF45S a f x
  | .funcF53 f => .funcF53S a f x
  | .funcF61 f => .funcF61S a f x
  | .opsCvVerify v d => .opsCvVerifyS a v d x
  | .opsCvWrite v d => .opsCvWriteS a v d x
  | .opsCvBit v k d b => .opsCvBitS a v k d b x

/-- The row of a form behind a two-byte address. -/
def longInstr (a : BitVec 14) (x : Byte) : MfForm → Instr
  | .speed128 d m => .speed128L a d m x
  | .funcF0 f0 f => .funcF0L a f0 f x
  | .funcF5 f => .funcF5L a f x
  | .funcF9 f => .funcF9L a f x
  | .funcF13 f => .funcF13L a f x
  | .funcF21 f => .funcF21L a f x
  | .funcF29 f => .funcF29L a f x
  | .funcF37 f => .funcF37L a f x
  | .funcF45 f => .funcF45L a f x
  | .funcF53 f => .funcF53L a f x
  | .funcF61 f => .funcF61L a f x
  | .opsCvVerify v d => .opsCvVerifyL a v d x
  | .opsCvWrite v d => .opsCvWriteL a v d x
  | .opsCvBit v k d b => .opsCvBitL a v k d b x

/-- The address part and what follows it (R97, R142). -/
def splitAddr : List Byte → Option (AddrPart × List Byte)
  | [] => none
  | b0 :: t =>
    if b0.getLsbD 7 = false ∧ b0 ≠ 0x00#8 then some (.short (b0.extractLsb' 0 7), t)
    else if b0.extractLsb' 6 2 = 0b11#2 ∧ b0.toNat ≤ 0xE7 then
      match t with
      | [] => none
      | b1 :: t' => some (.long (b0.extractLsb' 0 6 ++ b1), t')
    else none

/-- A multifunction packet: address part, instruction bytes, checksum (R95). -/
def decodeMultifunction (c : Config) (bytes : List Byte) : Except Reject Instr :=
  match splitAddr bytes with
  | none => .error .mfOther
  | some (ap, t) =>
    match decodeMf c t.dropLast with
    | none => .error .mfOther
    | some f =>
      match ap with
      | .short a => .ok (shortInstr a (t.getLastD 0#8) f)
      | .long a => .ok (longInstr a (t.getLastD 0#8) f)

/-- With `svc = 1`, a four-byte packet `0111CCAA ...` with `CC` not `00` is a service-mode packet (R110, R165). -/
def isSvcDirect : List Byte → Bool
  | [b0, _, _, _] => b0.extractLsb' 4 4 == 0b0111#4 && b0.extractLsb' 2 2 != 0b00#2
  | _ => false

def decodeSvc : List Byte → Except Reject Instr
  | [b0, b1, b2, x] =>
    if b0.extractLsb' 2 2 = 0b01#2 then .ok (.svcVerifyByte (cvOf b0 b1) b2 x)
    else if b0.extractLsb' 2 2 = 0b11#2 then .ok (.svcWriteByte (cvOf b0 b1) b2 x)
    else if b2.extractLsb' 5 3 = 0b111#3 then
      .ok (.svcBit (cvOf b0 b1) (b2.getLsbD 4) (b2.getLsbD 3) (b2.extractLsb' 0 3) x)
    else .error .svcBitData
  | _ => .error .length

/-- The packet decoder, in the order of R165; the checksum is left to the packet's meaning. -/
def decodePacket (c : Config) (svc : Bool) (bytes : List Byte) : Except Reject Instr :=
  if bytes.length < 3 ∨ PKT_MAX_LEN < bytes.length then .error .length
  else if bytes = [0x00#8, 0x00#8, 0x00#8] then .ok .reset
  else if bytes = [0xFF#8, 0x00#8, 0xFF#8] then .ok .idle
  else if svc && isSvcDirect bytes then decodeSvc bytes
  else
    match bytes with
    | [] => .error .length
    | b0 :: t =>
      if b0 = 0x00#8 then .ok (.unclassified00 t)
      else if b0 = 0xFF#8 then .ok (.unclassifiedFF t)
      else if b0.extractLsb' 6 2 = 0b10#2 then .ok (.accessory (b0.extractLsb' 0 6) t)
      else if b0.extractLsb' 3 5 = 0b11101#5 then .ok (.reservedE8EF (b0.extractLsb' 0 3) t)
      else if b0.extractLsb' 4 4 = 0b1111#4 then .ok (.reservedF0FE (b0.extractLsb' 0 4) t)
      else decodeMultifunction c bytes

/-! ### RailCom frames -/

/-- One classified raw symbol (R118). -/
inductive Sym where
  | data (d : BitVec 6)
  | ack
  | nak
  | bsy
  | inv
deriving DecidableEq, Repr

/-- The raw byte of each 6-bit datum, rows of eight as R245 prints them (general knowledge K1; log entry 8). -/
def codeTable : List Byte :=
  [0xAC, 0xAA, 0xA9, 0xA5, 0xA3, 0xA6, 0x9C, 0x9A] ++
  [0x99, 0x95, 0x93, 0x96, 0x8E, 0x8D, 0x8B, 0xB1] ++
  [0xB2, 0xB4, 0xB8, 0x74, 0x72, 0x6C, 0x6A, 0x69] ++
  [0x65, 0x63, 0x66, 0x5C, 0x5A, 0x59, 0x55, 0x53] ++
  [0x56, 0x4E, 0x4D, 0x4B, 0x47, 0x71, 0xE8, 0xE4] ++
  [0xE2, 0xD1, 0xC9, 0xC5, 0xD8, 0xD4, 0xD2, 0xCA] ++
  [0xC6, 0xCC, 0x78, 0x17, 0x1B, 0x1D, 0x1E, 0x2E] ++
  [0x36, 0x3A, 0x27, 0x2B, 0x2D, 0x35, 0x39, 0x33]

/-- The raw byte that carries a datum. -/
def codeOf (d : BitVec 6) : Byte := codeTable.getD d.toNat 0x00#8

/-- `rc_class(b)` (R246). -/
def rcClass (v : RailcomVersion) (b : Byte) : Sym :=
  match codeTable.findIdx? (· == b) with
  | some i => .data (BitVec.ofNat 6 i)
  | none =>
    if b = 0xF0#8 ∨ (b = 0x0F#8 ∧ v = .v2021) then .ack
    else if b = 0x3C#8 then .nak
    else if b = 0xE1#8 ∧ v = .v2012 then .bsy
    else .inv

/-- `rc_len(pkt_id)` (R247). -/
def rcLen (id : BitVec 4) : Option Nat :=
  if id = 0#4 ∨ id = 1#4 ∨ id = 2#4 then some 2
  else if id = 5#4 ∨ id = 7#4 then some 3
  else if id.extractLsb' 2 2 = 0b10#2 then some 6
  else none

/-- The data of the first `k` symbols and the symbols after them; none if one of them is not a datum or is missing. -/
def takeData : Nat → List Sym → Option (List (BitVec 6) × List Sym)
  | 0, t => some ([], t)
  | k + 1, .data d :: t =>
    match takeData k t with
    | some (ds, r) => some (d :: ds, r)
    | none => none
  | _ + 1, _ => none

/-- The message of R120 from its first datum and the data after it. -/
def buildMsg (s0 : BitVec 6) : List (BitVec 6) → Option RcMsg
  | [s1] =>
    let val : Byte := s0.extractLsb' 0 2 ++ s1
    if s0.extractLsb' 2 4 = 0#4 then some (.pom val)
    else if s0.extractLsb' 2 4 = 1#4 then some (.ahi val)
    else if s0.extractLsb' 2 4 = 2#4 then some (.alo val)
    else none
  | [s1, s2] =>
    let payload : BitVec 14 := s0.extractLsb' 0 2 ++ s1 ++ s2
    if s0.extractLsb' 2 4 = 5#4 then some (.ext payload)
    else if s0.extractLsb' 2 4 = 7#4 then some (.dyn (payload.extractLsb' 6 8) (payload.extractLsb' 0 6))
    else none
  | [s1, s2, s3, s4, s5] =>
    let payload : BitVec 32 := s0.extractLsb' 0 2 ++ s1 ++ s2 ++ s3 ++ s4 ++ s5
    if s0.extractLsb' 4 2 = 0b10#2 then
      some (.xpom (s0.extractLsb' 2 2) (payload.extractLsb' 24 8) (payload.extractLsb' 16 8)
        (payload.extractLsb' 8 8) (payload.extractLsb' 0 8))
    else none
  | _ => none

/-- `rc_msg` (R248): the message at the head of the symbols, and the symbols it leaves; none for `fail`. -/
def rcMsg : List Sym → Option (RcMsg × List Sym)
  | .ack :: t => some (.ack, t)
  | .nak :: t => some (.nak, t)
  | .bsy :: t => some (.bsy, t)
  | .data s0 :: t =>
    match rcLen (s0.extractLsb' 2 4) with
    | none => none
    | some k =>
      match takeData (k - 1) t with
      | none => none
      | some (ds, r) => (buildMsg s0 ds).map (fun m => (m, r))
  | .inv :: _ => none
  | [] => none

/-- `rc_ch1` (R250): AHI or ALO in the first two symbols, and the symbols left (R251: all of them on failure). -/
def rcCh1 : List Sym → Option RcMsg × List Sym
  | .data s0 :: .data s1 :: t =>
    if s0.extractLsb' 2 4 = 1#4 then (some (.ahi (s0.extractLsb' 0 2 ++ s1)), t)
    else if s0.extractLsb' 2 4 = 2#4 then (some (.alo (s0.extractLsb' 0 2 ++ s1)), t)
    else (none, .data s0 :: .data s1 :: t)
  | t => (none, t)

/-- The loop of `rc_ch2` (R252); none for `fail`. The first argument bounds the number of messages. -/
def rcCh2Loop : Nat → List Sym → Option (List RcMsg)
  | _, [] => some []
  | 0, _ :: _ => none
  | n + 1, s :: t =>
    match rcMsg (s :: t) with
    | none => none
    | some (m, r) => (rcCh2Loop n r).map (m :: ·)

/-- `rc_ch2` (R252): all remaining symbols parse, or the channel is cleared. -/
def rcCh2 (t : List Sym) : List RcMsg := (rcCh2Loop t.length t).getD []

/-- `rc_parse` (R249): the channel-1 message and the channel-2 messages of a frame. -/
def rcParse (v : RailcomVersion) (raw : List Byte) : Option RcMsg × List RcMsg :=
  let (ch1, t) := rcCh1 (raw.map (rcClass v))
  (ch1, rcCh2 t)

/-- The row of a message. -/
def msgInstr : RcMsg → Instr
  | .ack => .rcAck
  | .nak => .rcNak
  | .bsy => .rcBsy
  | .pom v => .rcPom v
  | .ahi v => .rcAhi v
  | .alo v => .rcAlo v
  | .ext p => .rcExt p
  | .dyn v i => .rcDyn v i
  | .xpom ss d0 d1 d2 d3 => .rcXpom ss d0 d1 d2 d3

/-- A frame that is exactly one message; the second raw byte of ACK has a row of its own (R119). -/
def decodeFrame (c : Config) (raw : List Byte) : Except Reject Instr :=
  if raw = [0x0F#8] ∧ c.railcom_version = .v2021 then .ok .rcAck2021
  else
    match rcParse c.railcom_version raw with
    | (some m, []) => if raw.length = 2 then .ok (msgInstr m) else .error .frame
    | (none, [m]) => .ok (msgInstr m)
    | _ => .error .frame

/-! ### Host command words -/

/-- The four fields of R130. -/
def cmdOp (w : BitVec 48) : Byte := w.extractLsb' 40 8
def cmdA (w : BitVec 48) : BitVec 16 := w.extractLsb' 24 16
def cmdB (w : BitVec 48) : BitVec 16 := w.extractLsb' 8 16
def cmdC (w : BitVec 48) : Byte := w.extractLsb' 0 8

/-- R131; operand bits a command does not use are ignored (R132). -/
def decodeCommand (w : BitVec 48) : Except Reject Instr :=
  let op := cmdOp w
  if op = 0x01#8 then .ok .setModeOff
  else if op = 0x02#8 then .ok .setModeOps
  else if op = 0x10#8 then .ok (.writeCv (cmdA w) (cmdC w))
  else if op = 0x11#8 then .ok (.writeBit (cmdA w) (cmdB w) (cmdC w))
  else if op = 0x12#8 then .ok (.readCv (cmdA w))
  else if op = 0x13#8 then .ok (.readBit (cmdA w) (cmdB w))
  else if op = 0x14#8 then .ok .svcDone
  else if op = 0x20#8 then .ok (.createThrottle (cmdA w))
  else if op = 0x21#8 then .ok (.deleteThrottle (cmdA w))
  else if op = 0x22#8 then .ok (.findThrottle (cmdA w))
  else if op = 0x23#8 then .ok .restartThrottles
  else if op = 0x30#8 then .ok (.thrSetSpeed (cmdA w) ((cmdB w).extractLsb' 0 8))
  else if op = 0x31#8 then .ok (.thrSetFunction (cmdA w) (cmdB w) ((cmdC w).getLsbD 0))
  else if op = 0x32#8 then .ok (.thrSetAddress (cmdA w) (cmdB w))
  else if op = 0x33#8 then .ok (.thrReadCv (cmdA w) (cmdB w))
  else if op = 0x34#8 then .ok (.thrWriteCv (cmdA w) (cmdB w) (cmdC w))
  else if op = 0x35#8 then .ok (.thrWriteBit (cmdA w) (cmdB w) ((cmdC w).getLsbD 3) ((cmdC w).extractLsb' 0 3))
  else if op = 0x36#8 then .ok (.thrOpsDone (cmdA w))
  else if op = 0x40#8 then .ok (.setVerbosity (cmdB w) ((cmdC w).getLsbD 0))
  else .error .opcode

/-- The decoder of the block. -/
def decode (c : Config) : InstrWord → Except Reject Instr
  | .packet svc bytes => decodePacket c svc bytes
  | .frame raw => decodeFrame c raw
  | .command w => decodeCommand w

/-! ### The encoder -/

/-- The address part (R97). -/
def shortBytes (a : BitVec 7) : List Byte := [0b0#1 ++ a]
def longBytes (a : BitVec 14) : List Byte := [0b11#2 ++ a.extractLsb' 8 6, a.extractLsb' 0 8]

/-- The instruction bytes of a form (R99 to R103). -/
def mfBytes (c : Config) : MfForm → List Byte
  | .speed128 d m => [0x3F#8, BitVec.ofBool d ++ m]
  | .funcF0 f0 f => [0b100#3 ++ BitVec.ofBool f0 ++ f]
  | .funcF5 f => [0b1011#4 ++ f]
  | .funcF9 f => [0b1010#4 ++ f]
  | .funcF13 f => [featureByte c.feature_exp.f13, f]
  | .funcF21 f => [featureByte c.feature_exp.f21, f]
  | .funcF29 f => [featureByte c.feature_exp.f29, f]
  | .funcF37 f => [featureByte c.feature_exp.f37, f]
  | .funcF45 f => [featureByte c.feature_exp.f45, f]
  | .funcF53 f => [featureByte c.feature_exp.f53, f]
  | .funcF61 f => [featureByte c.feature_exp.f61, f]
  | .opsCvVerify v d => [cvByte0 0b1110#4 0b01#2 v, cvByte1 v, d]
  | .opsCvWrite v d => [cvByte0 0b1110#4 0b11#2 v, cvByte1 v, d]
  | .opsCvBit v k d b => [cvByte0 0b1110#4 0b10#2 v, cvByte1 v, bitByte k d b]

def shortPacket (c : Config) (a : BitVec 7) (f : MfForm) (x : Byte) : InstrWord :=
  .packet false (shortBytes a ++ mfBytes c f ++ [x])

def longPacket (c : Config) (a : BitVec 14) (f : MfForm) (x : Byte) : InstrWord :=
  .packet false (longBytes a ++ mfBytes c f ++ [x])

/-- The raw bytes of a message (R119, R120). -/
def msgRaw : RcMsg → List Byte
  | .ack => [0xF0#8]
  | .nak => [0x3C#8]
  | .bsy => [0xE1#8]
  | .pom v => [codeOf (0#4 ++ v.extractLsb' 6 2), codeOf (v.extractLsb' 0 6)]
  | .ahi v => [codeOf (1#4 ++ v.extractLsb' 6 2), codeOf (v.extractLsb' 0 6)]
  | .alo v => [codeOf (2#4 ++ v.extractLsb' 6 2), codeOf (v.extractLsb' 0 6)]
  | .ext p => [codeOf (5#4 ++ p.extractLsb' 12 2), codeOf (p.extractLsb' 6 6), codeOf (p.extractLsb' 0 6)]
  | .dyn v i => [codeOf (7#4 ++ v.extractLsb' 6 2), codeOf (v.extractLsb' 0 6), codeOf i]
  | .xpom ss d0 d1 d2 d3 =>
    let p : BitVec 32 := d0 ++ d1 ++ d2 ++ d3
    [codeOf (0b10#2 ++ ss ++ p.extractLsb' 30 2), codeOf (p.extractLsb' 24 6), codeOf (p.extractLsb' 18 6),
      codeOf (p.extractLsb' 12 6), codeOf (p.extractLsb' 6 6), codeOf (p.extractLsb' 0 6)]

/-- A command word of R130. -/
def cmdWord (op : Byte) (a b : BitVec 16) (c : Byte) : InstrWord := .command (op ++ a ++ b ++ c)

/-- The word of an instruction. -/
def encode (c : Config) : Instr → InstrWord
  | .reset => .packet false [0x00#8, 0x00#8, 0x00#8]
  | .idle => .packet false [0xFF#8, 0x00#8, 0xFF#8]
  | .speed128S a d m x => shortPacket c a (.speed128 d m) x
  | .speed128L a d m x => longPacket c a (.speed128 d m) x
  | .funcF0S a f0 f x => shortPacket c a (.funcF0 f0 f) x
  | .funcF0L a f0 f x => longPacket c a (.funcF0 f0 f) x
  | .funcF5S a f x => shortPacket c a (.funcF5 f) x
  | .funcF5L a f x => longPacket c a (.funcF5 f) x
  | .funcF9S a f x => shortPacket c a (.funcF9 f) x
  | .funcF9L a f x => longPacket c a (.funcF9 f) x
  | .funcF13S a f x => shortPacket c a (.funcF13 f) x
  | .funcF13L a f x => longPacket c a (.funcF13 f) x
  | .funcF21S a f x => shortPacket c a (.funcF21 f) x
  | .funcF21L a f x => longPacket c a (.funcF21 f) x
  | .funcF29S a f x => shortPacket c a (.funcF29 f) x
  | .funcF29L a f x => longPacket c a (.funcF29 f) x
  | .funcF37S a f x => shortPacket c a (.funcF37 f) x
  | .funcF37L a f x => longPacket c a (.funcF37 f) x
  | .funcF45S a f x => shortPacket c a (.funcF45 f) x
  | .funcF45L a f x => longPacket c a (.funcF45 f) x
  | .funcF53S a f x => shortPacket c a (.funcF53 f) x
  | .funcF53L a f x => longPacket c a (.funcF53 f) x
  | .funcF61S a f x => shortPacket c a (.funcF61 f) x
  | .funcF61L a f x => longPacket c a (.funcF61 f) x
  | .opsCvVerifyS a v d x => shortPacket c a (.opsCvVerify v d) x
  | .opsCvVerifyL a v d x => longPacket c a (.opsCvVerify v d) x
  | .opsCvWriteS a v d x => shortPacket c a (.opsCvWrite v d) x
  | .opsCvWriteL a v d x => longPacket c a (.opsCvWrite v d) x
  | .opsCvBitS a v k d b x => shortPacket c a (.opsCvBit v k d b) x
  | .opsCvBitL a v k d b x => longPacket c a (.opsCvBit v k d b) x
  | .svcVerifyByte v d x => .packet true [cvByte0 0b0111#4 0b01#2 v, cvByte1 v, d, x]
  | .svcWriteByte v d x => .packet true [cvByte0 0b0111#4 0b11#2 v, cvByte1 v, d, x]
  | .svcBit v k d b x => .packet true [cvByte0 0b0111#4 0b10#2 v, cvByte1 v, bitByte k d b, x]
  | .accessory r rest => .packet false ((0b10#2 ++ r) :: rest)
  | .reservedE8EF r rest => .packet false ((0b11101#5 ++ r) :: rest)
  | .reservedF0FE r rest => .packet false ((0b1111#4 ++ r) :: rest)
  | .unclassified00 rest => .packet false (0x00#8 :: rest)
  | .unclassifiedFF rest => .packet false (0xFF#8 :: rest)
  | .rcAck => .frame (msgRaw .ack)
  | .rcAck2021 => .frame [0x0F#8]
  | .rcNak => .frame (msgRaw .nak)
  | .rcBsy => .frame (msgRaw .bsy)
  | .rcPom v => .frame (msgRaw (.pom v))
  | .rcAhi v => .frame (msgRaw (.ahi v))
  | .rcAlo v => .frame (msgRaw (.alo v))
  | .rcExt p => .frame (msgRaw (.ext p))
  | .rcDyn v i => .frame (msgRaw (.dyn v i))
  | .rcXpom ss d0 d1 d2 d3 => .frame (msgRaw (.xpom ss d0 d1 d2 d3))
  | .setModeOff => cmdWord 0x01#8 0#16 0#16 0#8
  | .setModeOps => cmdWord 0x02#8 0#16 0#16 0#8
  | .writeCv cv v => cmdWord 0x10#8 cv 0#16 v
  | .writeBit cv b v => cmdWord 0x11#8 cv b v
  | .readCv cv => cmdWord 0x12#8 cv 0#16 0#8
  | .readBit cv b => cmdWord 0x13#8 cv b 0#8
  | .svcDone => cmdWord 0x14#8 0#16 0#16 0#8
  | .createThrottle a => cmdWord 0x20#8 a 0#16 0#8
  | .deleteThrottle a => cmdWord 0x21#8 a 0#16 0#8
  | .findThrottle a => cmdWord 0x22#8 a 0#16 0#8
  | .restartThrottles => cmdWord 0x23#8 0#16 0#16 0#8
  | .thrSetSpeed a s => cmdWord 0x30#8 a (0#8 ++ s) 0#8
  | .thrSetFunction a n on => cmdWord 0x31#8 a n (0#7 ++ BitVec.ofBool on)
  | .thrSetAddress a n => cmdWord 0x32#8 a n 0#8
  | .thrReadCv a cv => cmdWord 0x33#8 a cv 0#8
  | .thrWriteCv a cv v => cmdWord 0x34#8 a cv v
  | .thrWriteBit a cv v b => cmdWord 0x35#8 a cv (0#4 ++ BitVec.ofBool v ++ b)
  | .thrOpsDone a => cmdWord 0x36#8 a 0#16 0#8
  | .setVerbosity which on => cmdWord 0x40#8 0#16 which (0#7 ++ BitVec.ofBool on)

/-! ### Words of the opcode table

The table numbers a row's bits as ONE number: bit 0 is the last bit of the row's pattern, the first byte is the most
significant (98_reader.md: "read as one number with bit 0 its least significant bit"). -/

/-- The `n` bytes of the low `8 * n` bits of `w`, the most significant byte first. -/
def bytesOfNat : Nat → Nat → List Byte
  | 0, _ => []
  | n + 1, w => BitVec.ofNat 8 (w / 256 ^ n) :: bytesOfNat n w

/-- The raw bytes of the `n` six-bit data of the low `6 * n` bits of `w`, the first datum most significant. -/
def codesOfNat : Nat → Nat → List Byte
  | 0, _ => []
  | n + 1, w => codeOf (BitVec.ofNat 6 (w / 64 ^ n)) :: codesOfNat n w

/-- The places a row of `nbits` bits can stand in, in the order they are tried, with the RailCom version that reads
it. A row of one byte is a RailCom symbol, or the first byte of a packet whose other bytes are 0. -/
def tableWords (nbits w : Nat) : List (RailcomVersion × InstrWord) :=
  let packets : List (RailcomVersion × InstrWord) :=
    [(.v2021, .packet false (bytesOfNat (nbits / 8) w)), (.v2021, .packet true (bytesOfNat (nbits / 8) w))]
  match nbits with
  | 8 => [(.v2021, .frame [BitVec.ofNat 8 w]), (.v2012, .frame [BitVec.ofNat 8 w]),
          (.v2021, .packet false (BitVec.ofNat 8 w :: List.replicate 7 0x00#8))]
  | 12 | 16 => [(.v2021, .frame (codesOfNat 2 w))]
  | 18 => [(.v2021, .frame (codesOfNat 3 w))]
  | 36 => [(.v2021, .frame (codesOfNat 6 w))]
  | 24 => packets ++ [(.v2021, .frame (codesOfNat 3 w))]
  | 40 => packets ++ [(.v2021, .frame (codesOfNat 6 w))]
  | 48 => (.v2021, .command (BitVec.ofNat 48 w)) :: packets
  | _ => packets

/-- The first place whose decoder reads an instruction there. -/
def firstDecoded (c : Config) : List (RailcomVersion × InstrWord) → Option (RailcomVersion × InstrWord × Instr)
  | [] => none
  | (v, iw) :: t =>
    match decode { c with railcom_version := v } iw with
    | .ok i => some (v, iw, i)
    | .error _ => firstDecoded c t

/-- The instruction the decoder reads from a row's bits. -/
def decodeTableWord (nbits w : Nat) : Option Instr :=
  (firstDecoded Config.standard (tableWords nbits w)).map (fun r => r.2.2)

end Sys2Proof
end

