-- ==== Sys2Proof/Machine/State.lean ====
section
/-! DEFINITION. Everything the spec gives the block to hold (10_state.md), as plain data, one record per component (R1);
and the state after reset (70_reset_and_hazards.md R451). Field names are the spec's register names. Fields marked "the
model's own" hold what the environment delivers and what the block returns; the spec has them as events and results. -/

namespace Sys2Proof.Machine

/-! ### Packets -/

/-- A `DccPacket` (R10): the list of its `len` bytes; bytes beyond `len` have no meaning and are not held. -/
structure DccPacket where
  bytes : List Byte
deriving DecidableEq, Repr

/-- `len` (R10). -/
abbrev DccPacket.len (p : DccPacket) : Nat := p.bytes.length

/-- The two templates (R13). -/
def IDLE : DccPacket := { bytes := [0xFF#8, 0x00#8, 0xFF#8] }
def RESET : DccPacket := { bytes := [0x00#8, 0x00#8, 0x00#8] }

/-- `Some(slot, gen)` of a `ThrottleRef` (R11). -/
structure ThrRef where
  slot : Nat
  gen : Nat
deriving DecidableEq, Repr

abbrev ThrottleRef := Option ThrRef

/-- A `TrackPacket` (R12). -/
structure TrackPacket where
  pkt : DccPacket
  ref : ThrottleRef
deriving DecidableEq, Repr

/-! ### The bit engine (41_bitstream.md) -/

/-- The two packet slots (R14). -/
inductive SlotSel where
  | A | B
deriving DecidableEq, Repr

def SlotSel.other : SlotSel → SlotSel
  | .A => .B
  | .B => .A

/-- `(byte_index, bit_index)` (R21): `preamble r` is `(PREAMBLE, r)`, `data i b` is `(i, b)`, `trail i` is `(i, TRAIL)`,
`cutout c` is `(CUTOUT, c)`. -/
inductive Pos where
  | preamble (r : Nat)
  | data (i : Nat) (b : Nat)
  | trail (i : Nat)
  | cutout (c : Nat)
deriving DecidableEq, Repr

/-- The bit-slot alphabet (R94, R201). -/
inductive SlotKind where
  | One | Zero | Cutout1 | CutoutN
deriving DecidableEq, Repr

/-- What one output signal does (R4, R201): a constant level, or segments of a level and its duration in microseconds. -/
inductive Wave where
  | const (level : Bool)
  | segs (l : List (Bool × Nat))
deriving DecidableEq, Repr

structure Bitstream where
  slotA : TrackPacket
  slotB : TrackPacket
  cur : SlotSel
  last_ref : ThrottleRef
  pos : Pos
  /-- The previous position was `(CUTOUT, 1)`: R206 tells the first preamble bit after a cutout by it. -/
  from_cutout : Bool
  bs_run : Bool
  preamble_bits : Nat
  railcom_enabled : Bool
  lat_min : Nat
  lat_max : Nat
  lat_avg16 : Nat
  /-- The signals as last programmed (R4). -/
  dcc_sig : Wave
  dcc_pwr : Wave
  /-- The bit slots programmed so far, the newest first: "The observable output of a run" (R4, R39). -/
  wire : List SlotKind
deriving DecidableEq, Repr

/-! ### Throttles (45_throttle.md) -/

/-- One slot of `thr[]` (R16, R18, R19, R24, R27). `functions` is wide enough for every `FUNC_CAP`; bits above `FMAX`
are never set. -/
structure Throttle where
  valid : Bool
  gen : Nat
  address : BitVec 14
  speed : Int
  functions : BitVec 69
  pkt_speed : DccPacket
  pkt_func : List DccPacket
  seq : Nat
  read_cv_cnt : Nat
  write_cv_cnt : Nat
  write_bit_cnt : Nat
  pkt_ops : DccPacket
  ops_wr_val : Byte
  rc_speed : Byte
  rc_speed_time : Nat
  rc_speed_valid : Bool
  ops_done : Bool
  ops_ok : Bool
  ops_val : Byte
deriving DecidableEq, Repr

/-! ### The scheduler's service-mode registers (44_scheduler.md) -/

/-- `mode` (R29). -/
inductive Mode where
  | Off | Ops | Service
deriving DecidableEq, Repr

/-- `svc_phase` (R23). -/
inductive SvcPhase where
  | Reset1 | Command | Reset2
deriving DecidableEq, Repr

/-- `svc_status` (R25). -/
inductive SvcStatus where
  | Idle | Busy | Success | Error
deriving DecidableEq, Repr

/-- `svc_op` (R32). -/
inductive SvcOp where
  | None | WriteByte | WriteBit | ReadByte | ReadBit
deriving DecidableEq, Repr

structure Service where
  svc_phase : SvcPhase
  svc_cnt : Nat
  svc_step : Nat
  svc_status : SvcStatus
  svc_result : Byte
  ack_seen : Bool
  ack_armed : Bool
  ack_threshold_mA : Nat
  svc_op : SvcOp
  svc_cv : BitVec 10
  svc_bit_num : BitVec 3
  svc_bit_val : Bool
  svc_val : Byte
deriving DecidableEq, Repr

/-! ### The current sensor (43_current_sensor.md) -/

structure Sensor where
  cs_ring : List (BitVec 12)
  cs_head : Nat
  adc_fifo : List (BitVec 12 × Bool)
  adc_run : Bool
  adc_err_cnt : Nat
  /-- The capture log (R38), a write-only sink. -/
  cap_log : List Byte
deriving DecidableEq, Repr

/-! ### RailCom (42_railcom.md) -/

structure RailCom where
  uart_fifo : List Byte
  rc_raw : List Byte
  rc_cnt : Nat
  rc_ch1 : Option RcMsg
  rc_ch2 : List RcMsg
deriving DecidableEq, Repr

/-! ### The packet decoder's answer (40_packet_codec.md) -/

/-- The 24 classes of R165. -/
inductive DccClass where
  | Invalid | Reset | Idle | Speed128 | Func0 | Func5 | Func9 | Func13 | Func21 | Func29 | Func37 | Func45 | Func53
  | Func61 | OpsCvVerifyByte | OpsCvWriteByte | OpsCvBit | SvcVerifyByte | SvcWriteByte | SvcBit | Accessory | MfOther
  | Reserved | Unclassified
deriving DecidableEq, Repr

/-- The fields extracted (R166 to R168); `adrs` is none for a service-mode packet. -/
inductive DccFields where
  | none
  | speed (adrs : Nat) (s : Int)
  | func (adrs : Nat) (bits : Byte)
  | cvByte (adrs : Option Nat) (cv_num : Nat) (d : Byte)
  | cvBit (adrs : Option Nat) (cv_num : Nat) (k : Bool) (d : Bool) (bit : Nat)
deriving DecidableEq, Repr

/-- What the codec returns for one packet: its class, its fields, and the packet the encoder builds from them (none if
the encoder refuses the operands or has no such form). The model's own return port: the codec holds no state (R140). -/
structure CodecOut where
  cls : DccClass
  fields : DccFields
  built : Option DccPacket
deriving DecidableEq, Repr

/-! ### The host's side -/

/-- The response record of the command port (R130). -/
structure Response where
  ok : Bool
  isDone : Bool
  val : BitVec 16
deriving DecidableEq, Repr

/-- A text in a buffer (40_packet_codec.md R174): what the buffer holds of it, and whether all of it fitted. -/
structure Rendering where
  text : List Byte
  fits : Bool
deriving DecidableEq, Repr

/-- What a line of the diagnostic log is about (R436); its text is not in the source. The line of a RailCom frame carries
the reader's two renderings of it, `dump` and `show` (42_railcom.md R254). -/
inductive LogLine where
  | packet (p : DccPacket) (o : CodecOut)
  | frame (raw : List Byte) (ch1 : Option RcMsg) (ch2 : List RcMsg) (dumped shown : Rendering)
  | speed (slot : Nat) (val : Byte)
  | command (w : BitVec 48)
deriving DecidableEq, Repr

/-- The verbosity bits (R34) and the log ring they feed (R42), the newest line last. -/
structure Trace where
  trace_dcc : Bool
  trace_railcom : Bool
  trace_speed : Bool
  cmd_echo : Bool
  log_ring : List LogLine
deriving DecidableEq, Repr

/-- One event of an agent (R2). `codec` is the model's own: a call of the packet decoder by the host's context (R140,
R170), which changes no register. -/
inductive Event where
  | cmd (w : BitVec 48)
  | bitEnd
  | adcSample (raw : BitVec 12) (err : Bool)
  | uartByte (b : Byte)
  | tick
  | codec (svc : Bool) (bytes : List Byte)
deriving DecidableEq, Repr

/-! ### The whole -/

structure State where
  /-- The parameters (R6); no step writes them. -/
  cfg : Config
  mode : Mode
  bs : Bitstream
  thr : List Throttle
  thr_list : List Nat
  rr_cursor : Nat
  svc : Service
  cs : Sensor
  rc : RailCom
  trace : Trace
  now : Nat
  /-- The model's own: the response of the last command (R130). -/
  resp : Response
  /-- The model's own: the answer of the last codec call. -/
  codec : CodecOut
  /-- The model's own: the events the agents deliver next, the first one first. Claims over all states are claims over
  every interleaving (20_memory.md R83). -/
  inputs : List Event
  /-- The model's own: how many free values have been drawn. -/
  draws : Nat
deriving DecidableEq, Repr

/-- A step has no fault (60_exceptions.md R410: "The block has no trap mechanism"; R418): the type has no constructor. -/
inductive Fault where
deriving DecidableEq, Repr

/-- Why an instruction has no meaning. -/
inductive Refusal where
  /-- Raised by `exec` for an instruction that is not modelled yet; safe. No arm raises it. -/
  | notModelled (mnemonic : String)
deriving DecidableEq, Repr

/-! ### Reset -/

/-- A throttle slot at reset: `valid = 0`, `gen = 0`; the other fields are "unspecified while `valid = 0`" and no rule
reads them before create writes them (R451). DESIGN CHOICE: zero, and the Idle packet (log entry 5). -/
def Throttle.reset : Throttle :=
  { valid := false, gen := 0, address := 0#14, speed := 0, functions := 0#69, pkt_speed := IDLE, pkt_func := [],
    seq := 0, read_cv_cnt := 0, write_cv_cnt := 0, write_bit_cnt := 0, pkt_ops := IDLE, ops_wr_val := 0#8,
    rc_speed := 0#8, rc_speed_time := 0, rc_speed_valid := false, ops_done := false, ops_ok := false, ops_val := 0#8 }

/-- R451 for the bit engine; the latency metrics are "unspecified" there (DESIGN CHOICE 0, log entry 5). -/
def Bitstream.reset (c : Config) : Bitstream :=
  { slotA := { pkt := IDLE, ref := none }, slotB := { pkt := IDLE, ref := none }, cur := .A, last_ref := none,
    pos := .preamble OPS_PREAMBLE_BITS, from_cutout := false, bs_run := false, preamble_bits := OPS_PREAMBLE_BITS,
    railcom_enabled := c.railcom_enabled, lat_min := 0, lat_max := 0, lat_avg16 := 0, dcc_sig := .const false,
    dcc_pwr := .const false, wire := [] }

def Service.reset : Service :=
  { svc_phase := .Reset1, svc_cnt := 0, svc_step := 0, svc_status := .Idle, svc_result := 0#8, ack_seen := false,
    ack_armed := false, ack_threshold_mA := 0, svc_op := .None, svc_cv := 0#10, svc_bit_num := 0#3,
    svc_bit_val := false, svc_val := 0#8 }

def Sensor.reset (c : Config) : Sensor :=
  { cs_ring := List.replicate c.long_avg_n 0#12, cs_head := 0, adc_fifo := [], adc_run := false, adc_err_cnt := 0,
    cap_log := [] }

def RailCom.reset : RailCom :=
  { uart_fifo := [], rc_raw := List.replicate RC_MAX_BYTES 0#8, rc_cnt := 0, rc_ch1 := none, rc_ch2 := [] }

def Trace.reset : Trace :=
  { trace_dcc := false, trace_railcom := false, trace_speed := false, cmd_echo := false, log_ring := [] }

/-- The state the `Reset` event leaves for given parameters (R450, R451). The two return ports and the event list are the
model's own (DESIGN CHOICE, log entry 5): no response yet, no codec call yet, no event yet. -/
def State.resetWith (c : Config) : State :=
  { cfg := c, mode := .Off, bs := Bitstream.reset c, thr := List.replicate c.max_throttles Throttle.reset,
    thr_list := [], rr_cursor := 0, svc := Service.reset, cs := Sensor.reset c, rc := RailCom.reset,
    trace := Trace.reset, now := 0, resp := { ok := false, isDone := false, val := 0#16 },
    codec := { cls := .Invalid, fields := .none, built := none }, inputs := [], draws := 0 }

def State.reset : State := State.resetWith Config.standard

end Sys2Proof.Machine
end

