-- ==== Sys2Proof/Machine/Operands.lean ====
section
/-! DEFINITION. PacketCodec (40_packet_codec.md): operand ranges, operand assembly, every encoder and the decoder, as pure
functions ("It holds no state", R140). An encoder the spec lets fail answers an `Option`; none is the error. The `…Packet`
functions are the encoders' bodies for operands already checked, as the scheduler and the throttles use them. -/

namespace Sys2Proof.Machine

/-! ### Operand ranges (60_exceptions.md R412) -/

def addrOk (a : BitVec 16) : Bool := ADDR_MIN ≤ a.toNat && a.toNat ≤ ADDR_MAX
def cvOk (n : BitVec 16) : Bool := CV_MIN ≤ n.toNat && n.toNat ≤ CV_MAX

/-- `cv_num - 1` (R61, R161). -/
def cvField (n : BitVec 16) : BitVec 10 := (n - 1#16).setWidth 10

/-! ### Function capacity (00_scope.md R6, 20_memory.md R62) -/

/-- `FMAX`. -/
def fmax : FuncCap → Nat
  | .f8 => 8
  | .f12 => 12
  | .f20 => 20
  | .f28 => 28
  | .f36 => 36
  | .f44 => 44
  | .f52 => 52
  | .f60 => 60
  | .f68 => 68

/-- `G`, the number of function groups. -/
def groupCount : FuncCap → Nat
  | .f8 => 2
  | .f12 => 3
  | .f20 => 4
  | .f28 => 5
  | .f36 => 6
  | .f44 => 7
  | .f52 => 8
  | .f60 => 9
  | .f68 => 10

/-- `SEQ_MAX = 2*G`. -/
def seqMax (c : FuncCap) : Nat := 2 * groupCount c

/-- `grp(n)` (R62). -/
def grp (n : Nat) : Nat :=
  if n ≤ 4 then 0
  else if n ≤ 8 then 1
  else if n ≤ 12 then 2
  else if n ≤ 20 then 3
  else if n ≤ 28 then 4
  else if n ≤ 36 then 5
  else if n ≤ 44 then 6
  else if n ≤ 52 then 7
  else if n ≤ 60 then 8
  else 9

/-! ### Primitives (R141 to R145) -/

/-- `XOR(b[0..n-1])` (00_scope.md section 6). -/
def xorBytes : List Byte → Byte
  | [] => 0#8
  | b :: t => b ^^^ xorBytes t

/-- The address part of an address in 1..10239 (R97, R141). -/
def addrBytes (a : BitVec 14) : List Byte :=
  if a.toNat ≤ ADDR_SHORT_MAX then [a.setWidth 8] else longBytes a

/-- `set_address` (R141): the address part, of 1 or 2 bytes; none out of range. -/
def setAddress (a : Nat) : Option (List Byte) :=
  if a < ADDR_MIN ∨ ADDR_MAX < a then none else some (addrBytes (BitVec.ofNat 14 a))

/-- `get_address` (R142): the address and how many bytes it took. -/
def getAddress : List Byte → Option (Nat × Nat)
  | [] => none
  | b0 :: t =>
    if 0x01 ≤ b0.toNat ∧ b0.toNat ≤ 0x7F then some (b0.toNat, 1)
    else if 0xC0 ≤ b0.toNat ∧ b0.toNat ≤ 0xE7 then
      some (((b0 &&& 0x3F#8).toNat <<< 8) ||| (t.headD 0#8).toNat, 2)
    else none

/-- `set_xor` (R143): the last byte becomes the XOR of the others. The rule is "Defined for `p.len >= 1`" only; DESIGN
CHOICE (log entry 24): the empty packet becomes the packet of the one byte 0. -/
def setXor (p : DccPacket) : DccPacket := { bytes := p.bytes.dropLast ++ [xorBytes p.bytes.dropLast] }

/-- `check_xor` (R144). -/
def checkXor (p : DccPacket) : Bool := 1 ≤ p.len && xorBytes p.bytes == 0#8

/-- The body of `build` (R145): address part, instruction bytes, checksum. -/
def buildPacket (a : BitVec 14) (instr : List Byte) : DccPacket :=
  { bytes := addrBytes a ++ instr ++ [xorBytes (addrBytes a ++ instr)] }

/-- `build` (R145); the error of `set_address` propagates. -/
def build (a : Nat) (instr : List Byte) : Option DccPacket :=
  if a < ADDR_MIN ∨ ADDR_MAX < a then none else some (buildPacket (BitVec.ofNat 14 a) instr)

/-- A packet with no address part (R110, R175). -/
def plainPacket (body : List Byte) : DccPacket := { bytes := body ++ [xorBytes body] }

/-! ### Encoders (R146 to R163, R175 to R177)

R180 is the law of what they return and of how `decodeType` and `decodeFields` below read it back. -/

/-- `enc_reset()` and `enc_idle()` (R146, R147). -/
def encReset : DccPacket := RESET
def encIdle : DccPacket := IDLE

/-- The instruction bytes of a speed (R150): bit 7 is 1 for `s >= 0`, the low seven bits are `|s|`. -/
def speedInstr (s : Int) : List Byte := [0x3F#8, BitVec.ofBool (decide (0 ≤ s)) ++ BitVec.ofNat 7 s.natAbs]

def speedPacket (a : BitVec 14) (s : Int) : DccPacket := buildPacket a (speedInstr s)

/-- `enc_speed128(a, s)` (R150). -/
def encSpeed128 (a : Nat) (s : Int) : Option DccPacket :=
  if s < -127 ∨ 127 < s then none else build a (speedInstr s)

/-- The bits of group `g` in a function set, the lowest function in bit 0 (R62, R167). -/
def groupBits (g : Nat) (f : BitVec 69) : Byte :=
  match g with
  | 0 => (f.extractLsb' 0 5).setWidth 8
  | 1 => (f.extractLsb' 5 4).setWidth 8
  | 2 => (f.extractLsb' 9 4).setWidth 8
  | 3 => f.extractLsb' 13 8
  | 4 => f.extractLsb' 21 8
  | 5 => f.extractLsb' 29 8
  | 6 => f.extractLsb' 37 8
  | 7 => f.extractLsb' 45 8
  | 8 => f.extractLsb' 53 8
  | _ => f.extractLsb' 61 8

/-- The instruction bytes of group `g` with the bits `b` (R100 to R102, R151 to R160). F0 stands in bit 4 of its byte and
F1..F4 in bits 0..3. -/
def funcInstr (c : Config) (g : Nat) (b : Byte) : List Byte :=
  match g with
  | 0 => [0b100#3 ++ BitVec.ofBool (b.getLsbD 0) ++ b.extractLsb' 1 4]
  | 1 => [0b1011#4 ++ b.extractLsb' 0 4]
  | 2 => [0b1010#4 ++ b.extractLsb' 0 4]
  | 3 => [featureByte c.feature_exp.f13, b]
  | 4 => [featureByte c.feature_exp.f21, b]
  | 5 => [featureByte c.feature_exp.f29, b]
  | 6 => [featureByte c.feature_exp.f37, b]
  | 7 => [featureByte c.feature_exp.f45, b]
  | 8 => [featureByte c.feature_exp.f53, b]
  | _ => [featureByte c.feature_exp.f61, b]

def funcPacket (c : Config) (g : Nat) (a : BitVec 14) (f : BitVec 69) : DccPacket :=
  buildPacket a (funcInstr c g (groupBits g f))

/-- `enc_func(g, a, f)` (R151 to R160). -/
def encFunc (c : Config) (g : Nat) (a : Nat) (f : BitVec 69) : Option DccPacket :=
  build a (funcInstr c g (groupBits g f))

/-- The instruction bytes of the three CV operations, `v = cv_num - 1` (R103, R161 to R163). -/
def cvInstr (pre : BitVec 4) (op : BitVec 2) (v : BitVec 10) (d : Byte) : List Byte := [cvByte0 pre op v, cvByte1 v, d]

def opsVerifyPacket (a : BitVec 14) (v : BitVec 10) (d : Byte) : DccPacket :=
  buildPacket a (cvInstr 0b1110#4 0b01#2 v d)
def opsWritePacket (a : BitVec 14) (v : BitVec 10) (d : Byte) : DccPacket :=
  buildPacket a (cvInstr 0b1110#4 0b11#2 v d)
def opsBitPacket (a : BitVec 14) (v : BitVec 10) (k d : Bool) (b : BitVec 3) : DccPacket :=
  buildPacket a (cvInstr 0b1110#4 0b10#2 v (bitByte k d b))

/-- The check of a CV number, and its `cv_num - 1` (R161, R175). -/
def cvArg (cv_num : Nat) : Option (BitVec 10) :=
  if cv_num < CV_MIN ∨ CV_MAX < cv_num then none else some (BitVec.ofNat 10 (cv_num - 1))

/-- `enc_ops_cv_verify`, `enc_ops_cv_write`, `enc_ops_cv_bit` (R161 to R163). -/
def encOpsCvVerify (a cv_num : Nat) (d : Byte) : Option DccPacket :=
  (cvArg cv_num).bind (fun v => build a (cvInstr 0b1110#4 0b01#2 v d))
def encOpsCvWrite (a cv_num : Nat) (d : Byte) : Option DccPacket :=
  (cvArg cv_num).bind (fun v => build a (cvInstr 0b1110#4 0b11#2 v d))
def encOpsCvBit (a cv_num : Nat) (k d : Bool) (bit : Nat) : Option DccPacket :=
  if 7 < bit then none
  else (cvArg cv_num).bind (fun v => build a (cvInstr 0b1110#4 0b10#2 v (bitByte k d (BitVec.ofNat 3 bit))))

def svcVerifyPacket (v : BitVec 10) (d : Byte) : DccPacket := plainPacket (cvInstr 0b0111#4 0b01#2 v d)
def svcWritePacket (v : BitVec 10) (d : Byte) : DccPacket := plainPacket (cvInstr 0b0111#4 0b11#2 v d)
def svcBitPacket (v : BitVec 10) (k d : Bool) (b : BitVec 3) : DccPacket :=
  plainPacket (cvInstr 0b0111#4 0b10#2 v (bitByte k d b))

/-- `enc_svc_verify_byte`, `enc_svc_write_byte`, `enc_svc_bit` (R175 to R177). -/
def encSvcVerifyByte (cv_num : Nat) (d : Byte) : Option DccPacket := (cvArg cv_num).map (fun v => svcVerifyPacket v d)
def encSvcWriteByte (cv_num : Nat) (d : Byte) : Option DccPacket := (cvArg cv_num).map (fun v => svcWritePacket v d)
def encSvcBit (cv_num : Nat) (k d : Bool) (bit : Nat) : Option DccPacket :=
  if 7 < bit then none else (cvArg cv_num).map (fun v => svcBitPacket v k d (BitVec.ofNat 3 bit))

/-! ### The decoder -/

/-- The class of the instruction bytes of a multifunction packet (the second half of R165). -/
def mfClassOf (c : Config) (ib : List Byte) : DccClass :=
  let i0 := ib.headD 0#8
  let k := ib.length
  if k < 1 then .MfOther
  else if i0 = 0x3F#8 ∧ k = 2 then .Speed128
  else if i0.extractLsb' 5 3 = 0b100#3 ∧ k = 1 then .Func0
  else if i0.extractLsb' 4 4 = 0b1011#4 ∧ k = 1 then .Func5
  else if i0.extractLsb' 4 4 = 0b1010#4 ∧ k = 1 then .Func9
  else if k = 2 ∧ i0 = featureByte c.feature_exp.f13 then .Func13
  else if k = 2 ∧ i0 = featureByte c.feature_exp.f21 then .Func21
  else if k = 2 ∧ i0 = featureByte c.feature_exp.f29 then .Func29
  else if k = 2 ∧ i0 = featureByte c.feature_exp.f37 then .Func37
  else if k = 2 ∧ i0 = featureByte c.feature_exp.f45 then .Func45
  else if k = 2 ∧ i0 = featureByte c.feature_exp.f53 then .Func53
  else if k = 2 ∧ i0 = featureByte c.feature_exp.f61 then .Func61
  else if i0.extractLsb' 4 4 = 0b1110#4 ∧ k = 3 then
    if i0.extractLsb' 2 2 = 0b01#2 then .OpsCvVerifyByte
    else if i0.extractLsb' 2 2 = 0b11#2 then .OpsCvWriteByte
    else if i0.extractLsb' 2 2 = 0b10#2 then
      if (ib.getD 2 0#8).extractLsb' 5 3 = 0b111#3 then .OpsCvBit else .MfOther
    else .MfOther
  else .MfOther

/-- `decode_type(p, svc)` (R165), clause by clause. -/
def decodeType (c : Config) (p : DccPacket) (svc : Bool) : DccClass :=
  let b0 := p.bytes.headD 0#8
  if p.len < 3 ∨ PKT_MAX_LEN < p.len then .Invalid
  else if ¬ checkXor p then .Invalid
  else if p.bytes = [0x00#8, 0x00#8, 0x00#8] then .Reset
  else if p.bytes = [0xFF#8, 0x00#8, 0xFF#8] then .Idle
  else if svc ∧ p.len = 4 ∧ b0.extractLsb' 4 4 = 0b0111#4 ∧ b0.extractLsb' 2 2 ≠ 0b00#2 then
    if b0.extractLsb' 2 2 = 0b01#2 then .SvcVerifyByte
    else if b0.extractLsb' 2 2 = 0b11#2 then .SvcWriteByte
    else if (p.bytes.getD 2 0#8).extractLsb' 5 3 = 0b111#3 then .SvcBit
    else .Unclassified
  else if b0 = 0x00#8 ∨ b0 = 0xFF#8 then .Unclassified
  else if 0x80 ≤ b0.toNat ∧ b0.toNat ≤ 0xBF then .Accessory
  else if 0xE8 ≤ b0.toNat ∧ b0.toNat ≤ 0xFE then .Reserved
  else
    match getAddress p.bytes with
    | none => .MfOther
    | some (_, n) => mfClassOf c ((p.bytes.drop n).dropLast)

/-- `decode_speed_128(p)` (R166): address and speed, none where the packet is of another class. -/
def decodeSpeed128 (c : Config) (p : DccPacket) : Option (Nat × Int) :=
  if decodeType c p false = .Speed128 then
    (getAddress p.bytes).map (fun (a, n) =>
      let d := p.bytes.getD (n + 1) 0#8
      let mag : Int := (d.extractLsb' 0 7).toNat
      (a, if d.getLsbD 7 then mag else -mag))
  else none

/-- The class `Func<k>` of a group (R62, R165). -/
def funcClass (g : Nat) : DccClass :=
  match g with
  | 0 => .Func0
  | 1 => .Func5
  | 2 => .Func9
  | 3 => .Func13
  | 4 => .Func21
  | 5 => .Func29
  | 6 => .Func37
  | 7 => .Func45
  | 8 => .Func53
  | _ => .Func61

/-- `decode_func_k(p)` for group `g` (R167): address and the group's bits. -/
def decodeFunc (c : Config) (g : Nat) (p : DccPacket) : Option (Nat × Byte) :=
  if decodeType c p false = funcClass g then
    (getAddress p.bytes).map (fun (a, n) =>
      let i0 := p.bytes.getD n 0#8
      (a, if g = 0 then (i0.extractLsb' 0 4 ++ BitVec.ofBool (i0.getLsbD 4)).setWidth 8
          else if g ≤ 2 then (i0.extractLsb' 0 4).setWidth 8
          else p.bytes.getD (n + 1) 0#8))
  else none

/-- The CV fields of a packet whose instruction bytes start at `n` (R168). -/
def cvFields (adrs : Option Nat) (p : DccPacket) (n : Nat) (isBit : Bool) : DccFields :=
  let cv_num := (cvOf (p.bytes.getD n 0#8) (p.bytes.getD (n + 1) 0#8)).toNat + 1
  let d := p.bytes.getD (n + 2) 0#8
  if isBit then .cvBit adrs cv_num (d.getLsbD 4) (d.getLsbD 3) (d.extractLsb' 0 3).toNat
  else .cvByte adrs cv_num d

/-- The field extraction of R166 to R168 for a packet of class `k`. -/
def decodeFields (c : Config) (p : DccPacket) (k : DccClass) : DccFields :=
  let func (g : Nat) : DccFields :=
    match decodeFunc c g p with
    | some (a, b) => .func a b
    | none => .none
  let ops (isBit : Bool) : DccFields :=
    match getAddress p.bytes with
    | some (a, n) => cvFields (some a) p n isBit
    | none => .none
  match k with
  | .Speed128 =>
    match decodeSpeed128 c p with
    | some (a, s) => .speed a s
    | none => .none
  | .Func0 => func 0
  | .Func5 => func 1
  | .Func9 => func 2
  | .Func13 => func 3
  | .Func21 => func 4
  | .Func29 => func 5
  | .Func37 => func 6
  | .Func45 => func 7
  | .Func53 => func 8
  | .Func61 => func 9
  | .OpsCvVerifyByte | .OpsCvWriteByte => ops false
  | .OpsCvBit => ops true
  | .SvcVerifyByte | .SvcWriteByte => cvFields none p 0 false
  | .SvcBit => cvFields none p 0 true
  | .Invalid | .Reset | .Idle | .Accessory | .MfOther | .Reserved | .Unclassified => .none

/-- The packet the encoder of class `k` builds from extracted fields; none where the encoder refuses an operand, or the
class is never encoded. -/
def encodeFields (c : Config) (k : DccClass) (f : DccFields) : Option DccPacket :=
  match k, f with
  | .Reset, _ => some encReset
  | .Idle, _ => some encIdle
  | .Speed128, .speed a s => encSpeed128 a s
  | .Func0, .func a b => build a (funcInstr c 0 b)
  | .Func5, .func a b => build a (funcInstr c 1 b)
  | .Func9, .func a b => build a (funcInstr c 2 b)
  | .Func13, .func a b => build a (funcInstr c 3 b)
  | .Func21, .func a b => build a (funcInstr c 4 b)
  | .Func29, .func a b => build a (funcInstr c 5 b)
  | .Func37, .func a b => build a (funcInstr c 6 b)
  | .Func45, .func a b => build a (funcInstr c 7 b)
  | .Func53, .func a b => build a (funcInstr c 8 b)
  | .Func61, .func a b => build a (funcInstr c 9 b)
  | .OpsCvVerifyByte, .cvByte (some a) cv d => encOpsCvVerify a cv d
  | .OpsCvWriteByte, .cvByte (some a) cv d => encOpsCvWrite a cv d
  | .OpsCvBit, .cvBit (some a) cv kk d b => encOpsCvBit a cv kk d b
  | .SvcVerifyByte, .cvByte none cv d => encSvcVerifyByte cv d
  | .SvcWriteByte, .cvByte none cv d => encSvcWriteByte cv d
  | .SvcBit, .cvBit none cv kk d b => encSvcBit cv kk d b
  | _, _ => none

/-- The whole answer of the decoder for any byte string: total, never a failure (R165). -/
def codecReport (c : Config) (svc : Bool) (p : DccPacket) : CodecOut :=
  let k := decodeType c p svc
  let f := decodeFields c p k
  { cls := k, fields := f, built := encodeFields c k f }

/-- A text written to a buffer of `cap` bytes: never past its end, and a text that did not fit is reported (R174, 93 U28). -/
def render (cap : Nat) (t : List Byte) : Rendering := { text := t.take cap, fits := t.length ≤ cap }

/-- `show(buf)` (R174). -/
def showPacket (cap : Nat) (p : DccPacket) : Rendering := render cap (Config.showText p.bytes)

end Sys2Proof.Machine
end

