-- ==== Sys2Proof/Machine/Flags.lean ====
section
/-! DEFINITION. The status and result bits and what they are computed from (10_state.md R25 to R28, R36): the averages of
the sample ring, the milliamp conversion, the ack flag, and the answers of the two polls. -/

namespace Sys2Proof.Machine

/-! ### The averages (43_current_sensor.md R285 to R288) -/

/-- `cs_ring[(cs_head - 1 - k) mod LONG_AVG_N]`: the `k`-th newest sample (R284), 0 outside the ring. -/
def sampleBack (n : Nat) (cs : Sensor) (k : Nat) : Nat :=
  (cs.cs_ring.getD ((cs.cs_head + (k + 1) * n - 1 - k) % n) 0#12).toNat

/-- `short_avg_raw` (R285): the denominator is 16 from the first sample on. -/
def shortAvgRaw (n : Nat) (cs : Sensor) : Nat :=
  ((List.range SHORT_AVG_N).map (sampleBack n cs)).sum / SHORT_AVG_N

/-- `long_avg_raw` (R286). -/
def longAvgRaw (n : Nat) (cs : Sensor) : Nat :=
  (cs.cs_ring.map BitVec.toNat).sum / n

/-- `to_mA` (R287): integer divisions, left to right. -/
def toMA (raw : Nat) : Nat := ((raw * 3300 + 2048) / 4096) * 7447 / 8192

def shortAvgMA (s : State) : Nat := toMA (shortAvgRaw s.cfg.long_avg_n s.cs)
def longAvgMA (s : State) : Nat := toMA (longAvgRaw s.cfg.long_avg_n s.cs)

/-! ### The ack flag -/

/-- `ack_check()` (R290): a level comparison with `>=`; it never clears `ack_seen`. -/
def ackCheck (s : State) : State :=
  if s.svc.ack_armed ∧ s.svc.ack_threshold_mA ≤ shortAvgMA s then
    { s with svc := { s.svc with ack_seen := true } }
  else s

/-! ### The polls -/

/-- The table of `svc_done` (44_scheduler.md R333). -/
def svcDoneResponse (v : Service) : Response :=
  match v.svc_status with
  | .Idle | .Busy => { ok := false, isDone := false, val := 0#16 }
  | .Success => { ok := true, isDone := true, val := v.svc_result.setWidth 16 }
  | .Error => { ok := false, isDone := true, val := v.svc_result.setWidth 16 }

/-- `ops_done` (45_throttle.md R386). -/
def opsDoneResponse (t : Throttle) : Response :=
  { ok := t.ops_ok, isDone := t.ops_done, val := t.ops_val.setWidth 16 }

/-- One of the throttle's three counters is nonzero: an operation is pending (R380, R385). -/
def opsPending (t : Throttle) : Bool := 0 < t.read_cv_cnt || 0 < t.write_cv_cnt || 0 < t.write_bit_cnt

end Sys2Proof.Machine
end

