-- ==== Sys2Proof/Machine/Ops.lean ====
section
/-! DEFINITION. The shared operations over the state: the command port's response and its errors, the log ring, free
values, the throttle table and list, the bit slots, the sample FIFO and the UART FIFO. -/

namespace Sys2Proof.Machine

/-- The outcome type of every meaning. -/
abbrev Out := Host.Outcome State Fault Refusal

/-! ### Responses and errors (60_exceptions.md) -/

def respond (r : Response) (s : State) : State := { s with resp := r }

/-- A command accepted with no value. -/
def respondOk (s : State) : State := respond { ok := true, isDone := false, val := 0#16 } s

/-- A command accepted with a value (R131: `val = slot`). -/
def respondVal (v : Nat) (s : State) : State := respond { ok := true, isDone := false, val := BitVec.ofNat 16 v } s

/-- The labels of R411 that a command can raise. -/
inductive CmdError where
  /-- `E_ARG`: an operand out of range (R412). -/
  | arg
  /-- `E_REFUSED`: the policy rejects the command (R417). -/
  | refused
deriving DecidableEq, Repr

/-- Taking an error: "An error never changes control flow: a host command that fails returns `ok = 0` and changes no state"
(R410), and "the response does not tell the kinds apart" (R411). There is nothing to save and nothing to return to. -/
def raiseError (_k : CmdError) (s : State) : State := respond { ok := false, isDone := false, val := 0#16 } s

/-! ### Free values -/

/-- The latency metrics are drawn at the end of every `BitEnd` (41_bitstream.md R205 step 5, 10_state.md R43). -/
def drawLatency (s : State) : State :=
  { s with
    bs := { s.bs with
      lat_min := Config.freeLatency s.draws
      lat_max := Config.freeLatency (s.draws + 1)
      lat_avg16 := Config.freeLatency (s.draws + 2) }
    draws := s.draws + 3 }

/-! ### The log ring (60_exceptions.md R436) -/

/-- A line goes in; a full ring drops the oldest. R430 and R436 have the foreground drain the ring in its main loop, by no
command or event of the spec: the model has no drain, so a line leaves only when a full ring drops it (DESIGN CHOICE, log
entry 13). -/
def logLine (l : LogLine) (s : State) : State :=
  let ls := s.trace.log_ring ++ [l]
  { s with trace := { s.trace with log_ring := ls.drop (ls.length - Config.logSlots) } }

/-- A line is produced when its verbosity bit is set (log entry 13). -/
def logWhen (b : Bool) (l : LogLine) (s : State) : State := if b then logLine l s else s

/-! ### The throttle table and list (10_state.md R11, R16, R20) -/

def thrAt (s : State) (i : Nat) : Throttle := s.thr.getD i Throttle.reset

def setThr (i : Nat) (t : Throttle) (s : State) : State := { s with thr := s.thr.set i t }

/-- A reference is live iff its slot is valid and has its generation (R11). -/
def live (s : State) (r : ThrRef) : Bool := (thrAt s r.slot).valid && (thrAt s r.slot).gen == r.gen

/-- The slot with this address: the lowest valid one (R374; at most one is valid with an address, R20). -/
def findSlot (s : State) (a : BitVec 14) : Option Nat := s.thr.findIdx? (fun t => t.valid && t.address == a)

/-- The lowest free slot (44_scheduler.md R340). -/
def freeSlot (s : State) : Option Nat := s.thr.findIdx? (fun t => !t.valid)

/-- Some slot other than `i` is valid with this address (45_throttle.md R379). -/
def addrTaken (s : State) (i : Nat) (a : BitVec 14) : Bool :=
  s.thr.zipIdx.any (fun p => p.1.valid && p.1.address == a && p.2 != i)

def addrOf (s : State) (i : Nat) : Nat := (thrAt s i).address.toNat

/-- Insert a slot "before the first entry whose address is greater" (R340). -/
def insertSlot (s : State) (i : Nat) : List Nat → List Nat
  | [] => [i]
  | j :: t => if addrOf s i < addrOf s j then i :: j :: t else j :: insertSlot s i t

/-- A list of slots sorted by ascending address (R342). -/
def sortSlots (s : State) (l : List Nat) : List Nat := l.foldl (fun acc i => insertSlot s i acc) []

/-- `restart_throttles_effects` (44_scheduler.md R342). -/
def restartEffects (s : State) : State :=
  { s with
    thr_list := sortSlots s s.thr_list
    thr := s.thr.map (fun t => if t.valid then { t with seq := 0 } else t)
    rr_cursor := 0 }

/-! ### Bit slots (41_bitstream.md R201) -/

/-- `dcc_sig` over one slot: the high half first. -/
def sigWave : SlotKind → Wave
  | .Zero => .segs [(true, T0_HALF_US), (false, T0_HALF_US)]
  | .One | .Cutout1 | .CutoutN => .segs [(true, T1_HALF_US), (false, T1_HALF_US)]

/-- `dcc_pwr` over one slot: the first cutout bit keeps power on for a quarter-bit, 29 of 116 µs. -/
def pwrWave : SlotKind → Wave
  | .One => .segs [(true, 2 * T1_HALF_US)]
  | .Zero => .segs [(true, 2 * T0_HALF_US)]
  | .Cutout1 => .segs [(true, T1_HALF_US / 2), (false, 2 * T1_HALF_US - T1_HALF_US / 2)]
  | .CutoutN => .segs [(false, 2 * T1_HALF_US)]

/-- `emit(k)`: program the next bit slot. -/
def emitSlot (k : SlotKind) (b : Bitstream) : Bitstream :=
  { b with dcc_sig := sigWave k, dcc_pwr := pwrWave k, wire := k :: b.wire }

/-- `slot[s]` (R14). -/
def Bitstream.slot (b : Bitstream) : SlotSel → TrackPacket
  | .A => b.slotA
  | .B => b.slotB

def Bitstream.setSlot (b : Bitstream) (i : SlotSel) (p : TrackPacket) : Bitstream :=
  match i with
  | .A => { b with slotA := p }
  | .B => { b with slotB := p }

/-- The packet on the wire, `slot[cur].pkt`. -/
def Bitstream.curPkt (b : Bitstream) : DccPacket := (b.slot b.cur).pkt

/-! ### FIFOs -/

/-- The UART reset (42_railcom.md R241). -/
def uartReset (s : State) : State := { s with rc := { s.rc with uart_fifo := [] } }

/-- `adc_start()` and `adc_stop()` (43_current_sensor.md R282): "`adc_err_cnt` is cleared by neither". The table of
60_exceptions.md R430 has that counter cleared at ADC start; the model follows R282 (DESIGN CHOICE, log entry 25). -/
def adcStart (s : State) : State :=
  { s with cs := { s.cs with
      cs_ring := List.replicate s.cfg.long_avg_n 0#12, cs_head := 0, adc_fifo := [], adc_run := true } }

def adcStop (s : State) : State := { s with cs := { s.cs with adc_run := false, adc_fifo := [] } }

/-! ### The codec's return port -/

def codecAnswer (o : CodecOut) (s : State) : State := { s with codec := o }

end Sys2Proof.Machine
end

