-- ==== Sys2Proof/Machine/Packets.lean ====
section
/-! DEFINITION. The meaning of the DCC packet forms: what the codec answers for a packet of the form (40_packet_codec.md).
A form's instruction is the packet with its checksum byte; the answer is `Invalid` when the checksum is wrong (R165, R413),
else the form's class, the operands it carries (R166 to R168), and the packet the form's encoder builds from those operands
(R146 to R163, R175 to R177). "No encoder writes any register" (R140): only the codec's return port changes. -/

namespace Sys2Proof.Machine

/-- The bytes of a packet word. -/
def wordBytes : InstrWord → List Byte
  | .packet _ bytes => bytes
  | .frame raw => raw
  | .command _ => []

/-- The answer for a packet of a known form: "consumers MUST treat it as if absent" when the checksum fails (R413). -/
def formAnswer (c : Config) (w : InstrWord) (k : DccClass) (f : DccFields) : CodecOut :=
  if checkXor { bytes := wordBytes w } then { cls := k, fields := f, built := encodeFields c k f }
  else { cls := .Invalid, fields := .none, built := none }

/-- The class of a form (R165). -/
def mfClass : MfForm → DccClass
  | .speed128 _ _ => .Speed128
  | .funcF0 _ _ => .Func0
  | .funcF5 _ => .Func5
  | .funcF9 _ => .Func9
  | .funcF13 _ => .Func13
  | .funcF21 _ => .Func21
  | .funcF29 _ => .Func29
  | .funcF37 _ => .Func37
  | .funcF45 _ => .Func45
  | .funcF53 _ => .Func53
  | .funcF61 _ => .Func61
  | .opsCvVerify _ _ => .OpsCvVerifyByte
  | .opsCvWrite _ _ => .OpsCvWriteByte
  | .opsCvBit _ _ _ _ => .OpsCvBit

/-- Sign and magnitude (R166): bit 7 = 1 is forward. -/
def signedSpeed (d : Bool) (m : BitVec 7) : Int := if d then (m.toNat : Int) else -(m.toNat : Int)

/-- The operands a form carries (R166 to R168). The bits of a function group are the lowest function first: of F0..F4 the
byte holds F0 in bit 4 and F1..F4 in bits 0..3 (R100, R167). -/
def mfFields (a : Nat) : MfForm → DccFields
  | .speed128 d m => .speed a (signedSpeed d m)
  | .funcF0 f0 f => .func a ((f ++ BitVec.ofBool f0).setWidth 8)
  | .funcF5 f | .funcF9 f => .func a (f.setWidth 8)
  | .funcF13 f | .funcF21 f | .funcF29 f | .funcF37 f | .funcF45 f | .funcF53 f | .funcF61 f => .func a f
  | .opsCvVerify v d | .opsCvWrite v d => .cvByte (some a) (v.toNat + 1) d
  | .opsCvBit v k d b => .cvBit (some a) (v.toNat + 1) k d b.toNat

/-- A multifunction packet behind a one-byte address, and behind a two-byte address. -/
def runShort (a : BitVec 7) (f : MfForm) (x : Byte) (s : State) : State :=
  codecAnswer (formAnswer s.cfg (shortPacket s.cfg a f x) (mfClass f) (mfFields a.toNat f)) s

def runLong (a : BitVec 14) (f : MfForm) (x : Byte) (s : State) : State :=
  codecAnswer (formAnswer s.cfg (longPacket s.cfg a f x) (mfClass f) (mfFields a.toNat f)) s

/-- A form with no operand to extract. -/
def runPlain (i : Instr) (k : DccClass) (s : State) : State :=
  codecAnswer (formAnswer s.cfg (encode s.cfg i) k .none) s

/-- A service-mode form (R168 with `n = 0` and no address). -/
def runSvc (i : Instr) (k : DccClass) (f : DccFields) (s : State) : State :=
  codecAnswer (formAnswer s.cfg (encode s.cfg i) k f) s

/-! ### Fixed forms (R146, R147) -/

def execReset (s : State) : Out := .next (runPlain .reset .Reset s)
def execIdle (s : State) : Out := .next (runPlain .idle .Idle s)

/-! ### Speed (R150, R166) -/

def execSpeed128S (a : BitVec 7) (d : Bool) (m : BitVec 7) (x : Byte) (s : State) : Out :=
  .next (runShort a (.speed128 d m) x s)
def execSpeed128L (a : BitVec 14) (d : Bool) (m : BitVec 7) (x : Byte) (s : State) : Out :=
  .next (runLong a (.speed128 d m) x s)

/-! ### Function groups (R151 to R160, R167) -/

def execFuncF0S (a : BitVec 7) (f0 : Bool) (f : BitVec 4) (x : Byte) (s : State) : Out := .next (runShort a (.funcF0 f0 f) x s)
def execFuncF0L (a : BitVec 14) (f0 : Bool) (f : BitVec 4) (x : Byte) (s : State) : Out := .next (runLong a (.funcF0 f0 f) x s)
def execFuncF5S (a : BitVec 7) (f : BitVec 4) (x : Byte) (s : State) : Out := .next (runShort a (.funcF5 f) x s)
def execFuncF5L (a : BitVec 14) (f : BitVec 4) (x : Byte) (s : State) : Out := .next (runLong a (.funcF5 f) x s)
def execFuncF9S (a : BitVec 7) (f : BitVec 4) (x : Byte) (s : State) : Out := .next (runShort a (.funcF9 f) x s)
def execFuncF9L (a : BitVec 14) (f : BitVec 4) (x : Byte) (s : State) : Out := .next (runLong a (.funcF9 f) x s)
def execFuncF13S (a : BitVec 7) (f : Byte) (x : Byte) (s : State) : Out := .next (runShort a (.funcF13 f) x s)
def execFuncF13L (a : BitVec 14) (f : Byte) (x : Byte) (s : State) : Out := .next (runLong a (.funcF13 f) x s)
def execFuncF21S (a : BitVec 7) (f : Byte) (x : Byte) (s : State) : Out := .next (runShort a (.funcF21 f) x s)
def execFuncF21L (a : BitVec 14) (f : Byte) (x : Byte) (s : State) : Out := .next (runLong a (.funcF21 f) x s)
def execFuncF29S (a : BitVec 7) (f : Byte) (x : Byte) (s : State) : Out := .next (runShort a (.funcF29 f) x s)
def execFuncF29L (a : BitVec 14) (f : Byte) (x : Byte) (s : State) : Out := .next (runLong a (.funcF29 f) x s)
def execFuncF37S (a : BitVec 7) (f : Byte) (x : Byte) (s : State) : Out := .next (runShort a (.funcF37 f) x s)
def execFuncF37L (a : BitVec 14) (f : Byte) (x : Byte) (s : State) : Out := .next (runLong a (.funcF37 f) x s)
def execFuncF45S (a : BitVec 7) (f : Byte) (x : Byte) (s : State) : Out := .next (runShort a (.funcF45 f) x s)
def execFuncF45L (a : BitVec 14) (f : Byte) (x : Byte) (s : State) : Out := .next (runLong a (.funcF45 f) x s)
def execFuncF53S (a : BitVec 7) (f : Byte) (x : Byte) (s : State) : Out := .next (runShort a (.funcF53 f) x s)
def execFuncF53L (a : BitVec 14) (f : Byte) (x : Byte) (s : State) : Out := .next (runLong a (.funcF53 f) x s)
def execFuncF61S (a : BitVec 7) (f : Byte) (x : Byte) (s : State) : Out := .next (runShort a (.funcF61 f) x s)
def execFuncF61L (a : BitVec 14) (f : Byte) (x : Byte) (s : State) : Out := .next (runLong a (.funcF61 f) x s)

/-! ### Operations-mode CV access (R161 to R163, R168) -/

def execOpsCvVerifyS (a : BitVec 7) (v : BitVec 10) (d : Byte) (x : Byte) (s : State) : Out :=
  .next (runShort a (.opsCvVerify v d) x s)
def execOpsCvVerifyL (a : BitVec 14) (v : BitVec 10) (d : Byte) (x : Byte) (s : State) : Out :=
  .next (runLong a (.opsCvVerify v d) x s)
def execOpsCvWriteS (a : BitVec 7) (v : BitVec 10) (d : Byte) (x : Byte) (s : State) : Out :=
  .next (runShort a (.opsCvWrite v d) x s)
def execOpsCvWriteL (a : BitVec 14) (v : BitVec 10) (d : Byte) (x : Byte) (s : State) : Out :=
  .next (runLong a (.opsCvWrite v d) x s)
def execOpsCvBitS (a : BitVec 7) (v : BitVec 10) (k d : Bool) (b : BitVec 3) (x : Byte) (s : State) : Out :=
  .next (runShort a (.opsCvBit v k d b) x s)
def execOpsCvBitL (a : BitVec 14) (v : BitVec 10) (k d : Bool) (b : BitVec 3) (x : Byte) (s : State) : Out :=
  .next (runLong a (.opsCvBit v k d b) x s)

/-! ### Service-mode direct (R175 to R177, R168) -/

def execSvcVerifyByte (v : BitVec 10) (d x : Byte) (s : State) : Out :=
  .next (runSvc (.svcVerifyByte v d x) .SvcVerifyByte (.cvByte none (v.toNat + 1) d) s)
def execSvcWriteByte (v : BitVec 10) (d x : Byte) (s : State) : Out :=
  .next (runSvc (.svcWriteByte v d x) .SvcWriteByte (.cvByte none (v.toNat + 1) d) s)
def execSvcBit (v : BitVec 10) (k d : Bool) (b : BitVec 3) (x : Byte) (s : State) : Out :=
  .next (runSvc (.svcBit v k d b x) .SvcBit (.cvBit none (v.toNat + 1) k d b.toNat) s)

/-! ### Decode-only forms: a class and no field (R171 to R173) -/

def execAccessory (r : BitVec 6) (rest : List Byte) (s : State) : Out := .next (runPlain (.accessory r rest) .Accessory s)
def execReservedE8EF (r : BitVec 3) (rest : List Byte) (s : State) : Out :=
  .next (runPlain (.reservedE8EF r rest) .Reserved s)
def execReservedF0FE (r : BitVec 4) (rest : List Byte) (s : State) : Out :=
  .next (runPlain (.reservedF0FE r rest) .Reserved s)
def execUnclassified00 (rest : List Byte) (s : State) : Out := .next (runPlain (.unclassified00 rest) .Unclassified s)
def execUnclassifiedFF (rest : List Byte) (s : State) : Out := .next (runPlain (.unclassifiedFF rest) .Unclassified s)

end Sys2Proof.Machine
end

