-- ==== Sys2Proof/Machine/Throttle.lean ====
section
/-! DEFINITION. Throttle (45_throttle.md): the packet rotation, the delivery of RailCom messages, and the per-throttle
commands. -/

namespace Sys2Proof.Machine

/-! ### Cached packets -/

/-- The function-group packets of a throttle, `g < G` (R17, R373). -/
def funcPackets (c : Config) (a : BitVec 14) (f : BitVec 69) : List DccPacket :=
  (List.range (groupCount c.func_cap)).map (fun g => funcPacket c g a f)

/-- A slot as `create_throttle(a)` leaves it (R373); `gen` is kept, `pkt_ops` is a free value. -/
def newThrottle (c : Config) (a : BitVec 14) (old : Throttle) (draw : Nat) : Throttle :=
  { valid := true, gen := old.gen, address := a, speed := 0, functions := 0#69, pkt_speed := speedPacket a 0,
    pkt_func := funcPackets c a 0#69, seq := 0, read_cv_cnt := 0, write_cv_cnt := 0, write_bit_cnt := 0,
    pkt_ops := { bytes := Config.freePacket draw }, ops_wr_val := 0#8, rc_speed := 0#8, rc_speed_time := 0,
    rc_speed_valid := false, ops_done := false, ops_ok := false, ops_val := 0#8 }

/-! ### The rotation -/

/-- `rot(t, s)` (R371). -/
def rot (t : Throttle) (q : Nat) : DccPacket := if q % 2 = 0 then t.pkt_speed else t.pkt_func.getD ((q - 1) / 2) IDLE

/-- `ops_complete` (R384). -/
def opsComplete (ok : Bool) (val : Byte) (t : Throttle) : Throttle :=
  { t with ops_done := true, ops_ok := ok, ops_val := val }

/-- `thr_next_packet` (R372) on one slot: the packet and the slot after it. -/
def nextPacket (c : Config) (t : Throttle) : DccPacket × Throttle :=
  if 0 < t.read_cv_cnt then
    let t' := { t with read_cv_cnt := t.read_cv_cnt - 1 }
    (t.pkt_ops, if t'.read_cv_cnt = 0 then opsComplete false 0#8 t' else t')
  else if 0 < t.write_cv_cnt then
    let t' := { t with write_cv_cnt := t.write_cv_cnt - 1 }
    (t.pkt_ops, if t'.write_cv_cnt = 0 then opsComplete true t.ops_wr_val t' else t')
  else if 0 < t.write_bit_cnt then
    let t' := { t with write_bit_cnt := t.write_bit_cnt - 1 }
    (t.pkt_ops, if t'.write_bit_cnt = 0 then opsComplete true t.ops_wr_val t' else t')
  else (rot t t.seq, { t with seq := (t.seq + 1) % seqMax c.func_cap })

/-! ### RailCom delivery (R385, R387, R389) -/

/-- A POM message completes a pending operation. -/
def onPom (val : Byte) (t : Throttle) : Throttle :=
  if opsPending t then
    { t with ops_done := true, ops_ok := true, ops_val := val, read_cv_cnt := 0, write_cv_cnt := 0, write_bit_cnt := 0 }
  else t

/-- A DYN message with subindex `SPEED1` reports the decoder's speed. -/
def onSpeed (val : Byte) (now : Nat) (t : Throttle) : Throttle :=
  { t with rc_speed := val, rc_speed_time := now, rc_speed_valid := true }

/-- One message delivered to slot `i` (R387). -/
def deliverTo (i : Nat) (m : RcMsg) (s : State) : State :=
  match m with
  | .pom val => setThr i (onPom val (thrAt s i)) s
  | .dyn val subidx =>
    if subidx = s.cfg.dyn_subidx_speed1 then
      logWhen s.trace.trace_speed (.speed i val) (setThr i (onSpeed val s.now (thrAt s i)) s)
    else s
  | .ack | .nak | .bsy | .ahi _ | .alo _ | .ext _ | .xpom _ _ _ _ _ => s

/-- `thr_deliver(i, msgs)` (R387), in frame order. -/
def thrDeliver (i : Nat) (msgs : List RcMsg) (s : State) : State := msgs.foldl (fun s m => deliverTo i m s) s

/-! ### Commands -/

/-- Naming a throttle (R374), with the checks in the order of 60_exceptions.md R423: operand ranges, then lookup. -/
def withThrottle (a : BitVec 16) (argsOk : Bool) (f : Nat → Throttle → State → State) (s : State) : State :=
  if addrOk a && argsOk then
    match findSlot s (a.setWidth 14) with
    | none => raiseError .refused s
    | some i => f i (thrAt s i) s
  else raiseError .arg s

/-- `speed` of the command word: eight bits, two's complement (R375). -/
def speedArg (b : Byte) : Int := b.toInt

def setSpeed (sp : Int) (t : Throttle) : Throttle :=
  { t with speed := sp, pkt_speed := speedPacket t.address sp, seq := t.seq - t.seq % 2 }

/-- `set_speed` (R375). -/
def execThrSetSpeed (a : BitVec 16) (speed : Byte) (s : State) : Out :=
  .next (withThrottle a (speed != 0x80#8) (fun i t s => respondOk (setThr i (setSpeed (speedArg speed) t) s)) s)

def setBit (f : BitVec 69) (n : Nat) (on : Bool) : BitVec 69 :=
  if on then f ||| (1#69 <<< n) else f &&& ~~~(1#69 <<< n)

def setFunction (c : Config) (n : Nat) (on : Bool) (t : Throttle) : Throttle :=
  let f := setBit t.functions n on
  { t with functions := f, pkt_func := t.pkt_func.set (grp n) (funcPacket c (grp n) t.address f), seq := 2 * grp n + 1 }

/-- `set_function` (R376). -/
def execThrSetFunction (a n : BitVec 16) (on : Bool) (s : State) : Out :=
  .next (withThrottle a (n.toNat ≤ fmax s.cfg.func_cap)
    (fun i t s => respondOk (setThr i (setFunction s.cfg n.toNat on t) s)) s)

def setAddr (c : Config) (new : BitVec 14) (t : Throttle) : Throttle :=
  { t with address := new, pkt_speed := speedPacket new t.speed, pkt_func := funcPackets c new t.functions, seq := 0 }

/-- `set_address` (R379). -/
def execThrSetAddress (a new : BitVec 16) (s : State) : Out :=
  .next (withThrottle a (addrOk new)
    (fun i t s =>
      if opsPending t || addrTaken s i (new.setWidth 14) then raiseError .refused s
      else
        let s' := setThr i (setAddr s.cfg (new.setWidth 14) t) s
        respondOk { s' with thr_list := sortSlots s' s'.thr_list, rr_cursor := 0 }) s)

/-- The three counters of R18. -/
inductive OpsCounter where
  | read | write | bit
deriving DecidableEq, Repr

/-- `ops_request` on one slot (R380). -/
def opsRequest (c : Config) (k : OpsCounter) (pkt : DccPacket) (wr : Byte) (t : Throttle) : Throttle :=
  let t := { t with pkt_ops := pkt, ops_wr_val := wr, ops_done := false, ops_ok := false, ops_val := 0#8 }
  match k with
  | .read => { t with read_cv_cnt := c.ops_cv_repeat }
  | .write => { t with write_cv_cnt := c.ops_cv_repeat }
  | .bit => { t with write_bit_cnt := c.ops_cv_repeat }

/-- A CV request (R380): refused while an operation is pending. -/
def opsCommand (a cv : BitVec 16) (k : OpsCounter) (pkt : Throttle → DccPacket) (wr : Byte) (s : State) : State :=
  withThrottle a (cvOk cv)
    (fun i t s =>
      if opsPending t then raiseError .refused s else respondOk (setThr i (opsRequest s.cfg k (pkt t) wr t) s)) s

/-- `read_cv` on a throttle (R381): the verify packet with data byte 0. -/
def execThrReadCv (a cv : BitVec 16) (s : State) : Out :=
  .next (opsCommand a cv .read (fun t => opsVerifyPacket t.address (cvField cv) 0#8) 0#8 s)

/-- `write_cv` on a throttle (R382). -/
def execThrWriteCv (a cv : BitVec 16) (val : Byte) (s : State) : Out :=
  .next (opsCommand a cv .write (fun t => opsWritePacket t.address (cvField cv) val) val s)

/-- `write_bit` on a throttle (R383). -/
def execThrWriteBit (a cv : BitVec 16) (val : Bool) (bit : BitVec 3) (s : State) : Out :=
  .next (opsCommand a cv .bit (fun t => opsBitPacket t.address (cvField cv) true val bit)
    ((BitVec.ofBool val).setWidth 8) s)

/-- `ops_done` (R386). -/
def execThrOpsDone (a : BitVec 16) (s : State) : Out :=
  .next (withThrottle a true (fun _ t s => respond (opsDoneResponse t) s) s)

end Sys2Proof.Machine
end

