-- ==== Sys2Proof/Machine/RailCom.lean ====
section
/-! DEFINITION. RailComReader (42_railcom.md): the `UartByte` event, the drain and delivery at the end of a cutout,
the two renderings of a frame, and the meaning of each message form. -/

namespace Sys2Proof.Machine

/-- The `UartByte(b)` step (R243). -/
def uartByte (b : Byte) (s : State) : State := { s with rc := { s.rc with uart_fifo := s.rc.uart_fifo ++ [b] } }

/-- The bytes of a frame: the first 8 of the FIFO (R242). -/
def frameBytes (s : State) : List Byte := s.rc.uart_fifo.take RC_MAX_BYTES

/-- `uart_drain()` (R242) into the frame registers, with nothing parsed yet. -/
def frameStart (s : State) : State :=
  let raw := frameBytes s
  { s with rc := {
      uart_fifo := []
      rc_raw := raw ++ List.replicate (RC_MAX_BYTES - raw.length) 0#8
      rc_cnt := raw.length
      rc_ch1 := none
      rc_ch2 := [] } }

/-- The channel-2 messages go to the throttle of `last_ref`, if it is live (R206, R253). -/
def deliverLast (msgs : List RcMsg) (s : State) : State :=
  match s.bs.last_ref with
  | some r => if live s r then thrDeliver r.slot msgs s else s
  | none => s

/-- The reader's `dump` of the last frame: the text of the raw symbols `rc_raw[0..rc_cnt-1]` (R254), in a line. -/
def dumpFrame (s : State) : Rendering := render Config.lineSize (Config.dumpText (s.rc.rc_raw.take s.rc.rc_cnt))

/-- The reader's `show` of the last frame: the text of `(rc_ch1, rc_ch2)` (R254), in a line. -/
def showFrame (s : State) : Rendering := render Config.lineSize (Config.messageText s.rc.rc_ch1 s.rc.rc_ch2)

/-- The log line of the last frame, with both renderings (R254, R436). -/
def frameLine (s : State) : LogLine :=
  .frame (s.rc.rc_raw.take s.rc.rc_cnt) s.rc.rc_ch1 s.rc.rc_ch2 (dumpFrame s) (showFrame s)

/-- The delivery at the first preamble bit after a cutout (R206); the renderings of the frame go to the log ring under the
RailCom verbosity bit (R254; that the line is always produced is log entry 13). -/
def railcomDeliver (s : State) : State :=
  let p := rcParse s.cfg.railcom_version (frameBytes s)
  let s' := frameStart s
  let s' := deliverLast p.2 { s' with rc := { s'.rc with rc_ch1 := p.1, rc_ch2 := p.2 } }
  logWhen s.trace.trace_railcom (frameLine s') s'

/-- A message that the parser extracts takes its place in the frame registers: AHI or ALO as the first message of the
frame is channel 1 (R250), every other message is the next of channel 2 (R252). -/
def recordMsg (m : RcMsg) (s : State) : State :=
  let first := s.rc.rc_ch1 = none ∧ s.rc.rc_ch2 = []
  match m with
  | .ahi _ | .alo _ =>
    if first then { s with rc := { s.rc with rc_ch1 := some m } }
    else { s with rc := { s.rc with rc_ch2 := s.rc.rc_ch2 ++ [m] } }
  | .ack | .nak | .bsy | .pom _ | .ext _ | .dyn _ _ | .xpom _ _ _ _ _ =>
    { s with rc := { s.rc with rc_ch2 := s.rc.rc_ch2 ++ [m] } }

/-- The effect of one message of a frame: recorded, and delivered as R206 and R387 say. -/
def runMsg (m : RcMsg) (s : State) : State := deliverLast [m] (recordMsg m s)

/-- A symbol that the block's RailCom version does not have is `INV`, and "On any failure, channel 2 is cleared" (R246,
R252). -/
def clearCh2 (s : State) : State := { s with rc := { s.rc with rc_ch2 := [] } }

/-- Raw symbol `F0h`. -/
def execRcAck (s : State) : Out := .next (runMsg .ack s)

/-- Raw symbol `0Fh`: `ACK` in version 2021 only (R119, R246). -/
def execRcAck2021 (s : State) : Out :=
  .next (match s.cfg.railcom_version with
    | .v2021 => runMsg .ack s
    | .v2012 => clearCh2 s)

/-- Raw symbol `3Ch`. -/
def execRcNak (s : State) : Out := .next (runMsg .nak s)

/-- Raw symbol `E1h`: `BSY` in version 2012 only (R119, R246). -/
def execRcBsy (s : State) : Out :=
  .next (match s.cfg.railcom_version with
    | .v2012 => runMsg .bsy s
    | .v2021 => clearCh2 s)

/-- POM completes a pending operations-mode CV operation (R385). -/
def execRcPom (val : Byte) (s : State) : Out := .next (runMsg (.pom val) s)

/-- AHI and ALO are channel 1, kept for observation (R250, R253). -/
def execRcAhi (val : Byte) (s : State) : Out := .next (runMsg (.ahi val) s)
def execRcAlo (val : Byte) (s : State) : Out := .next (runMsg (.alo val) s)

/-- EXT and XPOM change no throttle (R387). -/
def execRcExt (payload : BitVec 14) (s : State) : Out := .next (runMsg (.ext payload) s)
def execRcXpom (ss : BitVec 2) (d0 d1 d2 d3 : Byte) (s : State) : Out := .next (runMsg (.xpom ss d0 d1 d2 d3) s)

/-- DYN with subindex `SPEED1` updates the self-reported speed (R389). -/
def execRcDyn (val : Byte) (subidx : BitVec 6) (s : State) : Out := .next (runMsg (.dyn val subidx) s)

end Sys2Proof.Machine
end

