-- ==== Sys2Proof/Machine/Bitstream.lean ====
section
/-! DEFINITION. Bitstream (41_bitstream.md): the positions, their slots and successors, start and stop. -/

namespace Sys2Proof.Machine

def bitSlot (b : Bool) : SlotKind := if b then .One else .Zero

/-- `slot_of(pos)` (R203), over `slot[cur].pkt`. -/
def slotOf (b : Bitstream) : Pos → SlotKind
  | .preamble r => if r = 0 then .Zero else .One
  | .data i k => bitSlot ((b.curPkt.bytes.getD i 0#8).getLsbD k)
  | .trail i => if i + 1 < b.curPkt.len then .Zero else .One
  | .cutout c => if c = CUTOUT_BITS then .Cutout1 else .CutoutN

/-- `succ(pos)` (R204). -/
def succPos (b : Bitstream) : Pos → Pos
  | .preamble r => if r = 0 then .data 0 7 else .preamble (r - 1)
  | .data i k => if k = 0 then .trail i else .data i (k - 1)
  | .trail i =>
    if i + 1 < b.curPkt.len then .data (i + 1) 7
    else if b.railcom_enabled then .cutout CUTOUT_BITS
    else .preamble b.preamble_bits
  | .cutout c => if c ≤ 1 then .preamble b.preamble_bits else .cutout (c - 1)

/-- `start(P0, tmpl)` (R210). Of the RailCom registers it empties the UART's FIFO only; the table of 60_exceptions.md R430
has the frame registers cleared at a start too, and the model follows R210 and R37 (DESIGN CHOICE, log entry 25). -/
def start (p0 : Nat) (tmpl : DccPacket) (s : State) : State :=
  let b : Bitstream := { s.bs with
    preamble_bits := p0
    railcom_enabled := s.cfg.railcom_enabled
    slotA := { pkt := tmpl, ref := none }
    slotB := { pkt := tmpl, ref := none }
    cur := .A
    last_ref := none
    pos := .preamble (p0 + s.cfg.start_extra_ones)
    from_cutout := false }
  let b := emitSlot .One b
  let b := emitSlot .One { b with pos := succPos b b.pos }
  { uartReset s with bs := { b with bs_run := true } }

def startOps (s : State) : State := start OPS_PREAMBLE_BITS IDLE s
def startSvc (s : State) : State := start SVC_PREAMBLE_BITS RESET s

/-- `stop()` (R211); "no-op if `bs_run = 0`" (44_scheduler.md R323). -/
def stop (s : State) : State :=
  if s.bs.bs_run then
    { s with bs := { s.bs with bs_run := false, dcc_sig := .const false, dcc_pwr := .const false } }
  else s

/-- The advance of R205 steps 3 and 4: `pos <- p'`, then `emit(slot_of(pos))`. -/
def advance (p' : Pos) (fromCutout : Bool) (b : Bitstream) : Bitstream :=
  emitSlot (slotOf b p') { b with pos := p', from_cutout := fromCutout }

/-- The hand-over at the message-stop bit (R209). -/
def handOver (s : State) : State :=
  { s with bs := { s.bs with last_ref := (s.bs.slot s.bs.cur).ref, cur := s.bs.cur.other } }

/-- The slots of a packet from its preamble to its stop bit (30_encoding.md R91, R213): `1^P 0 B(byte0) 0 B(byte1) ... 1`. -/
def byteSlots (x : Byte) : List SlotKind := (List.range 8).map (fun i => bitSlot (x.getLsbD (7 - i)))

def dataSlots : List Byte → List SlotKind
  | [] => []
  | [x] => byteSlots x ++ [.One]
  | x :: y :: t => byteSlots x ++ [.Zero] ++ dataSlots (y :: t)

/-- The cutout of R93. -/
def cutoutSlots (railcom : Bool) : List SlotKind := if railcom then [.Cutout1, .CutoutN, .CutoutN, .CutoutN] else []

def frameSlots (preamble : Nat) (railcom : Bool) (p : DccPacket) : List SlotKind :=
  List.replicate preamble .One ++ [.Zero] ++ dataSlots p.bytes ++ cutoutSlots railcom

end Sys2Proof.Machine
end

