-- ==== Sys2Proof/Machine/Sensor.lean ====
section
/-! DEFINITION. CurrentSensor (43_current_sensor.md): the `AdcSample` event and the drain that every `BitEnd` begins with. -/

namespace Sys2Proof.Machine

/-- The error flag of the newest entry is set (R281). -/
def flagNewest (l : List (BitVec 12 × Bool)) : List (BitVec 12 × Bool) :=
  match l.getLast? with
  | none => []
  | some e => l.dropLast ++ [(e.1, true)]

/-- The `AdcSample(raw, err)` step (R281); a stopped ADC pushes nothing (log entry 3). -/
def adcSample (raw : BitVec 12) (err : Bool) (s : State) : State :=
  if s.cs.adc_run then
    if s.cs.adc_fifo.length < s.cfg.adc_fifo_depth then
      { s with cs := { s.cs with adc_fifo := s.cs.adc_fifo ++ [(raw, err)] } }
    else { s with cs := { s.cs with adc_fifo := flagNewest s.cs.adc_fifo } }
  else s

/-- `ring_write(raw)` (R284). -/
def ringWrite (n : Nat) (raw : BitVec 12) (c : Sensor) : Sensor :=
  { c with cs_ring := c.cs_ring.set c.cs_head raw, cs_head := (c.cs_head + 1) % n }

/-- What an active capture log takes of a sample is a free value; an inactive one takes nothing (R38, R292). -/
def capture (raw : BitVec 12) (s : State) : State :=
  if s.cfg.caplog_active then
    { s with cs := { s.cs with cap_log := Config.freeCapture s.draws s.cs.cap_log raw }, draws := s.draws + 1 }
  else s

/-- One entry of the FIFO (R283): counted if flagged, written to the ring, compared. -/
def drainOne (s : State) (e : BitVec 12 × Bool) : State :=
  let cs := if e.2 then { s.cs with adc_err_cnt := s.cs.adc_err_cnt + 1 } else s.cs
  ackCheck (capture e.1 { s with cs := ringWrite s.cfg.long_avg_n e.1 cs })

/-- `adc_drain()` (R283), oldest first. -/
def adcDrain (s : State) : State :=
  let s' := s.cs.adc_fifo.foldl drainOne s
  { s' with cs := { s'.cs with adc_fifo := [] } }

end Sys2Proof.Machine
end

