-- ==== Sys2Proof/Machine/Scheduler.lean ====
section
/-! DEFINITION. Scheduler (44_scheduler.md): the pull, the service-mode sequencer, the mode commands, the service CV
commands, throttle management and verbosity. -/

namespace Sys2Proof.Machine

/-! ### The end of an operation -/

/-- `mode_off_effects()` (R323). -/
def modeOffEffects (s : State) : State :=
  let s := adcStop (stop s)
  { s with
    svc := { s.svc with svc_op := .None, svc_phase := .Reset1, svc_cnt := 0, svc_step := 0, ack_armed := false,
                        ack_seen := false }
    mode := .Off }

/-- `terminal(st, val)` (R320). -/
def terminal (st : SvcStatus) (val : Byte) (s : State) : State :=
  modeOffEffects { s with svc := { s.svc with svc_status := st, svc_result := val } }

/-- `arm()` (R318, R289). -/
def arm (s : State) : State :=
  { s with svc := { s.svc with ack_threshold_mA := longAvgMA s + ACK_MARGIN_MA, ack_seen := false, ack_armed := true } }

/-- `next_block()` (R319). -/
def nextBlock (s : State) : State :=
  let s := arm s
  { s with svc := { s.svc with svc_phase := .Command, svc_cnt := SVC_COMMAND_CNT } }

def outcomeOf (ack : Bool) : SvcStatus := if ack then .Success else .Error

/-- `block_end()` (R319): whether the operation is over, and the state. With no operation there is no block to end (R45
clause 3); the case ends as an operation without ack does (log entry 10). -/
def blockEnd (s : State) : Bool × State :=
  let v := s.svc
  match v.svc_op with
  | .WriteByte | .WriteBit | .None => (true, terminal (outcomeOf v.ack_seen) 0#8 s)
  | .ReadByte =>
    if v.svc_step ≤ 7 then
      let val := if v.ack_seen then v.svc_val ||| (1#8 <<< v.svc_step) else v.svc_val
      (false, nextBlock { s with svc := { v with
        svc_val := val, svc_step := if 0 < v.svc_step then v.svc_step - 1 else 8 } })
    else (true, terminal (outcomeOf v.ack_seen) v.svc_val s)
  | .ReadBit =>
    if v.svc_step = 0 then
      if v.ack_seen then (true, terminal .Success 0#8 { s with svc := { v with svc_val := 0#8 } })
      else (false, nextBlock { s with svc := { v with svc_step := 1 } })
    else if v.ack_seen then (true, terminal .Success 1#8 { s with svc := { v with svc_val := 1#8 } })
    else (true, terminal .Error 0#8 s)

/-! ### The pull -/

/-- `svc_cmd_packet()` (R316). -/
def svcCmdPacket (v : Service) : DccPacket :=
  match v.svc_op with
  | .WriteByte => svcWritePacket v.svc_cv v.svc_val
  | .WriteBit => svcBitPacket v.svc_cv true v.svc_bit_val v.svc_bit_num
  | .ReadByte =>
    if v.svc_step ≤ 7 then svcBitPacket v.svc_cv false true (BitVec.ofNat 3 v.svc_step)
    else svcVerifyPacket v.svc_cv v.svc_val
  | .ReadBit => svcBitPacket v.svc_cv false (v.svc_step != 0) v.svc_bit_num
  | .None => RESET

/-- `pull_svc()` part (b) (R315, R321): an ack cuts the Command phase short. -/
def fastForward (s : State) : State :=
  if s.svc.svc_phase = .Command ∧ s.svc.ack_seen ∧ ¬ s.cfg.caplog_active then
    { s with svc := { s.svc with svc_phase := .Reset2, svc_cnt := SVC_RESET2_CNT } }
  else s

/-- `pull_svc()` part (c) (R315): one packet of the current phase. -/
def handOut (s : State) : DccPacket × State :=
  let s' : State := { s with svc := { s.svc with svc_cnt := s.svc.svc_cnt - 1 } }
  match s.svc.svc_phase with
  | .Reset1 =>
    (RESET, if s'.svc.svc_cnt = 0 then
        let a := arm s'
        { a with svc := { a.svc with svc_phase := .Command, svc_cnt := SVC_COMMAND_CNT } }
      else s')
  | .Command =>
    (svcCmdPacket s.svc, if s'.svc.svc_cnt = 0 then
        { s' with svc := { s'.svc with svc_phase := .Reset2, svc_cnt := SVC_RESET2_CNT } }
      else s')
  | .Reset2 => (RESET, s')

/-- `pull_svc()` (R315). -/
def pullSvc (s : State) : TrackPacket × State :=
  let (ended, s1) := if s.svc.svc_phase = .Reset2 ∧ s.svc.svc_cnt = 0 then blockEnd s else (false, s)
  if ended then ({ pkt := RESET, ref := none }, s1)
  else
    let (p, s2) := handOut (fastForward s1)
    ({ pkt := p, ref := none }, s2)

/-- `pull_ops()` (R313): the throttle at the cursor is served, then the cursor moves. -/
def pullOps (s : State) : TrackPacket × State :=
  if s.thr_list.length = 0 then ({ pkt := IDLE, ref := none }, s)
  else
    let i := s.thr_list.getD s.rr_cursor 0
    let (p, t) := nextPacket s.cfg (thrAt s i)
    ({ pkt := p, ref := some { slot := i, gen := (thrAt s i).gen } },
     setThr i t { s with rr_cursor := (s.rr_cursor + 1) % s.thr_list.length })

/-- `pull_packet()` (R311): total. -/
def pullPacket (s : State) : TrackPacket × State :=
  match s.mode with
  | .Ops => pullOps s
  | .Service => pullSvc s
  | .Off => ({ pkt := IDLE, ref := none }, s)

/-- The pull of the bit engine (41_bitstream.md R207), with the trace line of a traced packet: the packet and its
decoding in the context of the mode (R436; DESIGN CHOICE, log entry 13). -/
def pullNext (s : State) : State :=
  let r := pullPacket s
  let s' := { r.2 with bs := r.2.bs.setSlot s.bs.cur.other r.1 }
  logWhen s.trace.trace_dcc (.packet r.1.pkt (codecReport s.cfg (s.mode == .Service) r.1.pkt)) s'

/-! ### Mode commands (R323 to R325) -/

/-- `set_mode_off` (R323). -/
def execSetModeOff (s : State) : Out :=
  .next (respondOk (modeOffEffects (match s.mode with
    | .Service => { s with svc := { s.svc with svc_status := .Error, svc_result := 0#8 } }
    | .Off | .Ops => s)))

/-- `set_mode_ops` (R324). -/
def execSetModeOps (s : State) : Out :=
  .next (match s.mode with
    | .Ops => respondOk s
    | .Service => raiseError .refused s
    | .Off => respondOk { startOps (adcStart (restartEffects s)) with mode := .Ops })

/-! ### Service CV commands (R326 to R330) -/

/-- `svc_begin` (R330). -/
def svcBegin (op : SvcOp) (cv : BitVec 16) (bit : BitVec 3) (bitVal : Bool) (val : Byte) (step : Nat) (s : State) : State :=
  let s := if s.mode = .Ops then modeOffEffects s else s
  let s : State := { s with svc := { s.svc with
    svc_op := op, svc_cv := cvField cv, svc_bit_num := bit, svc_bit_val := bitVal, svc_val := val, svc_step := step,
    svc_phase := .Reset1, svc_cnt := SVC_RESET1_CNT, ack_armed := false, ack_seen := false, svc_status := .Busy,
    svc_result := 0#8 } }
  { startSvc (adcStart s) with mode := .Service }

/-- The checks of a service command, in the order of R423: operand ranges, then the mode (R325). -/
def svcCommand (argsOk : Bool) (f : State → State) (s : State) : State :=
  if argsOk then
    match s.mode with
    | .Service => raiseError .refused s
    | .Off | .Ops => respondOk (f s)
  else raiseError .arg s

/-- Service `write_cv` (R326). -/
def execWriteCv (cv : BitVec 16) (val : Byte) (s : State) : Out :=
  .next (svcCommand (cvOk cv) (svcBegin .WriteByte cv 0#3 false val 0) s)

/-- Service `write_bit` (R327). -/
def execWriteBit (cv bit : BitVec 16) (val : Byte) (s : State) : Out :=
  .next (svcCommand (cvOk cv && bit.toNat ≤ 7 && val.toNat ≤ 1)
    (svcBegin .WriteBit cv (bit.setWidth 3) (val.getLsbD 0) 0#8 0) s)

/-- Service `read_cv` (R328): the first block verifies bit 7. -/
def execReadCv (cv : BitVec 16) (s : State) : Out :=
  .next (svcCommand (cvOk cv) (svcBegin .ReadByte cv 0#3 false 0#8 7) s)

/-- Service `read_bit` (R329). -/
def execReadBit (cv bit : BitVec 16) (s : State) : Out :=
  .next (svcCommand (cvOk cv && bit.toNat ≤ 7) (svcBegin .ReadBit cv (bit.setWidth 3) false 0#8 0) s)

/-- `svc_done` (R333): a pure read. -/
def execSvcDone (s : State) : Out := .next (respond (svcDoneResponse s.svc) s)

/-! ### Throttle management (R340 to R343) -/

/-- `create_throttle` (R340): an address in use answers its slot with `ok = 1`, and no second throttle is made. This rule
carries decision D30 (92_eei_decisions.md), whose "refused" is read as the rule has it (DEDUCED, log entry 26). -/
def execCreateThrottle (a : BitVec 16) (s : State) : Out :=
  .next (
    if addrOk a then
      let a' : BitVec 14 := a.setWidth 14
      match findSlot s a' with
      | some i => respondVal i s
      | none =>
        if s.thr_list.length = s.cfg.max_throttles then raiseError .refused s
        else
          match freeSlot s with
          | none => raiseError .refused s
          | some i =>
            let s' := { setThr i (newThrottle s.cfg a' (thrAt s i) s.draws) s with draws := s.draws + 1 }
            respondVal i (restartEffects { s' with thr_list := insertSlot s' i s'.thr_list })
    else raiseError .arg s)

/-- `delete_throttle` (R341). -/
def execDeleteThrottle (a : BitVec 16) (s : State) : Out :=
  .next (withThrottle a true (fun i t s =>
    respondOk { setThr i { t with valid := false, gen := t.gen + 1 } s with
      thr_list := s.thr_list.filter (· != i), rr_cursor := 0 }) s)

/-- `restart_throttles` (R342). -/
def execRestartThrottles (s : State) : Out := .next (respondOk (restartEffects s))

/-- `find_throttle` (R343). -/
def execFindThrottle (a : BitVec 16) (s : State) : Out :=
  .next (withThrottle a true (fun i _ s => respondVal i s) s)

/-! ### Verbosity (R345) -/

def setVerbosity (which : BitVec 16) (on : Bool) (t : Trace) : Option Trace :=
  if which = 0#16 then some { t with trace_dcc := on }
  else if which = 1#16 then some { t with trace_railcom := on }
  else if which = 2#16 then some { t with trace_speed := on }
  else if which = 3#16 then some { t with cmd_echo := on }
  else none

/-- `set_verbosity` (R345). -/
def execSetVerbosity (which : BitVec 16) (on : Bool) (s : State) : Out :=
  .next (match setVerbosity which on s.trace with
    | some t => respondOk { s with trace := t }
    | none => raiseError .arg s)

end Sys2Proof.Machine
end

