-- ==== Sys2Proof/Machine/Dispatch.lean ====
section
/-! DEFINITION. One arm per instruction. -/

namespace Sys2Proof.Machine

def exec (i : Instr) (s : State) : Host.Outcome State Fault Refusal :=
  match i with
  | .reset => Sys2Proof.Machine.execReset s
  | .idle => Sys2Proof.Machine.execIdle s
  | .speed128S a d m x => Sys2Proof.Machine.execSpeed128S a d m x s
  | .speed128L a d m x => Sys2Proof.Machine.execSpeed128L a d m x s
  | .funcF0S a f0 f x => Sys2Proof.Machine.execFuncF0S a f0 f x s
  | .funcF0L a f0 f x => Sys2Proof.Machine.execFuncF0L a f0 f x s
  | .funcF5S a f x => Sys2Proof.Machine.execFuncF5S a f x s
  | .funcF5L a f x => Sys2Proof.Machine.execFuncF5L a f x s
  | .funcF9S a f x => Sys2Proof.Machine.execFuncF9S a f x s
  | .funcF9L a f x => Sys2Proof.Machine.execFuncF9L a f x s
  | .funcF13S a f x => Sys2Proof.Machine.execFuncF13S a f x s
  | .funcF13L a f x => Sys2Proof.Machine.execFuncF13L a f x s
  | .funcF21S a f x => Sys2Proof.Machine.execFuncF21S a f x s
  | .funcF21L a f x => Sys2Proof.Machine.execFuncF21L a f x s
  | .funcF29S a f x => Sys2Proof.Machine.execFuncF29S a f x s
  | .funcF29L a f x => Sys2Proof.Machine.execFuncF29L a f x s
  | .funcF37S a f x => Sys2Proof.Machine.execFuncF37S a f x s
  | .funcF37L a f x => Sys2Proof.Machine.execFuncF37L a f x s
  | .funcF45S a f x => Sys2Proof.Machine.execFuncF45S a f x s
  | .funcF45L a f x => Sys2Proof.Machine.execFuncF45L a f x s
  | .funcF53S a f x => Sys2Proof.Machine.execFuncF53S a f x s
  | .funcF53L a f x => Sys2Proof.Machine.execFuncF53L a f x s
  | .funcF61S a f x => Sys2Proof.Machine.execFuncF61S a f x s
  | .funcF61L a f x => Sys2Proof.Machine.execFuncF61L a f x s
  | .opsCvVerifyS a v d x => Sys2Proof.Machine.execOpsCvVerifyS a v d x s
  | .opsCvVerifyL a v d x => Sys2Proof.Machine.execOpsCvVerifyL a v d x s
  | .opsCvWriteS a v d x => Sys2Proof.Machine.execOpsCvWriteS a v d x s
  | .opsCvWriteL a v d x => Sys2Proof.Machine.execOpsCvWriteL a v d x s
  | .opsCvBitS a v k d b x => Sys2Proof.Machine.execOpsCvBitS a v k d b x s
  | .opsCvBitL a v k d b x => Sys2Proof.Machine.execOpsCvBitL a v k d b x s
  | .svcVerifyByte v d x => Sys2Proof.Machine.execSvcVerifyByte v d x s
  | .svcWriteByte v d x => Sys2Proof.Machine.execSvcWriteByte v d x s
  | .svcBit v k d b x => Sys2Proof.Machine.execSvcBit v k d b x s
  | .accessory r rest => Sys2Proof.Machine.execAccessory r rest s
  | .reservedE8EF r rest => Sys2Proof.Machine.execReservedE8EF r rest s
  | .reservedF0FE r rest => Sys2Proof.Machine.execReservedF0FE r rest s
  | .unclassified00 rest => Sys2Proof.Machine.execUnclassified00 rest s
  | .unclassifiedFF rest => Sys2Proof.Machine.execUnclassifiedFF rest s
  | .rcAck => Sys2Proof.Machine.execRcAck s
  | .rcAck2021 => Sys2Proof.Machine.execRcAck2021 s
  | .rcNak => Sys2Proof.Machine.execRcNak s
  | .rcBsy => Sys2Proof.Machine.execRcBsy s
  | .rcPom val => Sys2Proof.Machine.execRcPom val s
  | .rcAhi val => Sys2Proof.Machine.execRcAhi val s
  | .rcAlo val => Sys2Proof.Machine.execRcAlo val s
  | .rcExt payload => Sys2Proof.Machine.execRcExt payload s
  | .rcDyn val subidx => Sys2Proof.Machine.execRcDyn val subidx s
  | .rcXpom ss d0 d1 d2 d3 => Sys2Proof.Machine.execRcXpom ss d0 d1 d2 d3 s
  | .setModeOff => Sys2Proof.Machine.execSetModeOff s
  | .setModeOps => Sys2Proof.Machine.execSetModeOps s
  | .writeCv cv val => Sys2Proof.Machine.execWriteCv cv val s
  | .writeBit cv bit val => Sys2Proof.Machine.execWriteBit cv bit val s
  | .readCv cv => Sys2Proof.Machine.execReadCv cv s
  | .readBit cv bit => Sys2Proof.Machine.execReadBit cv bit s
  | .svcDone => Sys2Proof.Machine.execSvcDone s
  | .createThrottle a => Sys2Proof.Machine.execCreateThrottle a s
  | .deleteThrottle a => Sys2Proof.Machine.execDeleteThrottle a s
  | .findThrottle a => Sys2Proof.Machine.execFindThrottle a s
  | .restartThrottles => Sys2Proof.Machine.execRestartThrottles s
  | .thrSetSpeed a speed => Sys2Proof.Machine.execThrSetSpeed a speed s
  | .thrSetFunction a n on => Sys2Proof.Machine.execThrSetFunction a n on s
  | .thrSetAddress a new => Sys2Proof.Machine.execThrSetAddress a new s
  | .thrReadCv a cv => Sys2Proof.Machine.execThrReadCv a cv s
  | .thrWriteCv a cv val => Sys2Proof.Machine.execThrWriteCv a cv val s
  | .thrWriteBit a cv val bit => Sys2Proof.Machine.execThrWriteBit a cv val bit s
  | .thrOpsDone a => Sys2Proof.Machine.execThrOpsDone a s
  | .setVerbosity which on => Sys2Proof.Machine.execSetVerbosity which on s

end Sys2Proof.Machine
end

