-- ==== Sys2Proof/Machine/Interrupt.lean ====
section
/-! DEFINITION. The bit-end interrupt (60_exceptions.md R421 to R425): one atomic step, the whole of 41_bitstream.md R205.
Taking it saves nothing and returning restores nothing (R424, R425). -/

namespace Sys2Proof.Machine

/-- The first preamble bit after a cutout (R206). -/
def atFrameEnd (b : Bitstream) : Bool := b.pos == .preamble b.preamble_bits && b.from_cutout && b.railcom_enabled

/-- The message-stop bit of the packet on the wire. -/
def atStopBit (b : Bitstream) : Bool :=
  match b.pos with
  | .trail i => b.curPkt.len ≤ i + 1
  | .preamble _ | .data _ _ | .cutout _ => false

/-- `effects(pos)` (R205 step 2, R206 to R209): at most one applies. -/
def effects (s : State) : State :=
  if s.bs.pos = .cutout CUTOUT_BITS then uartReset s
  else if atFrameEnd s.bs then railcomDeliver s
  else if s.bs.pos = .preamble 1 then pullNext s
  else if atStopBit s.bs then handOver s
  else s

/-- Steps 3 and 4 of R205, skipped when the pull has stopped the bit engine (R207). The successor is taken on the state
before the effects, the slot on the state after them. -/
def advanceFrom (before : Bitstream) (s : State) : State :=
  if s.bs.bs_run then
    { s with bs := advance (succPos before before.pos) (before.pos == .cutout 1) s.bs }
  else s

/-- The `BitEnd` step (R205). A wrap while the interrupt is disabled is no `BitEnd` event (R421): nothing happens
(log entry 3). -/
def bitEnd (s : State) : State :=
  if s.bs.bs_run then
    let s1 := adcDrain s
    drawLatency (advanceFrom s1.bs (effects s1))
  else s

/-- `Tick` (10_state.md R46). -/
def tick (s : State) : State := { s with now := s.now + 1 }

/-- The context bit a command is echoed under, and the refusal of an unknown `op` (R132, R417). -/
def echo (w : BitVec 48) (s : State) : State := logWhen s.trace.cmd_echo (.command w) s

/-- A packet that is no instruction of the table has a class all the same (R165). -/
def classifyOnly (svc : Bool) (bytes : List Byte) (s : State) : State :=
  codecAnswer (codecReport s.cfg svc { bytes := bytes }) s

/-- The body of a step: what the next event does. -/
def runEvent (exec : Instr → State → Out) (e : Event) (s : State) : Out :=
  match e with
  | .cmd w =>
    match decode s.cfg (.command w) with
    | .ok i => exec i (echo w s)
    | .error _ => .next (raiseError .refused (echo w s))
  | .bitEnd => .next (bitEnd s)
  | .adcSample raw err => .next (adcSample raw err s)
  | .uartByte b => .next (uartByte b s)
  | .tick => .next (tick s)
  | .codec svc bytes =>
    match decode s.cfg (.packet svc bytes) with
    | .ok i => exec i s
    | .error _ => .next (classifyOnly svc bytes s)

/-- Put an instruction's word where the next step fetches it: a command word and a packet as the next event; a RailCom
frame in the UART's FIFO, at the first preamble bit after a cutout, with the bit engine running and a `BitEnd` next (log
entry 2). -/
def placeWord (v : RailcomVersion) (w : InstrWord) (s : State) : State :=
  match w with
  | .command w => { s with inputs := .cmd w :: s.inputs }
  | .packet svc bytes => { s with inputs := .codec svc bytes :: s.inputs }
  | .frame raw =>
    { s with
      cfg := { s.cfg with railcom_version := v }
      rc := { s.rc with uart_fifo := raw }
      bs := { s.bs with bs_run := true, railcom_enabled := true, from_cutout := true, pos := .preamble s.bs.preamble_bits }
      inputs := .bitEnd :: s.inputs }

/-- The word of the row's bits that the decoder reads, put there. -/
def placeTableWord (nbits w : Nat) (s : State) : State :=
  match firstDecoded s.cfg (tableWords nbits w) with
  | some (v, iw, _) => placeWord v iw s
  | none => placeWord .v2021 (.packet false (bytesOfNat (nbits / 8) w)) s

end Sys2Proof.Machine
end

