-- ==== Sys2Proof/Machine/Step.lean ====
section
/-! DEFINITION. One step of the block: the next event of the agents, atomically (00_scope.md R2, 20_memory.md R74). -/

namespace Sys2Proof.Machine

/-- The first event of the list is taken and its step made. With no event left the block does nothing (R452). -/
def step (s : State) : Host.Outcome State Fault Refusal :=
  match s.inputs with
  | [] => .next s
  | e :: rest => runEvent exec e { s with inputs := rest }

/-- The state with a row's word where the next step fetches it. -/
def State.withFetchWord (s : State) (nbits w : Nat) : State := placeTableWord nbits w s

end Sys2Proof.Machine
end

