-- ==== Sys2Proof/Safety.lean ====
section
/-! DEFINITION. What holds in every state of a run: the global invariants of 10_state.md R45 with the ranges the register
tables of that file give. `Invariant` is stated over one state; claims say that reset meets it and that every step keeps it. -/

namespace Sys2Proof.Machine

/-- A packet that may stand in a slot (R45 clause 2, R10). -/
structure DccPacket.Ok (p : DccPacket) : Prop where
  lower : 3 ≤ p.len
  upper : p.len ≤ PKT_MAX_LEN
  checksum : xorBytes p.bytes = 0#8

/-- A reference names a slot of the table and a generation that slot has had (R11, R341). -/
def RefOk (s : State) (r : ThrottleRef) : Prop :=
  ∀ x, r = some x → x.slot < s.thr.length ∧ x.gen ≤ (thrAt s x.slot).gen

/-- The positions a running bit engine can have (R21). -/
def PosOk (b : Bitstream) (extra : Nat) : Pos → Prop
  | .preamble r => r ≤ b.preamble_bits + extra
  | .data i k => i < b.curPkt.len ∧ k ≤ 7
  | .trail i => i < b.curPkt.len
  | .cutout c => 1 ≤ c ∧ c ≤ CUTOUT_BITS ∧ b.railcom_enabled = true

/-- The blocks an operation has (R23). -/
def StepOk : SvcOp → Nat → Prop
  | .None, n | .WriteByte, n | .WriteBit, n => n = 0
  | .ReadByte, n => n ≤ 8
  | .ReadBit, n => n ≤ 1

/-- The count of packets still to hand out in a phase (R23): never 0 in the phases that end at 0. -/
def CountOk : SvcPhase → Nat → Prop
  | .Reset1, n => 1 ≤ n ∧ n ≤ SVC_RESET1_CNT
  | .Command, n => 1 ≤ n ∧ n ≤ SVC_COMMAND_CNT
  | .Reset2, n => n ≤ SVC_RESET2_CNT

/-- The service sequencer (R45 clause 3, R23, R26, R291); outside Service it rests as R323 and R451 leave it. -/
structure ServiceOk (s : State) : Prop where
  op : s.mode = .Service ↔ s.svc.svc_op ≠ .None
  busy : s.mode = .Service ↔ s.svc.svc_status = .Busy
  count : s.mode = .Service → CountOk s.svc.svc_phase s.svc.svc_cnt
  step : StepOk s.svc.svc_op s.svc.svc_step
  armed : s.svc.ack_armed = true ↔ s.mode = .Service ∧ s.svc.svc_phase ≠ .Reset1
  seen : s.svc.ack_seen = true → s.svc.ack_armed = true
  idle : s.mode ≠ .Service → s.svc.svc_phase = .Reset1 ∧ s.svc.svc_cnt = 0

/-- The throttle list (R45 clause 4, R20, R22). -/
structure ListOk (s : State) : Prop where
  sorted : s.thr_list.Pairwise (fun i j => addrOf s i < addrOf s j)
  holds : ∀ i, i ∈ s.thr_list ↔ i < s.thr.length ∧ (thrAt s i).valid = true
  cursor : s.rr_cursor < max s.thr_list.length 1

/-- One valid throttle (R45 clauses 5 and 6, R16 to R18, R24). -/
structure ThrottleOk (c : Config) (t : Throttle) : Prop where
  address : ADDR_MIN ≤ t.address.toNat ∧ t.address.toNat ≤ ADDR_MAX
  speed : -127 ≤ t.speed ∧ t.speed ≤ 127
  functions : ∀ n, fmax c.func_cap < n → t.functions.getLsbD n = false
  cachedSpeed : t.pkt_speed = speedPacket t.address t.speed
  cachedFunc : t.pkt_func = funcPackets c t.address t.functions
  seq : t.seq < seqMax c.func_cap
  onePending : (t.read_cv_cnt = 0 ∧ t.write_cv_cnt = 0) ∨ (t.read_cv_cnt = 0 ∧ t.write_bit_cnt = 0) ∨
    (t.write_cv_cnt = 0 ∧ t.write_bit_cnt = 0)
  repeats : t.read_cv_cnt ≤ c.ops_cv_repeat ∧ t.write_cv_cnt ≤ c.ops_cv_repeat ∧ t.write_bit_cnt ≤ c.ops_cv_repeat
  opsPacket : opsPending t = true → t.pkt_ops.Ok

/-- The sizes of the register files (R16, R35, R37, R41). -/
structure SizesOk (s : State) : Prop where
  thr : s.thr.length = s.cfg.max_throttles
  ring : s.cs.cs_ring.length = s.cfg.long_avg_n
  head : s.cs.cs_head < s.cfg.long_avg_n
  fifo : s.cs.adc_fifo.length ≤ s.cfg.adc_fifo_depth
  raw : s.rc.rc_raw.length = RC_MAX_BYTES
  count : s.rc.rc_cnt ≤ RC_MAX_BYTES

/-- The bit engine's registers (R14, R15, R21, R30, R206). -/
structure BitEngineOk (s : State) : Prop where
  slotA : s.bs.slotA.pkt.Ok
  slotB : s.bs.slotB.pkt.Ok
  refA : RefOk s s.bs.slotA.ref
  refB : RefOk s s.bs.slotB.ref
  refLast : RefOk s s.bs.last_ref
  preambleOps : s.mode = .Ops → s.bs.preamble_bits = OPS_PREAMBLE_BITS
  preambleSvc : s.mode = .Service → s.bs.preamble_bits = SVC_PREAMBLE_BITS
  railcom : s.bs.railcom_enabled = s.cfg.railcom_enabled
  pos : s.bs.bs_run = true → PosOk s.bs s.cfg.start_extra_ones s.bs.pos
  fromCutout : s.bs.from_cutout = true → s.bs.pos = .preamble s.bs.preamble_bits

/-- The invariant: R45 whole (clause 1 is `run` and `adc`), the ranges of the registers, and an empty sample FIFO while the
ADC is stopped (R282, R323). -/
structure Invariant (s : State) : Prop where
  cfg : s.cfg.wf = true
  run : s.mode = .Off ↔ s.bs.bs_run = false
  adc : s.cs.adc_run = s.bs.bs_run
  adcFifo : s.mode = .Off → s.cs.adc_fifo = []
  engine : BitEngineOk s
  service : ServiceOk s
  list : ListOk s
  throttles : ∀ t ∈ s.thr, t.valid = true → ThrottleOk s.cfg t
  sizes : SizesOk s

/-! ### Words the claims use -/

/-- `ok = 1` with no value, and `ok = 0` (R130: "fields a command does not define are 0"). -/
def accepted : Response := { ok := true, isDone := false, val := 0#16 }
def rejected : Response := { ok := false, isDone := false, val := 0#16 }

/-- The codec's answer for a packet it must treat "as if absent" (R413). -/
def absent : CodecOut := { cls := .Invalid, fields := .none, built := none }

/-- The answer for a packet whose checksum is good, and for one whose checksum is not (R165). -/
def answer (bytes : List Byte) (k : DccClass) (f : DccFields) (b : Option DccPacket) : CodecOut :=
  if xorBytes bytes = 0#8 then { cls := k, fields := f, built := b } else absent

/-- The results of `n` pulls in a row with no event between, and the state after them. -/
def pulls : Nat → State → List DccPacket × State
  | 0, s => ([], s)
  | n + 1, s => ((pullPacket s).1.pkt :: (pulls n (pullPacket s).2).1, (pulls n (pullPacket s).2).2)

/-- `n` bit-end interrupts in a row with no event between. -/
def bitEnds : Nat → State → State
  | 0, s => s
  | n + 1, s => bitEnds n (bitEnd s)

end Sys2Proof.Machine
end

