-- ==== Sys2Proof/Certificates/Slice0/Obligations.lean ====
section
/-! DEFINITION. The statements about the machine. Each says which rule of spec/ it formalises. An equation
`exec i s = .next { s with … }` is the instruction's completion, its effect and its frame at once: every register that the
update does not name keeps its value. -/

section

open Sys2Proof Sys2Proof.Machine

/-! ### Encodings -/

/-- Words written out from the spec's encodings (R99 to R103, R110, R120, R131) decode to what they stand for. -/
def Obligations.HandEncodedWordsDecode : Prop :=
  decode Config.standard (.packet false [0x03#8, 0x3F#8, 0x88#8, 0xB4#8]) = .ok (.speed128S 3#7 true 8#7 0xB4#8) ∧
  decode Config.standard (.packet false [0xC3#8, 0xE8#8, 0x9F#8, 0xB4#8]) = .ok (.funcF0L 1000#14 true 15#4 0xB4#8) ∧
  decode Config.standard (.packet false [0x03#8, 0xDE#8, 0x81#8, 0x5C#8]) = .ok (.funcF13S 3#7 0x81#8 0x5C#8) ∧
  decode Config.standard (.packet false [0x03#8, 0xE8#8, 0x1C#8, 0xFD#8, 0x0A#8]) =
    .ok (.opsCvBitS 3#7 28#10 true true 5#3 0x0A#8) ∧
  decode Config.standard (.packet true [0x7C#8, 0x00#8, 0x03#8, 0x7F#8]) = .ok (.svcWriteByte 0#10 3#8 0x7F#8) ∧
  decode Config.standard (.frame [0xAC#8, 0xC9#8]) = .ok (.rcPom 0x2A#8) ∧
  decode Config.standard (.frame [0x5A#8, 0x93#8, 0xAC#8]) = .ok (.rcDyn 0x0A#8 0#6) ∧
  decode Config.standard (.command 0x300003000800#48) = .ok (.thrSetSpeed 3#16 8#8) ∧
  decode Config.standard (.command 0x350003001C0D#48) = .ok (.thrWriteBit 3#16 28#16 true 5#3)

/-- Decoding the word of any well-formed instruction gives the instruction back, with every operand at every value its
encoding admits (R95 to R131). -/
def Obligations.DecodeInvertsEncode : Prop :=
  ∀ (c : Config) (i : Instr), c.wf = true → i.wf c = true → decode c (encode c i) = .ok i

/-- The other direction for packets: a decoded packet is well-formed, and its fields are all of its bytes. -/
def Obligations.PacketDecodeKeepsEveryBit : Prop :=
  ∀ (c : Config) (svc : Bool) (bytes : List Byte) (i : Instr),
    decode c (.packet svc bytes) = .ok i → wordBytes (encode c i) = bytes ∧ i.wf c = true

/-! ### Steps -/

/-- A command event whose word decodes to `i` runs `i`; the word is echoed to the log first when `cmd_echo` is set (R2,
R130, R436; the echo's place is the model's choice, log entry 13). -/
def Obligations.StepRunsTheNextCommand : Prop :=
  ∀ (s : State) (w : BitVec 48) (rest : List Event) (i : Instr),
    s.inputs = .cmd w :: rest → decode s.cfg (.command w) = .ok i →
      (s.trace.cmd_echo = false → step s = exec i { s with inputs := rest }) ∧
      (s.trace.cmd_echo = true → step s = exec i (logLine (.command w) { s with inputs := rest }))

/-- A codec event: the step runs the instruction the packet decodes to, and for every byte string, an instruction or not,
the answer is that of R165 to R168 clause by clause. -/
def Obligations.StepAnswersAsTheDecoder : Prop :=
  ∀ (s : State) (svc : Bool) (bytes : List Byte) (rest : List Event),
    s.cfg.wf = true → s.inputs = .codec svc bytes :: rest →
      step s = .next { s with inputs := rest, codec := codecReport s.cfg svc { bytes := bytes } } ∧
      (∀ i, decode s.cfg (.packet svc bytes) = .ok i → step s = exec i { s with inputs := rest })

/-- The bit-end step at the first preamble bit after a cutout runs the message that the frame is (R206): the step is `exec`
of the message between the drain of the FIFOs and the advance to the next bit. A traced frame goes to the log with its two
renderings (R254). The effect of one message, which the spec gives per frame, is log entry 22's, and that a traced frame's
line is always produced, at the delivery, is log entry 13's; that its two texts are cut to one log line (`Config.lineSize`,
where R254 names no buffer) is log entry 23's (all three the model's choice). -/
def Obligations.StepRunsTheRailcomMessage : Prop :=
  ∀ (s : State) (rest : List Event) (i : Instr),
    s.inputs = .bitEnd :: rest → s.bs.bs_run = true → s.bs.railcom_enabled = true → s.bs.from_cutout = true →
    s.bs.pos = .preamble s.bs.preamble_bits → decode s.cfg (.frame (frameBytes s)) = .ok i →
      ∃ t, exec i (frameStart (adcDrain { s with inputs := rest })) = .next t ∧
        step s = .next (drawLatency (advanceFrom s.bs
          (logWhen s.trace.trace_railcom (.frame (frameBytes s) t.rc.rc_ch1 t.rc.rc_ch2
            (render Config.lineSize (Config.dumpText (frameBytes s)))
            (render Config.lineSize (Config.messageText t.rc.rc_ch1 t.rc.rc_ch2))) t)))

/-- The steps of the other events (R2, R243, R46, R205): a UART byte is appended, a tick counts, a `BitEnd` is the bit
engine's step. A `BitEnd` or `AdcSample` that is not enabled, and an empty event list, change nothing (the model's choice,
log entry 3). -/
def Obligations.EventSteps : Prop :=
  ∀ (s : State) (rest : List Event),
    (∀ b, s.inputs = .uartByte b :: rest →
      step s = .next { s with inputs := rest, rc := { s.rc with uart_fifo := s.rc.uart_fifo ++ [b] } }) ∧
    (s.inputs = .tick :: rest → step s = .next { s with inputs := rest, now := s.now + 1 }) ∧
    (s.inputs = .bitEnd :: rest → s.bs.bs_run = true → step s = .next (bitEnd { s with inputs := rest })) ∧
    (s.inputs = .bitEnd :: rest → s.bs.bs_run = false → step s = .next { s with inputs := rest }) ∧
    (∀ raw err, s.inputs = .adcSample raw err :: rest → s.cs.adc_run = false →
      step s = .next { s with inputs := rest }) ∧
    (s.inputs = [] → step s = .next s)

/-- "The block has no trap mechanism" (R410) and the bit engine raises nothing (R418): every step goes on, in every state;
and no step writes a parameter (R44). -/
def Obligations.StepGoesOnAndKeepsTheParameters : Prop :=
  ∀ s : State, ∃ t, step s = .next t ∧ t.cfg = s.cfg

/-! ### Errors -/

/-- "a host command that fails returns `ok = 0` and changes no state" (R410): whichever command, whatever the reason. -/
def Obligations.FailedCommandsChangeNothing : Prop :=
  ∀ (s t : State) (i : Instr), (∃ w, encode s.cfg i = .command w) → exec i s = .next t → t.resp.ok = false →
    t = { s with resp := t.resp }

/-- The table of R412: a command with an operand out of range is refused, with no effect at all. -/
def Obligations.CommandsRejectBadOperands : Prop :=
  ∀ (s : State) (a cv b n new which : BitVec 16) (v sp : Byte) (bit : BitVec 3) (on : Bool),
    (cv.toNat < 1 ∨ 1024 < cv.toNat →
      exec (.writeCv cv v) s = .next { s with resp := rejected } ∧
      exec (.readCv cv) s = .next { s with resp := rejected } ∧
      exec (.writeBit cv b v) s = .next { s with resp := rejected } ∧
      exec (.readBit cv b) s = .next { s with resp := rejected } ∧
      exec (.thrReadCv a cv) s = .next { s with resp := rejected } ∧
      exec (.thrWriteCv a cv v) s = .next { s with resp := rejected } ∧
      exec (.thrWriteBit a cv on bit) s = .next { s with resp := rejected }) ∧
    (7 < b.toNat →
      exec (.writeBit cv b v) s = .next { s with resp := rejected } ∧
      exec (.readBit cv b) s = .next { s with resp := rejected }) ∧
    (1 < v.toNat → exec (.writeBit cv b v) s = .next { s with resp := rejected }) ∧
    (a.toNat < 1 ∨ 10239 < a.toNat →
      exec (.createThrottle a) s = .next { s with resp := rejected } ∧
      exec (.deleteThrottle a) s = .next { s with resp := rejected } ∧
      exec (.findThrottle a) s = .next { s with resp := rejected } ∧
      exec (.thrSetSpeed a sp) s = .next { s with resp := rejected } ∧
      exec (.thrSetFunction a n on) s = .next { s with resp := rejected } ∧
      exec (.thrSetAddress a new) s = .next { s with resp := rejected } ∧
      exec (.thrReadCv a cv) s = .next { s with resp := rejected } ∧
      exec (.thrWriteCv a cv v) s = .next { s with resp := rejected } ∧
      exec (.thrWriteBit a cv on bit) s = .next { s with resp := rejected } ∧
      exec (.thrOpsDone a) s = .next { s with resp := rejected }) ∧
    exec (.thrSetSpeed a 0x80#8) s = .next { s with resp := rejected } ∧
    (fmax s.cfg.func_cap < n.toNat → exec (.thrSetFunction a n on) s = .next { s with resp := rejected }) ∧
    (new.toNat < 1 ∨ 10239 < new.toNat → exec (.thrSetAddress a new) s = .next { s with resp := rejected }) ∧
    (3 < which.toNat → exec (.setVerbosity which on) s = .next { s with resp := rejected }) ∧
    (∀ adrs : Nat, adrs < 1 ∨ 10239 < adrs → setAddress adrs = none)

/-- The refusals of R417: an unknown opcode (but for the echo; that a refused command is echoed too, before the refusal, is
the model's choice, log entry 13); a service command or `set_mode_ops` in Service; a full table; an address with
no throttle; a CV request or `set_address` while an operation is pending; `set_address` to an address in use. -/
def Obligations.CommandsRejectByPolicy : Prop :=
  ∀ (s : State) (a cv b new n : BitVec 16) (v sp : Byte) (bit : BitVec 3) (on : Bool),
    (∀ (w : BitVec 48) (rest : List Event), s.inputs = .cmd w :: rest →
      w.extractLsb' 40 8 ∉ [0x01#8, 0x02#8, 0x10#8, 0x11#8, 0x12#8, 0x13#8, 0x14#8, 0x20#8, 0x21#8, 0x22#8, 0x23#8,
        0x30#8, 0x31#8, 0x32#8, 0x33#8, 0x34#8, 0x35#8, 0x36#8, 0x40#8] →
      (s.trace.cmd_echo = false → step s = .next { s with inputs := rest, resp := rejected }) ∧
      (s.trace.cmd_echo = true →
        step s = .next { logLine (.command w) { s with inputs := rest } with resp := rejected })) ∧
    (s.mode = .Service →
      exec .setModeOps s = .next { s with resp := rejected } ∧
      exec (.writeCv cv v) s = .next { s with resp := rejected } ∧
      exec (.writeBit cv b v) s = .next { s with resp := rejected } ∧
      exec (.readCv cv) s = .next { s with resp := rejected } ∧
      exec (.readBit cv b) s = .next { s with resp := rejected }) ∧
    (s.thr_list.length = s.cfg.max_throttles → (∀ t ∈ s.thr, t.valid = true → t.address ≠ a.setWidth 14) →
      exec (.createThrottle a) s = .next { s with resp := rejected }) ∧
    ((∀ t ∈ s.thr, t.valid = true → t.address ≠ a.setWidth 14) →
      exec (.deleteThrottle a) s = .next { s with resp := rejected } ∧
      exec (.findThrottle a) s = .next { s with resp := rejected } ∧
      exec (.thrSetSpeed a sp) s = .next { s with resp := rejected } ∧
      exec (.thrSetFunction a n on) s = .next { s with resp := rejected } ∧
      exec (.thrSetAddress a new) s = .next { s with resp := rejected } ∧
      exec (.thrReadCv a cv) s = .next { s with resp := rejected } ∧
      exec (.thrWriteCv a cv v) s = .next { s with resp := rejected } ∧
      exec (.thrWriteBit a cv on bit) s = .next { s with resp := rejected } ∧
      exec (.thrOpsDone a) s = .next { s with resp := rejected }) ∧
    (∀ i, findSlot s (a.setWidth 14) = some i →
      (0 < (thrAt s i).read_cv_cnt ∨ 0 < (thrAt s i).write_cv_cnt ∨ 0 < (thrAt s i).write_bit_cnt →
        exec (.thrSetAddress a new) s = .next { s with resp := rejected } ∧
        exec (.thrReadCv a cv) s = .next { s with resp := rejected } ∧
        exec (.thrWriteCv a cv v) s = .next { s with resp := rejected } ∧
        exec (.thrWriteBit a cv on bit) s = .next { s with resp := rejected }) ∧
      (∀ j, j < s.thr.length → j ≠ i → (thrAt s j).valid = true → (thrAt s j).address = new.setWidth 14 →
        exec (.thrSetAddress a new) s = .next { s with resp := rejected }))

/-! ### DCC packet forms -/

/-- Every well-formed packet form completes with the decoder's answer for its bytes and changes no other register: the
meaning of the form agrees with `decode_type` and the field extraction (R165 to R168), on good checksums and bad. -/
def Obligations.PacketFormsAnswerAsTheDecoder : Prop :=
  ∀ (s : State) (i : Instr) (svc : Bool) (bytes : List Byte),
    s.cfg.wf = true → i.wf s.cfg = true → encode s.cfg i = .packet svc bytes →
      exec i s = .next { s with codec := codecReport s.cfg svc { bytes := bytes } }

/-- The speed forms (R99, R166): address, signed speed, and the packet `enc_speed128` builds from them. -/
def Obligations.SpeedFormsAnswer : Prop :=
  ∀ (s : State) (d : Bool) (m : BitVec 7) (x : Byte),
    (∀ a : BitVec 7, exec (.speed128S a d m x) s = .next { s with
      codec := answer [0#1 ++ a, 0x3F#8, BitVec.ofBool d ++ m, x] .Speed128
        (.speed a.toNat (if d then (m.toNat : Int) else -(m.toNat : Int)))
        (encSpeed128 a.toNat (if d then (m.toNat : Int) else -(m.toNat : Int))) }) ∧
    (∀ a : BitVec 14, exec (.speed128L a d m x) s = .next { s with
      codec := answer [0b11#2 ++ a.extractLsb' 8 6, a.extractLsb' 0 8, 0x3F#8, BitVec.ofBool d ++ m, x] .Speed128
        (.speed a.toNat (if d then (m.toNat : Int) else -(m.toNat : Int)))
        (encSpeed128 a.toNat (if d then (m.toNat : Int) else -(m.toNat : Int))) })

/-- The function forms (R100 to R102, R167): of F0..F4 the byte holds F0 in bit 4 and the answer holds it in bit 0. -/
def Obligations.FunctionFormsAnswer : Prop :=
  ∀ (s : State) (f0 : Bool) (f : BitVec 4) (g x : Byte),
    (∀ a : BitVec 7,
      let out (op : List Byte) (k : DccClass) (bits : Byte) : Host.Outcome State Fault Refusal :=
        .next { s with codec := answer ([0#1 ++ a] ++ op ++ [x]) k (.func a.toNat bits) (build a.toNat op) }
      exec (.funcF0S a f0 f x) s = out [0b100#3 ++ BitVec.ofBool f0 ++ f] .Func0 (0#3 ++ f ++ BitVec.ofBool f0) ∧
      exec (.funcF5S a f x) s = out [0b1011#4 ++ f] .Func5 (0#4 ++ f) ∧
      exec (.funcF9S a f x) s = out [0b1010#4 ++ f] .Func9 (0#4 ++ f) ∧
      exec (.funcF13S a g x) s = out [0b110#3 ++ s.cfg.feature_exp.f13, g] .Func13 g ∧
      exec (.funcF21S a g x) s = out [0b110#3 ++ s.cfg.feature_exp.f21, g] .Func21 g ∧
      exec (.funcF29S a g x) s = out [0b110#3 ++ s.cfg.feature_exp.f29, g] .Func29 g ∧
      exec (.funcF37S a g x) s = out [0b110#3 ++ s.cfg.feature_exp.f37, g] .Func37 g ∧
      exec (.funcF45S a g x) s = out [0b110#3 ++ s.cfg.feature_exp.f45, g] .Func45 g ∧
      exec (.funcF53S a g x) s = out [0b110#3 ++ s.cfg.feature_exp.f53, g] .Func53 g ∧
      exec (.funcF61S a g x) s = out [0b110#3 ++ s.cfg.feature_exp.f61, g] .Func61 g) ∧
    (∀ a : BitVec 14,
      let out (op : List Byte) (k : DccClass) (bits : Byte) : Host.Outcome State Fault Refusal :=
        .next { s with
          codec := answer ([0b11#2 ++ a.extractLsb' 8 6, a.extractLsb' 0 8] ++ op ++ [x]) k (.func a.toNat bits)
            (build a.toNat op) }
      exec (.funcF0L a f0 f x) s = out [0b100#3 ++ BitVec.ofBool f0 ++ f] .Func0 (0#3 ++ f ++ BitVec.ofBool f0) ∧
      exec (.funcF5L a f x) s = out [0b1011#4 ++ f] .Func5 (0#4 ++ f) ∧
      exec (.funcF9L a f x) s = out [0b1010#4 ++ f] .Func9 (0#4 ++ f) ∧
      exec (.funcF13L a g x) s = out [0b110#3 ++ s.cfg.feature_exp.f13, g] .Func13 g ∧
      exec (.funcF21L a g x) s = out [0b110#3 ++ s.cfg.feature_exp.f21, g] .Func21 g ∧
      exec (.funcF29L a g x) s = out [0b110#3 ++ s.cfg.feature_exp.f29, g] .Func29 g ∧
      exec (.funcF37L a g x) s = out [0b110#3 ++ s.cfg.feature_exp.f37, g] .Func37 g ∧
      exec (.funcF45L a g x) s = out [0b110#3 ++ s.cfg.feature_exp.f45, g] .Func45 g ∧
      exec (.funcF53L a g x) s = out [0b110#3 ++ s.cfg.feature_exp.f53, g] .Func53 g ∧
      exec (.funcF61L a g x) s = out [0b110#3 ++ s.cfg.feature_exp.f61, g] .Func61 g)

/-- The CV forms (R103, R110, R168): CV number, data byte or bit operands, and the packet their encoder builds (R161 to
R163, R175 to R177). `hi` and `lo` are the two bytes the ten bits of `cv_num - 1` stand in. -/
def Obligations.CvFormsAnswer : Prop :=
  ∀ (s : State) (v : BitVec 10) (d x : Byte) (k b : Bool) (n : BitVec 3),
    let lo : Byte := v.setWidth 8
    let hi : Byte := (v >>> 8).setWidth 8
    let w : Byte := 0xE0#8 ||| ((BitVec.ofBool k).setWidth 8 <<< 4) ||| ((BitVec.ofBool b).setWidth 8 <<< 3) |||
      n.setWidth 8
    (∀ a : BitVec 7,
      let out (op : List Byte) (c : DccClass) (f : DccFields) (e : Option DccPacket) :
          Host.Outcome State Fault Refusal :=
        .next { s with codec := answer ([0#1 ++ a] ++ op ++ [x]) c f e }
      exec (.opsCvVerifyS a v d x) s = out [0xE4#8 ||| hi, lo, d] .OpsCvVerifyByte
        (.cvByte (some a.toNat) (v.toNat + 1) d) (encOpsCvVerify a.toNat (v.toNat + 1) d) ∧
      exec (.opsCvWriteS a v d x) s = out [0xEC#8 ||| hi, lo, d] .OpsCvWriteByte
        (.cvByte (some a.toNat) (v.toNat + 1) d) (encOpsCvWrite a.toNat (v.toNat + 1) d) ∧
      exec (.opsCvBitS a v k b n x) s = out [0xE8#8 ||| hi, lo, w] .OpsCvBit
        (.cvBit (some a.toNat) (v.toNat + 1) k b n.toNat) (encOpsCvBit a.toNat (v.toNat + 1) k b n.toNat)) ∧
    (∀ a : BitVec 14,
      let out (op : List Byte) (c : DccClass) (f : DccFields) (e : Option DccPacket) :
          Host.Outcome State Fault Refusal :=
        .next { s with codec := answer ([0b11#2 ++ a.extractLsb' 8 6, a.extractLsb' 0 8] ++ op ++ [x]) c f e }
      exec (.opsCvVerifyL a v d x) s = out [0xE4#8 ||| hi, lo, d] .OpsCvVerifyByte
        (.cvByte (some a.toNat) (v.toNat + 1) d) (encOpsCvVerify a.toNat (v.toNat + 1) d) ∧
      exec (.opsCvWriteL a v d x) s = out [0xEC#8 ||| hi, lo, d] .OpsCvWriteByte
        (.cvByte (some a.toNat) (v.toNat + 1) d) (encOpsCvWrite a.toNat (v.toNat + 1) d) ∧
      exec (.opsCvBitL a v k b n x) s = out [0xE8#8 ||| hi, lo, w] .OpsCvBit
        (.cvBit (some a.toNat) (v.toNat + 1) k b n.toNat) (encOpsCvBit a.toNat (v.toNat + 1) k b n.toNat)) ∧
    exec (.svcVerifyByte v d x) s = .next { s with
      codec := answer [0x74#8 ||| hi, lo, d, x] .SvcVerifyByte
        (.cvByte none (v.toNat + 1) d) (encSvcVerifyByte (v.toNat + 1) d) } ∧
    exec (.svcWriteByte v d x) s = .next { s with
      codec := answer [0x7C#8 ||| hi, lo, d, x] .SvcWriteByte
        (.cvByte none (v.toNat + 1) d) (encSvcWriteByte (v.toNat + 1) d) } ∧
    exec (.svcBit v k b n x) s = .next { s with
      codec := answer [0x78#8 ||| hi, lo, w, x] .SvcBit
        (.cvBit none (v.toNat + 1) k b n.toNat) (encSvcBit (v.toNat + 1) k b n.toNat) }

/-- The fixed forms (R104, R105, R146, R147) and the decode-only forms (R171 to R173): a class and no field. -/
def Obligations.FixedAndDecodeOnlyFormsAnswer : Prop :=
  ∀ (s : State) (r6 : BitVec 6) (r3 : BitVec 3) (r4 : BitVec 4) (rest : List Byte),
    exec .reset s = .next { s with codec := { cls := .Reset, fields := .none, built := some { bytes := [0, 0, 0] } } } ∧
    exec .idle s =
      .next { s with codec := { cls := .Idle, fields := .none, built := some { bytes := [0xFF, 0, 0xFF] } } } ∧
    exec (.accessory r6 rest) s = .next { s with codec := answer ((0b10#2 ++ r6) :: rest) .Accessory .none none } ∧
    exec (.reservedE8EF r3 rest) s =
      .next { s with codec := answer ((0b11101#5 ++ r3) :: rest) .Reserved .none none } ∧
    exec (.reservedF0FE r4 rest) s =
      .next { s with codec := answer ((0b1111#4 ++ r4) :: rest) .Reserved .none none } ∧
    exec (.unclassified00 rest) s = .next { s with codec := answer (0x00#8 :: rest) .Unclassified .none none } ∧
    exec (.unclassifiedFF rest) s = .next { s with codec := answer (0xFF#8 :: rest) .Unclassified .none none }

/-- R180 clauses 1 and 2: every packet an encoder returns has a zero XOR and 3 to 6 bytes. -/
def Obligations.EncodedPacketsAreWellFormed : Prop :=
  ∀ (c : Config) (a cv g bit : Nat) (sp : Int) (f : BitVec 69) (d : Byte) (k b : Bool) (p : DccPacket),
    p = encReset ∨ p = encIdle ∨ encSpeed128 a sp = some p ∨ encFunc c g a f = some p ∨
    encOpsCvVerify a cv d = some p ∨ encOpsCvWrite a cv d = some p ∨ encOpsCvBit a cv k b bit = some p ∨
    encSvcVerifyByte cv d = some p ∨ encSvcWriteByte cv d = some p ∨ encSvcBit cv k b bit = some p →
      xorBytes p.bytes = 0#8 ∧ 3 ≤ p.len ∧ p.len ≤ 6

/-- R150, R166: the encoder answers exactly on the legal operands, and `decode_speed_128` returns them. -/
def Obligations.SpeedRoundTrip : Prop :=
  ∀ (c : Config) (a : Nat) (sp : Int),
    (1 ≤ a ∧ a ≤ 10239 ∧ -127 ≤ sp ∧ sp ≤ 127 →
      ∃ p, encSpeed128 a sp = some p ∧ decodeSpeed128 c p = some (a, sp)) ∧
    (a < 1 ∨ 10239 < a ∨ sp < -127 ∨ 127 < sp → encSpeed128 a sp = none)

/-- R167: "for every encoded function packet of group g, `decode_func_g` returns the exact bit pattern that was set; for
every other group, it returns false"; the bits are those of the function set (R62, R151 to R160). -/
def Obligations.FunctionRoundTrip : Prop :=
  ∀ (c : Config) (g a : Nat) (f : BitVec 69), c.wf = true → g ≤ 9 → 1 ≤ a → a ≤ 10239 →
    ∃ p bits, encFunc c g a f = some p ∧ decodeFunc c g p = some (a, bits) ∧
      (∀ n, n ≤ 68 → grp n = g → bits.getLsbD (n - [0, 5, 9, 13, 21, 29, 37, 45, 53, 61].getD g 0) = f.getLsbD n) ∧
      (∀ h, h ≤ 9 → h ≠ g → decodeFunc c h p = none)

/-- R180 clauses 3 and 4 for the CV families: the class of the encoder that built the packet, and its operands. -/
def Obligations.CvRoundTrip : Prop :=
  ∀ (c : Config) (a cv bit : Nat) (d : Byte) (k b : Bool),
    c.wf = true → 1 ≤ a → a ≤ 10239 → 1 ≤ cv → cv ≤ 1024 → bit ≤ 7 →
      (∃ p, encOpsCvVerify a cv d = some p ∧ decodeType c p false = .OpsCvVerifyByte ∧
        decodeFields c p .OpsCvVerifyByte = .cvByte (some a) cv d) ∧
      (∃ p, encOpsCvWrite a cv d = some p ∧ decodeType c p false = .OpsCvWriteByte ∧
        decodeFields c p .OpsCvWriteByte = .cvByte (some a) cv d) ∧
      (∃ p, encOpsCvBit a cv k b bit = some p ∧ decodeType c p false = .OpsCvBit ∧
        decodeFields c p .OpsCvBit = .cvBit (some a) cv k b bit) ∧
      (∃ p, encSvcVerifyByte cv d = some p ∧ decodeType c p true = .SvcVerifyByte ∧
        decodeFields c p .SvcVerifyByte = .cvByte none cv d) ∧
      (∃ p, encSvcWriteByte cv d = some p ∧ decodeType c p true = .SvcWriteByte ∧
        decodeFields c p .SvcWriteByte = .cvByte none cv d) ∧
      (∃ p, encSvcBit cv k b bit = some p ∧ decodeType c p true = .SvcBit ∧
        decodeFields c p .SvcBit = .cvBit none cv k b bit)

/-- R141 whole (the returned count is the length of the address part), and the round trip of R142. -/
def Obligations.AddressPart : Prop :=
  ∀ a : Nat,
    (a < 1 ∨ 10239 < a → setAddress a = none) ∧
    (1 ≤ a → a ≤ 127 → setAddress a = some [BitVec.ofNat 8 a]) ∧
    (128 ≤ a → a ≤ 10239 →
      setAddress a = some [BitVec.ofNat 8 (0xC0 ||| ((a >>> 8) &&& 0x3F)), BitVec.ofNat 8 (a &&& 0xFF)]) ∧
    (1 ≤ a → a ≤ 10239 → ∀ rest, ∃ l, setAddress a = some l ∧ getAddress (l ++ rest) = some (a, l.length))

/-- R143 whole: the last byte becomes the XOR of the bytes before it, 0 for a packet of one byte, and the invariant of R10
holds after it. -/
def Obligations.ChecksumByte : Prop :=
  ∀ p : DccPacket, 1 ≤ p.len →
    (setXor p).bytes = p.bytes.take (p.len - 1) ++ [xorBytes (p.bytes.take (p.len - 1))] ∧
    (p.len = 1 → (setXor p).bytes = [0#8]) ∧
    checkXor (setXor p) = true

/-! ### RailCom -/

/-- R246: the 64 codes, the specials of each version, and `INV` for every other byte; a data code has weight four (R245). -/
def Obligations.RawSymbolClasses : Prop :=
  ∀ (v : RailcomVersion) (b : Byte),
    (∀ d : BitVec 6, rcClass v b = .data d ↔ b = codeOf d) ∧
    (∀ d : BitVec 6, ((codeOf d).toNat.bits.filter (· == true)).length = 4) ∧
    (rcClass v b = .ack ↔ b = 0xF0#8 ∨ (b = 0x0F#8 ∧ v = .v2021)) ∧
    (rcClass v b = .nak ↔ b = 0x3C#8) ∧
    (rcClass v b = .bsy ↔ b = 0xE1#8 ∧ v = .v2012)

/-- R248 to R252: the raw bytes of a list of messages parse to that list; a leading AHI or ALO is channel 1. -/
def Obligations.FrameParsesToItsMessages : Prop :=
  ∀ (v : RailcomVersion) (ms : List RcMsg), (∀ m ∈ ms, m = .bsy → v = .v2012) →
    ((∀ val, ms.head? ≠ some (.ahi val) ∧ ms.head? ≠ some (.alo val)) →
      rcParse v (ms.flatMap msgRaw) = (none, ms)) ∧
    (∀ val, rcParse v (msgRaw (.ahi val) ++ ms.flatMap msgRaw) = (some (.ahi val), ms)) ∧
    (∀ val, rcParse v (msgRaw (.alo val) ++ ms.flatMap msgRaw) = (some (.alo val), ms))

/-- R252, R256: a frame with a symbol that is no datum and no special has no channel-2 message; in the first two symbols it
leaves channel 1 empty too. -/
def Obligations.CorruptFrameDropsChannel2 : Prop :=
  ∀ (v : RailcomVersion) (raw : List Byte) (k : Nat), k < raw.length → rcClass v (raw.getD k 0#8) = .inv →
    (rcParse v raw).2 = [] ∧ (k < 2 → (rcParse v raw).1 = none)

/-- The messages that change no throttle (R387: "anything else -> nothing"): they are recorded and that is all. ACK's second
code and BSY are symbols of one version each; under the other version the instruction is not well-formed, its byte is `INV`
(R246), and running it clears channel 2 as R252 does and keeps the rest: the model's inference (DEDUCED, log entry 21). How one
message takes its place in the frame registers is the model's choice (log entry 22). -/
def Obligations.RailcomMessagesWithoutThrottleEffect : Prop :=
  ∀ (s : State) (val d0 d1 d2 d3 : Byte) (p : BitVec 14) (ss : BitVec 2),
    let rec2 (m : RcMsg) : State := { s with rc := { s.rc with rc_ch2 := s.rc.rc_ch2 ++ [m] } }
    exec .rcAck s = .next (rec2 .ack) ∧
    exec .rcNak s = .next (rec2 .nak) ∧
    exec (.rcExt p) s = .next (rec2 (.ext p)) ∧
    exec (.rcXpom ss d0 d1 d2 d3) s = .next (rec2 (.xpom ss d0 d1 d2 d3)) ∧
    (s.cfg.railcom_version = .v2021 →
      exec .rcAck2021 s = .next (rec2 .ack) ∧
      exec .rcBsy s = .next { s with rc := { s.rc with rc_ch2 := [] } }) ∧
    (s.cfg.railcom_version = .v2012 →
      exec .rcBsy s = .next (rec2 .bsy) ∧
      exec .rcAck2021 s = .next { s with rc := { s.rc with rc_ch2 := [] } }) ∧
    (s.rc.rc_ch1 = none ∧ s.rc.rc_ch2 = [] →
      exec (.rcAhi val) s = .next { s with rc := { s.rc with rc_ch1 := some (.ahi val) } } ∧
      exec (.rcAlo val) s = .next { s with rc := { s.rc with rc_ch1 := some (.alo val) } }) ∧
    (s.rc.rc_ch1 ≠ none ∨ s.rc.rc_ch2 ≠ [] →
      exec (.rcAhi val) s = .next (rec2 (.ahi val)) ∧ exec (.rcAlo val) s = .next (rec2 (.alo val)))

/-- POM completes a pending operation of the throttle whose packet the frame answers (R385); DYN with the subindex `SPEED1`
stores the reported speed and the time (R389); that the trace line is then always produced is the model's choice (log entry
13), and so is how one message takes its place in the frame registers (log entry 22). With no live reference, nothing pending
or another subindex the message is only recorded. -/
def Obligations.PomAndDynReachTheThrottle : Prop :=
  ∀ (s : State) (val : Byte) (idx : BitVec 6),
    let rec2 (m : RcMsg) : State := { s with rc := { s.rc with rc_ch2 := s.rc.rc_ch2 ++ [m] } }
    (∀ r, s.bs.last_ref = some r → (thrAt s r.slot).valid = true → (thrAt s r.slot).gen = r.gen →
      let t := thrAt s r.slot
      (0 < t.read_cv_cnt ∨ 0 < t.write_cv_cnt ∨ 0 < t.write_bit_cnt →
        exec (.rcPom val) s = .next { rec2 (.pom val) with
          thr := s.thr.set r.slot { t with ops_done := true, ops_ok := true, ops_val := val, read_cv_cnt := 0,
                                           write_cv_cnt := 0, write_bit_cnt := 0 } }) ∧
      (t.read_cv_cnt = 0 ∧ t.write_cv_cnt = 0 ∧ t.write_bit_cnt = 0 →
        exec (.rcPom val) s = .next (rec2 (.pom val))) ∧
      (idx = s.cfg.dyn_subidx_speed1 →
        let s' : State := { rec2 (.dyn val idx) with
          thr := s.thr.set r.slot { t with rc_speed := val, rc_speed_time := s.now, rc_speed_valid := true } }
        (s.trace.trace_speed = false → exec (.rcDyn val idx) s = .next s') ∧
        (s.trace.trace_speed = true → exec (.rcDyn val idx) s = .next (logLine (.speed r.slot val) s'))) ∧
      (idx ≠ s.cfg.dyn_subidx_speed1 → exec (.rcDyn val idx) s = .next (rec2 (.dyn val idx)))) ∧
    ((∀ r, s.bs.last_ref = some r → ¬ ((thrAt s r.slot).valid = true ∧ (thrAt s r.slot).gen = r.gen)) →
      exec (.rcPom val) s = .next (rec2 (.pom val)) ∧ exec (.rcDyn val idx) s = .next (rec2 (.dyn val idx)))

/-- The delivery of a frame is the effect of its messages one after the other, channel 1 first, in frame order (R206,
R387); then a traced frame goes to the log with its two renderings (R254). The effect of one message (`runMsg`) is log
entry 22's; that the line is always produced, after the delivery, is log entry 13's; that its two texts are cut to one log
line (`Config.lineSize`, where R254 names no buffer) is log entry 23's (all three the model's choice). -/
def Obligations.FrameDeliveryIsItsMessages : Prop :=
  ∀ (s : State),
    let raw := s.rc.uart_fifo.take 8
    let p := rcParse s.cfg.railcom_version raw
    railcomDeliver s = logWhen s.trace.trace_railcom (.frame raw p.1 p.2
        (render Config.lineSize (Config.dumpText raw)) (render Config.lineSize (Config.messageText p.1 p.2)))
      ((p.1.toList ++ p.2).foldl (fun s m => runMsg m s) (frameStart s))

/-- R206, R242, R481: at the first preamble bit after a cutout the frame is drained and parsed into the frame registers; a
stale or absent reference hears nothing of it. -/
def Obligations.StaleReferenceHearsNothing : Prop :=
  ∀ (s : State), s.bs.bs_run = true → s.bs.railcom_enabled = true → s.bs.from_cutout = true →
    s.bs.pos = .preamble s.bs.preamble_bits →
      let raw := s.rc.uart_fifo.take 8
      (bitEnd s).rc = { uart_fifo := [], rc_raw := raw ++ List.replicate (8 - raw.length) 0#8, rc_cnt := raw.length,
                        rc_ch1 := (rcParse s.cfg.railcom_version raw).1,
                        rc_ch2 := (rcParse s.cfg.railcom_version raw).2 } ∧
      ((∀ r, s.bs.last_ref = some r → ¬ ((thrAt s r.slot).valid = true ∧ (thrAt s r.slot).gen = r.gen)) →
        (bitEnd s).thr = s.thr)

/-! ### The bit engine -/

/-- R203 and R204 whole: the slot and the successor of every position. -/
def Obligations.SlotAndSuccessorOfPosition : Prop :=
  ∀ (b : Bitstream) (i k r c : Nat),
    (1 ≤ r → slotOf b (.preamble r) = .One) ∧ slotOf b (.preamble 0) = .Zero ∧
    (∀ x, b.curPkt.bytes[i]? = some x → k ≤ 7 → slotOf b (.data i k) = if x.getLsbD k then .One else .Zero) ∧
    (i + 1 < b.curPkt.len → slotOf b (.trail i) = .Zero) ∧ (i + 1 = b.curPkt.len → slotOf b (.trail i) = .One) ∧
    slotOf b (.cutout 4) = .Cutout1 ∧ (1 ≤ c → c ≤ 3 → slotOf b (.cutout c) = .CutoutN) ∧
    (2 ≤ r → succPos b (.preamble r) = .preamble (r - 1)) ∧ succPos b (.preamble 1) = .preamble 0 ∧
    succPos b (.preamble 0) = .data 0 7 ∧
    (1 ≤ k → k ≤ 7 → succPos b (.data i k) = .data i (k - 1)) ∧ succPos b (.data i 0) = .trail i ∧
    (i + 1 < b.curPkt.len → succPos b (.trail i) = .data (i + 1) 7) ∧
    (i + 1 = b.curPkt.len → b.railcom_enabled = true → succPos b (.trail i) = .cutout 4) ∧
    (i + 1 = b.curPkt.len → b.railcom_enabled = false → succPos b (.trail i) = .preamble b.preamble_bits) ∧
    (2 ≤ c → c ≤ 4 → succPos b (.cutout c) = .cutout (c - 1)) ∧ succPos b (.cutout 1) = .preamble b.preamble_bits

/-- R201: `emit(k)` fixes both signals for the slot; a slot lasts 116 µs, a `Zero` 200 µs. -/
def Obligations.SlotWaveforms : Prop :=
  ∀ (k : SlotKind) (b : Bitstream),
    emitSlot k b = { b with
      wire := k :: b.wire
      dcc_sig := .segs (if k = .Zero then [(true, 100), (false, 100)] else [(true, 58), (false, 58)])
      dcc_pwr := .segs (match k with
        | .One => [(true, 116)]
        | .Zero => [(true, 200)]
        | .Cutout1 => [(true, 29), (false, 87)]
        | .CutoutN => [(false, 116)]) }

/-- The bit-end step (R205 to R209): what each position's effect writes, the advance with the waves of the slot it programs,
and what no effect writes. At the first preamble bit after a cutout the effect is the delivery; at the last preamble bit the
state goes on as the pull leaves it. `from_cutout` is the model's own bit for R206's "previous position was `(CUTOUT, 1)`"
(log entry 11). A traced pull's line, which R436 says may be produced, is always produced, with the packet and its decoding
in the context of the mode: the model's choice (log entry 13). What the drain writes is `DrainWritesTheRing`, what a pull
writes `PullOpsServesTheCursor` and `PullSvcPhases`, what the delivery writes `FrameDeliveryIsItsMessages`. -/
def Obligations.BitEndEffects : Prop :=
  ∀ s : State, s.bs.bs_run = true →
    let t := bitEnd s
    let d := adcDrain s
    let stopBit := ∃ i, s.bs.pos = .trail i ∧ s.bs.curPkt.len ≤ i + 1
    let frameEnd := s.bs.pos = .preamble s.bs.preamble_bits ∧ s.bs.from_cutout = true ∧ s.bs.railcom_enabled = true
    -- R208, R209, R206
    (s.bs.pos = .cutout 4 → t.rc = { s.rc with uart_fifo := [] }) ∧
    (stopBit → t.bs.last_ref = (s.bs.slot s.bs.cur).ref ∧ t.bs.cur = s.bs.cur.other) ∧
    (frameEnd → t.rc = (railcomDeliver d).rc ∧ t.thr = (railcomDeliver d).thr ∧ t.trace = (railcomDeliver d).trace) ∧
    -- R207: the packet pulled, and the state the pull leaves
    (s.bs.pos = .preamble 1 → ¬ frameEnd →
      let q := pullPacket d
      t.bs.slot s.bs.cur.other = q.1 ∧ t.thr = q.2.thr ∧ t.rr_cursor = q.2.rr_cursor ∧ t.svc = q.2.svc ∧
      t.mode = q.2.mode ∧ t.cs = q.2.cs ∧ t.bs.bs_run = q.2.bs.bs_run ∧
      (s.trace.trace_dcc = false → t.trace = s.trace) ∧
      (s.trace.trace_dcc = true →
        t.trace = (logLine (.packet q.1.pkt (codecReport s.cfg (s.mode == .Service) q.1.pkt)) s).trace)) ∧
    -- the advance of R205 steps 3 and 4, with the waves of R201; or the engine stopped by the pull (R211, R320)
    (t.bs.bs_run = true →
      let slot := slotOf t.bs t.bs.pos
      t.bs.pos = succPos s.bs s.bs.pos ∧ t.bs.wire = slot :: s.bs.wire ∧
      (t.bs.from_cutout = true ↔ s.bs.pos = .cutout 1) ∧
      t.bs.dcc_sig = .segs (if slot = .Zero then [(true, 100), (false, 100)] else [(true, 58), (false, 58)]) ∧
      t.bs.dcc_pwr = .segs (match slot with
        | .One => [(true, 116)]
        | .Zero => [(true, 200)]
        | .Cutout1 => [(true, 29), (false, 87)]
        | .CutoutN => [(false, 116)])) ∧
    (t.bs.bs_run = false → s.bs.pos = .preamble 1 ∧ t.bs.pos = s.bs.pos ∧ t.bs.wire = s.bs.wire ∧
      t.bs.from_cutout = s.bs.from_cutout ∧ t.bs.dcc_sig = .const false ∧ t.bs.dcc_pwr = .const false) ∧
    -- what no effect writes
    t.bs.slot s.bs.cur = s.bs.slot s.bs.cur ∧
    (¬ stopBit → t.bs.last_ref = s.bs.last_ref ∧ t.bs.cur = s.bs.cur) ∧
    (s.bs.pos ≠ .preamble 1 → t.bs.slotA = s.bs.slotA ∧ t.bs.slotB = s.bs.slotB ∧ t.mode = s.mode ∧
      t.rr_cursor = s.rr_cursor ∧ t.svc = d.svc ∧ t.cs = d.cs ∧ t.bs.bs_run = true) ∧
    (s.bs.pos ≠ .preamble 1 → ¬ frameEnd → t.thr = s.thr ∧ t.trace = s.trace) ∧
    (s.bs.pos ≠ .cutout 4 → ¬ frameEnd → t.rc = s.rc) ∧
    t.bs.preamble_bits = s.bs.preamble_bits ∧ t.bs.railcom_enabled = s.bs.railcom_enabled ∧
    t.cfg = s.cfg ∧ t.thr_list = s.thr_list ∧ t.now = s.now ∧ t.resp = s.resp ∧ t.codec = s.codec ∧
    t.inputs = s.inputs

/-- R213 (invariants 5 and 6 of the source): from the preamble bit `r` of a packet to the first preamble bit of the next,
the slots emitted are the rest of the preamble, the start bit, the bytes with their separators, the stop bit, the cutout,
and the next preamble's first bit; then the packets have changed places. It holds in every mode while the engine is not
stopped. From a start on (R210), the wire carries the template behind a preamble of `P0 + START_EXTRA_ONES` ones. -/
def Obligations.WireCarriesThePacket : Prop :=
  (∀ (s : State) (r : Nat), s.bs.bs_run = true → 1 ≤ s.bs.preamble_bits → 1 ≤ r → s.bs.pos = .preamble r →
    1 ≤ s.bs.curPkt.len →
      let n := r + 1 + 9 * s.bs.curPkt.len + (if s.bs.railcom_enabled then 4 else 0)
      let cutout : List SlotKind := if s.bs.railcom_enabled then [.Cutout1, .CutoutN, .CutoutN, .CutoutN] else []
      let emitted : List SlotKind := List.replicate (r - 1) .One ++ [.Zero] ++ dataSlots s.bs.curPkt.bytes ++ cutout ++
        [.One]
      let t := bitEnds n s
      t.bs.bs_run = true →
        t.bs.wire = emitted.reverse ++ s.bs.wire ∧
        t.bs.pos = .preamble s.bs.preamble_bits ∧ t.bs.cur = s.bs.cur.other ∧
        t.bs.last_ref = (s.bs.slot s.bs.cur).ref) ∧
  (∀ s : State,
    let cutout : List SlotKind := if s.cfg.railcom_enabled then [.Cutout1, .CutoutN, .CutoutN, .CutoutN] else []
    let emitted (ones : Nat) (bytes : List Byte) : List SlotKind :=
      List.replicate (ones + s.cfg.start_extra_ones) .One ++ [.Zero] ++ dataSlots bytes ++ cutout ++ [.One]
    let first (ones : Nat) (bytes : List Byte) (started : State) : Prop :=
      let t := bitEnds (ones + s.cfg.start_extra_ones + 27 + (if s.cfg.railcom_enabled then 4 else 0)) started
      t.bs.bs_run = true →
        t.bs.wire = (emitted ones bytes).reverse ++ s.bs.wire ∧ t.bs.pos = .preamble ones ∧ t.bs.cur = .B ∧
        t.bs.last_ref = none
    first 14 [0xFF, 0x00, 0xFF] (startOps s) ∧ first 20 [0x00, 0x00, 0x00] (startSvc s))

/-- R210 and R211 whole: the two starts and the stop, with every register they leave alone. That a start leaves the frame
registers alone is the model's choice against the table of R430 (log entry 25); `from_cutout` is its own bit (log entry
11). -/
def Obligations.StartAndStop : Prop :=
  ∀ s : State,
    let started (p0 : Nat) (tmpl : DccPacket) : State := { s with
      rc := { s.rc with uart_fifo := [] }
      bs := { s.bs with
        preamble_bits := p0, railcom_enabled := s.cfg.railcom_enabled, slotA := { pkt := tmpl, ref := none },
        slotB := { pkt := tmpl, ref := none }, cur := .A, last_ref := none, from_cutout := false, bs_run := true,
        pos := .preamble (p0 + s.cfg.start_extra_ones - 1), wire := .One :: .One :: s.bs.wire,
        dcc_sig := .segs [(true, 58), (false, 58)], dcc_pwr := .segs [(true, 116)] } }
    startOps s = started 14 { bytes := [0xFF, 0x00, 0xFF] } ∧
    startSvc s = started 20 { bytes := [0x00, 0x00, 0x00] } ∧
    (s.bs.bs_run = true → stop s = { s with bs := { s.bs with
      bs_run := false, dcc_sig := .const false, dcc_pwr := .const false } }) ∧
    (s.bs.bs_run = false → stop s = s)

/-! ### The current sensor -/

/-- R281 whole for the enabled event: a sample is appended; on a full FIFO it is dropped and the newest entry is flagged. -/
def Obligations.AdcSampleQueues : Prop :=
  ∀ (s : State) (rest : List Event) (raw : BitVec 12) (err : Bool),
    s.inputs = .adcSample raw err :: rest → s.cs.adc_run = true →
      (s.cs.adc_fifo.length < s.cfg.adc_fifo_depth →
        step s = .next { s with inputs := rest, cs := { s.cs with adc_fifo := s.cs.adc_fifo ++ [(raw, err)] } }) ∧
      (∀ older newest, s.cfg.adc_fifo_depth ≤ s.cs.adc_fifo.length → s.cs.adc_fifo = older ++ [newest] →
        step s = .next { s with inputs := rest, cs := { s.cs with adc_fifo := older ++ [(newest.1, true)] } })

/-- R283 and R284, with R290: the drain empties the FIFO, counts the flagged entries, writes every raw sample to the ring in
order, and makes the ack comparison after each of these writes: while armed, `ack_seen` becomes set exactly if the short
average in milliamps reaches the threshold after some of them. It writes nothing else but, with the capture log active, the
log (and the model's draw counter, log entry 14). -/
def Obligations.DrainWritesTheRing : Prop :=
  ∀ s : State,
    let t := adcDrain s
    let ringAfter (k : Nat) : List (BitVec 12) × Nat := (s.cs.adc_fifo.take k).foldl
      (fun (q : List (BitVec 12) × Nat) e => (q.1.set q.2 e.1, (q.2 + 1) % s.cfg.long_avg_n)) (s.cs.cs_ring, s.cs.cs_head)
    let shortAfter (k : Nat) : Nat := toMA (shortAvgRaw s.cfg.long_avg_n
      { s.cs with cs_ring := (ringAfter k).1, cs_head := (ringAfter k).2 })
    let ring := ringAfter s.cs.adc_fifo.length
    t = { s with
      cs := { s.cs with
        adc_fifo := [], cs_ring := ring.1, cs_head := ring.2, cap_log := t.cs.cap_log,
        adc_err_cnt := s.cs.adc_err_cnt + (s.cs.adc_fifo.filter (fun e => e.2)).length }
      svc := { s.svc with ack_seen := t.svc.ack_seen }
      draws := t.draws } ∧
    (t.svc.ack_seen = true ↔ s.svc.ack_seen = true ∨ (s.svc.ack_armed = true ∧
      ∃ k, 1 ≤ k ∧ k ≤ s.cs.adc_fifo.length ∧ s.svc.ack_threshold_mA ≤ shortAfter k)) ∧
    (s.cfg.caplog_active = false → t.cs.cap_log = s.cs.cap_log ∧ t.draws = s.draws)

/-- R285 and R286: after a ring's length of samples `l` the long average is the floor of their mean and the short average
the floor of the mean of the last 16, wherever the head stood. -/
def Obligations.AveragesOfTheLastSamples : Prop :=
  ∀ (n : Nat) (c : Sensor) (l : List (BitVec 12)), 16 ≤ n → c.cs_ring.length = n → c.cs_head < n → l.length = n →
    let t := l.foldl (fun c x => ringWrite n x c) c
    longAvgRaw n t = (l.map BitVec.toNat).sum / n ∧
    shortAvgRaw n t = ((l.drop (n - 16)).map BitVec.toNat).sum / 16

/-- R287 whole: the formula, its monotonicity, its largest intermediate, and its values. -/
def Obligations.MilliampConversion : Prop :=
  (∀ raw, toMA raw = ((raw * 3300 + 2048) / 4096) * 7447 / 8192) ∧
  (∀ a b, a ≤ b → toMA a ≤ toMA b) ∧
  (∀ raw, raw ≤ 4095 → ((raw * 3300 + 2048) / 4096) * 7447 ≤ 24567653) ∧ 24567653 < 2 ^ 25 ∧
  toMA 0 = 0 ∧ toMA 1 = 0 ∧ toMA 2 = 1 ∧ toMA 100 = 73 ∧ toMA 2048 = 1499 ∧ toMA 4095 = 2998

/-- R290 and R318 whole (with R288 and R289): the level comparison that sets `ack_seen` and never clears it, and the arming
that clears it and takes the threshold from the long average. -/
def Obligations.AckDetector : Prop :=
  ∀ s : State,
    (s.svc.ack_armed = true → s.svc.ack_threshold_mA ≤ toMA (shortAvgRaw s.cfg.long_avg_n s.cs) →
      ackCheck s = { s with svc := { s.svc with ack_seen := true } }) ∧
    (s.svc.ack_armed = false ∨ toMA (shortAvgRaw s.cfg.long_avg_n s.cs) < s.svc.ack_threshold_mA → ackCheck s = s) ∧
    arm s = { s with svc := { s.svc with
      ack_threshold_mA := toMA (longAvgRaw s.cfg.long_avg_n s.cs) + 60, ack_seen := false, ack_armed := true } }

/-! ### The scheduler's pull -/

/-- R311 and R313 whole, R314: an empty list and Off yield Idle and change nothing; else the throttle at the cursor is
served, then the cursor moves. -/
def Obligations.PullOpsServesTheCursor : Prop :=
  ∀ s : State,
    (s.mode = .Off ∨ (s.mode = .Ops ∧ s.thr_list = []) →
      pullPacket s = ({ pkt := { bytes := [0xFF, 0x00, 0xFF] }, ref := none }, s)) ∧
    (∀ i, s.mode = .Ops → s.thr_list[s.rr_cursor]? = some i →
      pullPacket s =
        ({ pkt := (nextPacket s.cfg (thrAt s i)).1, ref := some { slot := i, gen := (thrAt s i).gen } },
         { s with rr_cursor := (s.rr_cursor + 1) % s.thr_list.length
                  thr := s.thr.set i (nextPacket s.cfg (thrAt s i)).2 }))

/-- R315 and R321 whole: the pull of each phase, the ack that cuts the Command phase short, and the evaluation of a block
that has been handed out. -/
def Obligations.PullSvcPhases : Prop :=
  ∀ (s : State) (n : Nat), s.mode = .Service →
    let out (p : DccPacket) (t : State) : TrackPacket × State := ({ pkt := p, ref := none }, t)
    let put (s : State) (ph : SvcPhase) (k : Nat) : State := { s with svc := { s.svc with svc_phase := ph, svc_cnt := k } }
    let cut := s.svc.ack_seen = true ∧ s.cfg.caplog_active = false
    (s.svc.svc_phase = .Reset1 → s.svc.svc_cnt = n + 2 → pullPacket s = out RESET (put s .Reset1 (n + 1))) ∧
    (s.svc.svc_phase = .Reset1 → s.svc.svc_cnt = 1 → pullPacket s = out RESET (put (arm s) .Command 5)) ∧
    (s.svc.svc_phase = .Command → ¬ cut → s.svc.svc_cnt = n + 2 →
      pullPacket s = out (svcCmdPacket s.svc) (put s .Command (n + 1))) ∧
    (s.svc.svc_phase = .Command → ¬ cut → s.svc.svc_cnt = 1 →
      pullPacket s = out (svcCmdPacket s.svc) (put s .Reset2 5)) ∧
    (s.svc.svc_phase = .Command → cut → pullPacket s = out RESET (put s .Reset2 4)) ∧
    (s.svc.svc_phase = .Reset2 → s.svc.svc_cnt = n + 1 → pullPacket s = out RESET (put s .Reset2 n)) ∧
    (s.svc.svc_phase = .Reset2 → s.svc.svc_cnt = 0 → (blockEnd s).1 = true → pullPacket s = out RESET (blockEnd s).2) ∧
    (s.svc.svc_phase = .Reset2 → s.svc.svc_cnt = 0 → (blockEnd s).1 = false →
      pullPacket s = out (svcCmdPacket (blockEnd s).2.svc) (put (blockEnd s).2 .Command 4))

/-- R316 whole: the command packet of each operation and block, byte by byte with its checksum. -/
def Obligations.SvcCommandPacketBytes : Prop :=
  ∀ v : Service,
    let lo : Byte := v.svc_cv.setWidth 8
    let hi : Byte := (v.svc_cv >>> 8).setWidth 8
    let pkt (b0 b2 : Byte) : DccPacket := { bytes := [b0 ||| hi, lo, b2, (b0 ||| hi) ^^^ lo ^^^ b2] }
    let bit (k : Byte) (d : Bool) (n : Byte) : Byte := 0xE0#8 ||| k ||| (if d then 0x08#8 else 0x00#8) ||| n
    (v.svc_op = .WriteByte → svcCmdPacket v = pkt 0x7C#8 v.svc_val) ∧
    (v.svc_op = .WriteBit → svcCmdPacket v = pkt 0x78#8 (bit 0x10#8 v.svc_bit_val (v.svc_bit_num.setWidth 8))) ∧
    (v.svc_op = .ReadByte → v.svc_step ≤ 7 →
      svcCmdPacket v = pkt 0x78#8 (bit 0x00#8 true (BitVec.ofNat 8 v.svc_step))) ∧
    (v.svc_op = .ReadByte → v.svc_step = 8 → svcCmdPacket v = pkt 0x74#8 v.svc_val) ∧
    (v.svc_op = .ReadBit → v.svc_step = 0 →
      svcCmdPacket v = pkt 0x78#8 (bit 0x00#8 false (v.svc_bit_num.setWidth 8))) ∧
    (v.svc_op = .ReadBit → v.svc_step = 1 →
      svcCmdPacket v = pkt 0x78#8 (bit 0x00#8 true (v.svc_bit_num.setWidth 8)))

/-- R319 and R320 whole: what follows a block of each operation. A terminal block latches the outcome and goes to Off. -/
def Obligations.BlockEndOutcomes : Prop :=
  ∀ s : State,
    let ended (st : SvcStatus) (res val : Byte) : Bool × State := (true, { s with
      mode := .Off
      cs := { s.cs with adc_run := false, adc_fifo := [] }
      bs := if s.bs.bs_run then { s.bs with bs_run := false, dcc_sig := .const false, dcc_pwr := .const false } else s.bs
      svc := { s.svc with
        svc_status := st, svc_result := res, svc_val := val, svc_op := .None, svc_phase := .Reset1, svc_cnt := 0,
        svc_step := 0, ack_armed := false, ack_seen := false } })
    let goOn (step : Nat) (val : Byte) : Bool × State := (false, { s with svc := { s.svc with
      svc_step := step, svc_val := val, svc_phase := .Command, svc_cnt := 5, ack_seen := false, ack_armed := true,
      ack_threshold_mA := longAvgMA s + 60 } })
    let v := s.svc
    (v.svc_op = .WriteByte ∨ v.svc_op = .WriteBit → v.ack_seen = true → blockEnd s = ended .Success 0 v.svc_val) ∧
    (v.svc_op = .WriteByte ∨ v.svc_op = .WriteBit → v.ack_seen = false → blockEnd s = ended .Error 0 v.svc_val) ∧
    (v.svc_op = .ReadByte → v.svc_step ≤ 7 →
      blockEnd s = goOn (if v.svc_step = 0 then 8 else v.svc_step - 1)
        (if v.ack_seen then v.svc_val ||| BitVec.twoPow 8 v.svc_step else v.svc_val)) ∧
    (v.svc_op = .ReadByte → v.svc_step = 8 →
      blockEnd s = ended (if v.ack_seen then .Success else .Error) v.svc_val v.svc_val) ∧
    (v.svc_op = .ReadBit → v.svc_step = 0 → v.ack_seen = true → blockEnd s = ended .Success 0 0) ∧
    (v.svc_op = .ReadBit → v.svc_step = 0 → v.ack_seen = false → blockEnd s = goOn 1 v.svc_val) ∧
    (v.svc_op = .ReadBit → v.svc_step = 1 → v.ack_seen = true → blockEnd s = ended .Success 1 1) ∧
    (v.svc_op = .ReadBit → v.svc_step = 1 → v.ack_seen = false → blockEnd s = ended .Error 0 v.svc_val)

/-- R322 for a write that no decoder acknowledges: 20 Reset, 5 Command and 5 Reset2 packets are handed out and the 31st pull
ends the operation with Error. -/
def Obligations.WriteWithoutAckSequence : Prop :=
  ∀ s : State, s.mode = .Service → s.svc.svc_op = .WriteByte ∨ s.svc.svc_op = .WriteBit → s.svc.svc_phase = .Reset1 →
    s.svc.svc_cnt = 20 →
      (pulls 31 s).1 = List.replicate 20 RESET ++ List.replicate 5 (svcCmdPacket s.svc) ++ List.replicate 6 RESET ∧
      (pulls 30 s).2.mode = .Service ∧ (pulls 31 s).2.mode = .Off ∧ (pulls 31 s).2.bs.bs_run = false ∧
      (pulls 31 s).2.svc.svc_status = .Error ∧ (pulls 31 s).2.svc.svc_result = 0

/-! ### Mode and service commands -/

/-- R323 whole: accepted in every mode; a running service operation is cancelled with Error. -/
def Obligations.SetModeOff : Prop :=
  ∀ s : State,
    let off (st : SvcStatus) (res : Byte) : State := { s with
      mode := .Off
      resp := accepted
      cs := { s.cs with adc_run := false, adc_fifo := [] }
      bs := if s.bs.bs_run then { s.bs with bs_run := false, dcc_sig := .const false, dcc_pwr := .const false } else s.bs
      svc := { s.svc with
        svc_status := st, svc_result := res, svc_op := .None, svc_phase := .Reset1, svc_cnt := 0, svc_step := 0,
        ack_armed := false, ack_seen := false } }
    (s.mode = .Service → exec .setModeOff s = .next (off .Error 0)) ∧
    (s.mode ≠ .Service → exec .setModeOff s = .next (off s.svc.svc_status s.svc.svc_result)) ∧
    (Invariant s → s.mode = .Off → exec .setModeOff s = .next { s with resp := accepted })

/-- R324 whole: from Off the throttles restart, the ADC and the bit engine start; in Ops nothing changes. (In Service it is
refused: `CommandsRejectByPolicy`.) That the start leaves `adc_err_cnt` and the frame registers alone is the model's choice
against the table of R430 (log entry 25). -/
def Obligations.SetModeOps : Prop :=
  ∀ s : State,
    (s.mode = .Ops → exec .setModeOps s = .next { s with resp := accepted }) ∧
    (s.mode = .Service → exec .setModeOps s = .next { s with resp := rejected }) ∧
    (s.mode = .Off → ListOk s → exec .setModeOps s = .next { startOps { s with
      thr := s.thr.map (fun t => if t.valid then { t with seq := 0 } else t)
      rr_cursor := 0
      cs := { s.cs with
        cs_ring := List.replicate s.cfg.long_avg_n 0#12, cs_head := 0, adc_fifo := [], adc_run := true } } with
      mode := .Ops, resp := accepted })

/-- R325 to R330 whole for the accepted cases: each service command starts its operation from Off, and from Ops after the
effects of `set_mode_off`. (The refusals are `CommandsRejectBadOperands` and `CommandsRejectByPolicy`.) That the start leaves
`adc_err_cnt` and the frame registers alone is the model's choice against the table of R430 (log entry 25). -/
def Obligations.ServiceCommandsBegin : Prop :=
  ∀ (s : State) (cv bit : BitVec 16) (val : Byte),
    s.mode ≠ .Service → 1 ≤ cv.toNat → cv.toNat ≤ 1024 →
      let base : State := if s.mode = .Ops then modeOffEffects s else s
      let begun (op : SvcOp) (bit : BitVec 3) (bv : Bool) (v : Byte) (step : Nat) : State := { startSvc { base with
        svc := { base.svc with
          svc_op := op, svc_cv := BitVec.ofNat 10 (cv.toNat - 1), svc_bit_num := bit, svc_bit_val := bv, svc_val := v,
          svc_step := step, svc_phase := .Reset1, svc_cnt := 20, ack_armed := false, ack_seen := false,
          svc_status := .Busy, svc_result := 0 }
        cs := { base.cs with
          cs_ring := List.replicate s.cfg.long_avg_n 0#12, cs_head := 0, adc_fifo := [], adc_run := true } } with
        mode := .Service, resp := accepted }
      exec (.writeCv cv val) s = .next (begun .WriteByte 0 false val 0) ∧
      exec (.readCv cv) s = .next (begun .ReadByte 0 false 0 7) ∧
      (bit.toNat ≤ 7 → val.toNat ≤ 1 →
        exec (.writeBit cv bit val) s =
          .next (begun .WriteBit (BitVec.ofNat 3 bit.toNat) (decide (val.toNat = 1)) 0 0)) ∧
      (bit.toNat ≤ 7 → exec (.readBit cv bit) s = .next (begun .ReadBit (BitVec.ofNat 3 bit.toNat) false 0 0))

/-- The polls and the lookup (R333, R343, R386, R75): they answer and change no other register. The slot number a lookup
returns is the low 16 bits of the slot index, the model's choice for a table larger than `val` can name (log entry 16). -/
def Obligations.PollsOnlyAnswer : Prop :=
  ∀ (s : State) (a : BitVec 16),
    exec .svcDone s = .next { s with resp := match s.svc.svc_status with
      | .Idle => rejected
      | .Busy => rejected
      | .Success => { ok := true, isDone := true, val := 0#8 ++ s.svc.svc_result }
      | .Error => { ok := false, isDone := true, val := 0#8 ++ s.svc.svc_result } } ∧
    (∀ i, 1 ≤ a.toNat → a.toNat ≤ 10239 → ListOk s → i < s.thr.length → (thrAt s i).valid = true →
      (thrAt s i).address = a.setWidth 14 →
        exec (.findThrottle a) s = .next { s with resp := { ok := true, isDone := false, val := BitVec.ofNat 16 i } } ∧
        exec (.thrOpsDone a) s = .next { s with resp := { ok := (thrAt s i).ops_ok, isDone := (thrAt s i).ops_done,
                                                          val := 0#8 ++ (thrAt s i).ops_val } })

/-! ### Throttle management -/

/-- R340 and R373 for an address in range: an existing throttle is returned and nothing changes (R340's pseudocode; how
decision D30 is read beside it is log entry 26's inference); else the lowest free slot takes the values of the table, keeps
its generation, and enters the list before the first greater address, and every rotation restarts. `pkt_ops` is a free value that takes one draw (log entry 9), and the slot number is returned in 16 bits
(log entry 16): both the model's choice. -/
def Obligations.CreateThrottle : Prop :=
  ∀ (s : State) (a : BitVec 16), Invariant s → 1 ≤ a.toNat → a.toNat ≤ 10239 →
    (∀ i, i < s.thr.length → (thrAt s i).valid = true → (thrAt s i).address = a.setWidth 14 →
      exec (.createThrottle a) s = .next { s with resp := { ok := true, isDone := false, val := BitVec.ofNat 16 i } }) ∧
    ((∀ t ∈ s.thr, t.valid = true → t.address ≠ a.setWidth 14) → s.thr_list.length = s.cfg.max_throttles →
      exec (.createThrottle a) s = .next { s with resp := rejected }) ∧
    ((∀ t ∈ s.thr, t.valid = true → t.address ≠ a.setWidth 14) → s.thr_list.length < s.cfg.max_throttles →
      ∃ i t, exec (.createThrottle a) s = .next t ∧
        i < s.thr.length ∧ (thrAt s i).valid = false ∧ (∀ j, j < i → (thrAt s j).valid = true) ∧
        (∃ ops : DccPacket, thrAt t i =
          { valid := true, gen := (thrAt s i).gen, address := a.setWidth 14, speed := 0, functions := 0#69,
            pkt_speed := speedPacket (a.setWidth 14) 0, pkt_func := funcPackets s.cfg (a.setWidth 14) 0#69, seq := 0,
            read_cv_cnt := 0, write_cv_cnt := 0, write_bit_cnt := 0, pkt_ops := ops, ops_wr_val := 0#8,
            rc_speed := 0#8, rc_speed_time := 0, rc_speed_valid := false, ops_done := false, ops_ok := false,
            ops_val := 0#8 }) ∧
        (∀ j, j ≠ i → thrAt t j = if (thrAt s j).valid then { thrAt s j with seq := 0 } else thrAt s j) ∧
        t.thr_list = s.thr_list.takeWhile (fun j => addrOf s j < a.toNat) ++ [i] ++
          s.thr_list.dropWhile (fun j => addrOf s j < a.toNat) ∧
        t = { s with thr := t.thr, thr_list := t.thr_list, rr_cursor := 0, draws := s.draws + 1
                     resp := { ok := true, isDone := false, val := BitVec.ofNat 16 i } })

/-- R341 whole (with R374's naming) and R342 whole: delete frees the slot, counts its generation and makes every reference
to it stale; restart sorts the list, which on a list kept by R340 changes nothing, and resets the rotations. -/
def Obligations.DeleteAndRestartThrottles : Prop :=
  ∀ (s : State) (a : BitVec 16),
    (∀ i, 1 ≤ a.toNat → a.toNat ≤ 10239 → ListOk s → i < s.thr.length → (thrAt s i).valid = true →
      (thrAt s i).address = a.setWidth 14 →
        ∃ t, exec (.deleteThrottle a) s = .next t ∧
          t = { s with
            thr := s.thr.set i { thrAt s i with valid := false, gen := (thrAt s i).gen + 1 }
            thr_list := s.thr_list.erase i
            rr_cursor := 0
            resp := accepted } ∧
          (∀ r : ThrRef, r.slot = i → live s r = true → live t r = false)) ∧
    (∃ t, exec .restartThrottles s = .next t ∧ t.thr_list.Perm s.thr_list ∧
      t.thr_list.Pairwise (fun i j => addrOf t i ≤ addrOf t j) ∧
      t = { s with
        thr_list := t.thr_list
        thr := s.thr.map (fun t => if t.valid then { t with seq := 0 } else t)
        rr_cursor := 0
        resp := accepted } ∧
      (ListOk s → t.thr_list = s.thr_list))

/-- R345 for its four legal selectors: the named bit takes the value. -/
def Obligations.SetVerbosity : Prop :=
  ∀ (s : State) (on : Bool),
    exec (.setVerbosity 0 on) s = .next { s with trace := { s.trace with trace_dcc := on }, resp := accepted } ∧
    exec (.setVerbosity 1 on) s = .next { s with trace := { s.trace with trace_railcom := on }, resp := accepted } ∧
    exec (.setVerbosity 2 on) s = .next { s with trace := { s.trace with trace_speed := on }, resp := accepted } ∧
    exec (.setVerbosity 3 on) s = .next { s with trace := { s.trace with cmd_echo := on }, resp := accepted } ∧
    (∀ which : BitVec 16, 3 < which.toNat → exec (.setVerbosity which on) s = .next { s with resp := rejected })

/-! ### Throttles -/

/-- R371, R372 and R384 whole: a pending operation's packet goes out first and its counter counts, without advancing the
rotation; else the packet at `seq` goes out and `seq` advances modulo `SEQ_MAX`. -/
def Obligations.RotationAndOverrides : Prop :=
  ∀ (c : Config) (t : Throttle),
    (t.read_cv_cnt = 1 → nextPacket c t = (t.pkt_ops, { t with
      read_cv_cnt := 0, ops_done := true, ops_ok := false, ops_val := 0 })) ∧
    (2 ≤ t.read_cv_cnt → nextPacket c t = (t.pkt_ops, { t with read_cv_cnt := t.read_cv_cnt - 1 })) ∧
    (t.read_cv_cnt = 0 → t.write_cv_cnt = 1 → nextPacket c t = (t.pkt_ops, { t with
      write_cv_cnt := 0, ops_done := true, ops_ok := true, ops_val := t.ops_wr_val })) ∧
    (t.read_cv_cnt = 0 → 2 ≤ t.write_cv_cnt →
      nextPacket c t = (t.pkt_ops, { t with write_cv_cnt := t.write_cv_cnt - 1 })) ∧
    (t.read_cv_cnt = 0 → t.write_cv_cnt = 0 → t.write_bit_cnt = 1 → nextPacket c t = (t.pkt_ops, { t with
      write_bit_cnt := 0, ops_done := true, ops_ok := true, ops_val := t.ops_wr_val })) ∧
    (t.read_cv_cnt = 0 → t.write_cv_cnt = 0 → 2 ≤ t.write_bit_cnt →
      nextPacket c t = (t.pkt_ops, { t with write_bit_cnt := t.write_bit_cnt - 1 })) ∧
    (t.read_cv_cnt = 0 → t.write_cv_cnt = 0 → t.write_bit_cnt = 0 →
      (∀ k, t.seq = 2 * k →
        nextPacket c t = (t.pkt_speed, { t with seq := (t.seq + 1) % (2 * groupCount c.func_cap) })) ∧
      (∀ k p, t.seq = 2 * k + 1 → t.pkt_func[k]? = some p →
        nextPacket c t = (p, { t with seq := (t.seq + 1) % (2 * groupCount c.func_cap) })))

/-- R375 whole: speed, cached packet byte by byte, and the cleared low bit of `seq`; -128 is refused. -/
def Obligations.SetSpeed : Prop :=
  ∀ (s : State) (a : BitVec 16) (sp : Byte) (i : Nat),
    1 ≤ a.toNat → a.toNat ≤ 10239 → findSlot s (a.setWidth 14) = some i →
      let t := thrAt s i
      let speedByte : Byte := if 0 ≤ sp.toInt then 0x80#8 ||| sp else -sp
      (sp ≠ 0x80#8 → exec (.thrSetSpeed a sp) s = .next { s with
        thr := s.thr.set i { t with
          speed := sp.toInt, pkt_speed := buildPacket t.address [0x3F#8, speedByte], seq := 2 * (t.seq / 2) }
        resp := accepted }) ∧
      (sp = 0x80#8 → exec (.thrSetSpeed a sp) s = .next { s with resp := rejected })

/-- R376 whole: the one bit, the one cached packet, and the jump of `seq`; a number above `FMAX` is refused. -/
def Obligations.SetFunction : Prop :=
  ∀ (s : State) (a n : BitVec 16) (on : Bool) (i : Nat),
    1 ≤ a.toNat → a.toNat ≤ 10239 → findSlot s (a.setWidth 14) = some i →
      let t := thrAt s i
      let g := grp n.toNat
      (n.toNat ≤ fmax s.cfg.func_cap →
        ∃ f : BitVec 69, (∀ k, k < 69 → f.getLsbD k = if k = n.toNat then on else t.functions.getLsbD k) ∧
          g < groupCount s.cfg.func_cap ∧
          exec (.thrSetFunction a n on) s = .next { s with
            thr := s.thr.set i { t with
              functions := f, pkt_func := t.pkt_func.set g (funcPacket s.cfg g t.address f), seq := 2 * g + 1 }
            resp := accepted }) ∧
      (fmax s.cfg.func_cap < n.toNat → exec (.thrSetFunction a n on) s = .next { s with resp := rejected })

/-- R379 whole for an accepted address: every cached packet is rebuilt, the rotation and the cursor restart, and the list is
sorted again. -/
def Obligations.SetAddress : Prop :=
  ∀ (s : State) (a new : BitVec 16) (i : Nat),
    1 ≤ a.toNat → a.toNat ≤ 10239 → 1 ≤ new.toNat → new.toNat ≤ 10239 → findSlot s (a.setWidth 14) = some i →
    (thrAt s i).read_cv_cnt = 0 → (thrAt s i).write_cv_cnt = 0 → (thrAt s i).write_bit_cnt = 0 →
    (∀ j, j < s.thr.length → j ≠ i → (thrAt s j).valid = true → (thrAt s j).address ≠ new.setWidth 14) →
      let t := thrAt s i
      let b : BitVec 14 := new.setWidth 14
      ∃ u, exec (.thrSetAddress a new) s = .next u ∧
        u = { s with
          thr := s.thr.set i { t with
            address := b, pkt_speed := speedPacket b t.speed,
            pkt_func := (List.range (groupCount s.cfg.func_cap)).map (fun g => funcPacket s.cfg g b t.functions),
            seq := 0 }
          thr_list := u.thr_list
          rr_cursor := 0
          resp := accepted } ∧
        u.thr_list.Perm s.thr_list ∧ u.thr_list.Pairwise (fun j k => addrOf u j ≤ addrOf u k)

/-- R380 to R383 whole for accepted requests: the packet byte by byte, the cleared result and the repeat counter. -/
def Obligations.OpsRequests : Prop :=
  ∀ (s : State) (a cv : BitVec 16) (val : Byte) (bv : Bool) (bit : BitVec 3) (i : Nat),
    1 ≤ a.toNat → a.toNat ≤ 10239 → 1 ≤ cv.toNat → cv.toNat ≤ 1024 → findSlot s (a.setWidth 14) = some i →
    (thrAt s i).read_cv_cnt = 0 → (thrAt s i).write_cv_cnt = 0 → (thrAt s i).write_bit_cnt = 0 →
      let v : Nat := cv.toNat - 1
      let lo : Byte := BitVec.ofNat 8 v
      let hi : Byte := BitVec.ofNat 8 (v / 256)
      let t (op d : Byte) (wr : Byte) : Throttle := { thrAt s i with
        pkt_ops := buildPacket (thrAt s i).address [op ||| hi, lo, d], ops_wr_val := wr, ops_done := false,
        ops_ok := false, ops_val := 0 }
      let req (u : Throttle) : Host.Outcome State Fault Refusal :=
        .next { s with thr := s.thr.set i u, resp := accepted }
      exec (.thrReadCv a cv) s = req { t 0xE4#8 0 0 with read_cv_cnt := s.cfg.ops_cv_repeat } ∧
      exec (.thrWriteCv a cv val) s = req { t 0xEC#8 val val with write_cv_cnt := s.cfg.ops_cv_repeat } ∧
      exec (.thrWriteBit a cv bv bit) s =
        req { t 0xE8#8 (0xF0#8 ||| (if bv then 0x08#8 else 0x00#8) ||| bit.setWidth 8) (if bv then 1 else 0) with
          write_bit_cnt := s.cfg.ops_cv_repeat }

/-! ### Reset and invariants -/

/-- The table of R451, for every choice of the parameters: each value the spec gives. -/
def Obligations.ResetValues : Prop :=
  ∀ c : Config,
    let s := State.resetWith c
    s.cfg = c ∧ s.mode = .Off ∧ s.bs.bs_run = false ∧ s.cs.adc_run = false ∧ s.bs.preamble_bits = 14 ∧
    s.bs.railcom_enabled = c.railcom_enabled ∧ s.bs.slotA = { pkt := { bytes := [0xFF, 0, 0xFF] }, ref := none } ∧
    s.bs.slotB = { pkt := { bytes := [0xFF, 0, 0xFF] }, ref := none } ∧ s.bs.cur = .A ∧ s.bs.last_ref = none ∧
    s.bs.pos = .preamble 14 ∧ s.thr.length = c.max_throttles ∧ (∀ t ∈ s.thr, t.valid = false ∧ t.gen = 0) ∧
    s.thr_list = [] ∧ s.rr_cursor = 0 ∧ s.svc.svc_phase = .Reset1 ∧ s.svc.svc_cnt = 0 ∧ s.svc.svc_step = 0 ∧
    s.svc.svc_op = .None ∧ s.svc.svc_cv = 0 ∧ s.svc.svc_bit_num = 0 ∧ s.svc.svc_bit_val = false ∧ s.svc.svc_val = 0 ∧
    s.svc.svc_status = .Idle ∧ s.svc.svc_result = 0 ∧ s.svc.ack_seen = false ∧ s.svc.ack_armed = false ∧
    s.svc.ack_threshold_mA = 0 ∧ s.cs.adc_err_cnt = 0 ∧ s.trace.trace_dcc = false ∧ s.trace.trace_railcom = false ∧
    s.trace.trace_speed = false ∧ s.trace.cmd_echo = false ∧ s.cs.cs_ring = List.replicate c.long_avg_n 0#12 ∧
    s.cs.cs_head = 0 ∧ s.rc.rc_raw = List.replicate 8 0#8 ∧ s.rc.rc_cnt = 0 ∧ s.rc.rc_ch1 = none ∧ s.rc.rc_ch2 = [] ∧
    s.rc.uart_fifo = [] ∧ s.cs.adc_fifo = [] ∧ s.now = 0 ∧ s.trace.log_ring = [] ∧ s.cs.cap_log = [] ∧
    s.bs.dcc_sig = .const false ∧ s.bs.dcc_pwr = .const false

/-- R45 at reset: the invariant holds for every legal choice of the parameters. -/
def Obligations.InvariantAtReset : Prop :=
  ∀ c : Config, c.wf = true → Invariant (State.resetWith c)

/-- R45 and R17: every step, of every agent and every command, keeps the invariant. -/
def Obligations.StepKeepsInvariant : Prop :=
  ∀ s t : State, Invariant s → step s = .next t → Invariant t

/-- The table of R430 for the bit-end interrupt: the throttle list, the identity, speed, functions and cached packets of
every throttle, and the verbosity bits are "never" written by it, in any state. -/
def Obligations.InterruptWritesNoHostState : Prop :=
  ∀ s : State,
    let t := bitEnd s
    t.thr_list = s.thr_list ∧ t.thr.length = s.thr.length ∧
    (∀ j, (thrAt t j).valid = (thrAt s j).valid ∧ (thrAt t j).gen = (thrAt s j).gen ∧
      (thrAt t j).address = (thrAt s j).address ∧ (thrAt t j).speed = (thrAt s j).speed ∧
      (thrAt t j).functions = (thrAt s j).functions ∧ (thrAt t j).pkt_speed = (thrAt s j).pkt_speed ∧
      (thrAt t j).pkt_func = (thrAt s j).pkt_func ∧ (thrAt t j).pkt_ops = (thrAt s j).pkt_ops ∧
      (thrAt t j).ops_wr_val = (thrAt s j).ops_wr_val) ∧
    t.trace.trace_dcc = s.trace.trace_dcc ∧ t.trace.trace_railcom = s.trace.trace_railcom ∧
    t.trace.trace_speed = s.trace.trace_speed ∧ t.trace.cmd_echo = s.trace.cmd_echo ∧
    t.resp = s.resp ∧ t.codec = s.codec

end
end

