-- ==== Sys2Proof/Laws/Bits.lean ====
section
/-! SUPPORT. The bytes of the packet encodings taken apart: what the decoder reads back from
     a byte the encoder packs. -/

namespace Sys2Proof

theorem cvNumber_split (v : BitVec 10) : v.extractLsb' 8 2 ++ v.extractLsb' 0 8 = v := by
  ext i hi
  rw [BitVec.getElem_append]
  split
  · simp [BitVec.getLsbD_eq_getElem hi]
  · simp only [BitVec.getElem_extractLsb']
    rw [show 8 + (i - 8) = i by omega]
    simp [BitVec.getLsbD_eq_getElem hi]

theorem address_split (a : BitVec 14) : a.extractLsb' 8 6 ++ a.extractLsb' 0 8 = a := by
  ext i hi
  rw [BitVec.getElem_append]
  split
  · simp [BitVec.getLsbD_eq_getElem hi]
  · simp only [BitVec.getElem_extractLsb']
    rw [show 8 + (i - 8) = i by omega]
    simp [BitVec.getLsbD_eq_getElem hi]

/-- The fields of `pppp gg vv` (R103, R110). -/
theorem packed_low2 (p : BitVec 4) (g h : BitVec 2) : (p ++ g ++ h).extractLsb' 0 2 = h := by revert p g h; decide
theorem packed_mid2 (p : BitVec 4) (g h : BitVec 2) : (p ++ g ++ h).extractLsb' 2 2 = g := by revert p g h; decide
theorem packed_high4 (p : BitVec 4) (g h : BitVec 2) : (p ++ g ++ h).extractLsb' 4 4 = p := by revert p g h; decide

@[simp] theorem cvByte0_prefix (p : BitVec 4) (g : BitVec 2) (v : BitVec 10) :
    (cvByte0 p g v).extractLsb' 4 4 = p := packed_high4 ..
@[simp] theorem cvByte0_operation (p : BitVec 4) (g : BitVec 2) (v : BitVec 10) :
    (cvByte0 p g v).extractLsb' 2 2 = g := packed_mid2 ..
@[simp] theorem cvOf_cvBytes (p : BitVec 4) (g : BitVec 2) (v : BitVec 10) : cvOf (cvByte0 p g v) (cvByte1 v) = v := by
  simp only [cvOf, cvByte0, cvByte1, packed_low2, cvNumber_split]

/-- The opcode bytes of the feature-expansion groups are different where their five bits are, and are never `3Fh`. -/
@[simp] theorem featureByte_inj (a b : BitVec 5) : featureByte a = featureByte b ↔ a = b := by revert a b; decide
@[simp] theorem featureByte_ne_speed (a : BitVec 5) : featureByte a ≠ 0x3F#8 := by revert a; decide
@[simp] theorem speed_ne_featureByte (a : BitVec 5) : 0x3F#8 ≠ featureByte a := (featureByte_ne_speed a).symm

/-- The fields of `111KDBBB` (R103). -/
@[simp] theorem bitByte_prefix (k d : Bool) (b : BitVec 3) : (bitByte k d b).extractLsb' 5 3 = 0b111#3 := by
  revert k d b; decide
@[simp] theorem bitByte_write (k d : Bool) (b : BitVec 3) : (bitByte k d b).getLsbD 4 = k := by revert k d b; decide
@[simp] theorem bitByte_value (k d : Bool) (b : BitVec 3) : (bitByte k d b).getLsbD 3 = d := by revert k d b; decide
@[simp] theorem bitByte_index (k d : Bool) (b : BitVec 3) : (bitByte k d b).extractLsb' 0 3 = b := by
  revert k d b; decide

/-- The fields of `100FDDDD`, `1011DDDD`, `1010DDDD` (R100, R101). -/
theorem f0Byte_fields (f0 : Bool) (f : BitVec 4) :
    (0b100#3 ++ BitVec.ofBool f0 ++ f).extractLsb' 5 3 = 0b100#3 ∧ (0b100#3 ++ BitVec.ofBool f0 ++ f).getLsbD 4 = f0 ∧
    (0b100#3 ++ BitVec.ofBool f0 ++ f).extractLsb' 0 4 = f := by revert f0 f; decide
theorem f5Byte_fields (f : BitVec 4) :
    (0b1011#4 ++ f).extractLsb' 5 3 = 0b101#3 ∧ (0b1011#4 ++ f).extractLsb' 4 4 = 0b1011#4 ∧
    (0b1011#4 ++ f).extractLsb' 0 4 = f := by revert f; decide
theorem f9Byte_fields (f : BitVec 4) :
    (0b1010#4 ++ f).extractLsb' 5 3 = 0b101#3 ∧ (0b1010#4 ++ f).extractLsb' 4 4 = 0b1010#4 ∧
    (0b1010#4 ++ f).extractLsb' 0 4 = f := by revert f; decide

/-- The fields of `DSSSSSSS` (R99). -/
theorem speedByte_fields (d : Bool) (m : BitVec 7) :
    (BitVec.ofBool d ++ m).getLsbD 7 = d ∧ (BitVec.ofBool d ++ m).extractLsb' 0 7 = m := by revert d m; decide

/-- The first bytes of the address parts (R97). -/
theorem shortByte_fields (a : BitVec 7) :
    (0b0#1 ++ a).getLsbD 7 = false ∧ (0b0#1 ++ a).extractLsb' 0 7 = a ∧ (0b0#1 ++ a = 0x00#8 ↔ a = 0#7) ∧
    (0b0#1 ++ a).toNat = a.toNat := by revert a; decide
theorem longByte_fields (h : BitVec 6) :
    (0b11#2 ++ h).getLsbD 7 = true ∧ (0b11#2 ++ h).extractLsb' 6 2 = 0b11#2 ∧ (0b11#2 ++ h).extractLsb' 0 6 = h ∧
    (0b11#2 ++ h).toNat = 0xC0 + h.toNat ∧ 0b11#2 ++ h ≠ 0x00#8 := by revert h; decide

/-- The high six bits of an address are its quotient by 256. -/
theorem address_high (a : BitVec 14) : (a.extractLsb' 8 6).toNat = a.toNat / 256 := by
  have h := a.isLt
  simp only [BitVec.extractLsb'_toNat, Nat.shiftRight_eq_div_pow]
  omega

/-- A two-byte address in 1..10239 has its first byte in `C0h..E7h` (R97). -/
theorem longByte_range (a : BitVec 14) : (0b11#2 ++ a.extractLsb' 8 6).toNat ≤ 0xE7 ↔ a.toNat ≤ 10239 := by
  rw [(longByte_fields _).2.2.2.1, address_high]
  omega

/-! ### Bytes put together again from the fields the decoder reads -/

theorem cvBytes_cvOf (i0 i1 : Byte) : cvByte1 (cvOf i0 i1) = i1 ∧
    (cvOf i0 i1).extractLsb' 8 2 = i0.extractLsb' 0 2 := by
  constructor
  · simp only [cvByte1, cvOf]; ext i hi; simp only [BitVec.getElem_extractLsb', BitVec.getLsbD_append, Nat.zero_add, hi, if_true]; exact BitVec.getLsbD_eq_getElem hi
  · simp only [cvOf]; ext i hi; simp only [BitVec.getElem_extractLsb', BitVec.getLsbD_append]
    rw [if_neg (by omega)]; simp [show 8 + i - 8 = i by omega, BitVec.getLsbD_extractLsb', hi]

theorem byte_split_422 : ∀ b : Byte, (b.extractLsb' 4 4) ++ (b.extractLsb' 2 2) ++ b.extractLsb' 0 2 = b := by decide
theorem byte_split_3113 : ∀ b : Byte, b.extractLsb' 5 3 ++ BitVec.ofBool (b.getLsbD 4) ++ BitVec.ofBool
    (b.getLsbD 3) ++ b.extractLsb' 0 3 = b := by decide
theorem byte_split_44 : ∀ b : Byte, b.extractLsb' 4 4 ++ b.extractLsb' 0 4 = b := by decide
theorem byte_split_17 : ∀ b : Byte, BitVec.ofBool (b.getLsbD 7) ++ b.extractLsb' 0 7 = b := by decide
theorem byte_split_26 : ∀ b : Byte, b.extractLsb' 6 2 ++ b.extractLsb' 0 6 = b := by decide
theorem byte_split_53 : ∀ b : Byte, b.extractLsb' 3 5 ++ b.extractLsb' 0 3 = b := by decide
theorem byte_split_314 : ∀ b : Byte, b.extractLsb' 5 3 ++ BitVec.ofBool (b.getLsbD 4) ++ b.extractLsb' 0 4 = b :=
    by decide

theorem cvByte0_cvOf (p : BitVec 4) (g : BitVec 2) (i0 i1 : Byte) (h1 : i0.extractLsb' 4 4 = p)
    (h2 : i0.extractLsb' 2 2 = g) :
   cvByte0 p g (cvOf i0 i1) = i0 := by
  rw [cvByte0, (cvBytes_cvOf i0 i1).2, ← h1, ← h2, byte_split_422]

/-! ### The bytes of the CV forms as numbers (R103, R110) -/

theorem cvByte0_eq (p : BitVec 4) (g : BitVec 2) (v : BitVec 10) : cvByte0 p g v = (p ++ g ++ 0#2) |||
    (v >>> 8).setWidth 8 := by
  simp only [cvByte0]
  ext i hi
  simp only [BitVec.getElem_append, BitVec.getElem_or, BitVec.getElem_setWidth, BitVec.getElem_extractLsb', BitVec.getLsbD_ushiftRight]
  split
  · simp
  · rw [BitVec.getLsbD_of_ge v (8 + i) (by omega)]; simp

theorem cvByte1_eq (v : BitVec 10) : cvByte1 v = v.setWidth 8 := by
  simp only [cvByte1]; ext i hi; simp

theorem bitByte_eq (k b : Bool) (n : BitVec 3) : bitByte k b n =
    0xE0#8 ||| ((BitVec.ofBool k).setWidth 8 <<< 4) ||| ((BitVec.ofBool b).setWidth 8 <<< 3) ||| n.setWidth 8 := by
  revert k b n; decide

end Sys2Proof
end

