-- ==== Sys2Proof/Laws/Decode.lean ====
section
/-! SUPPORT. What the parts of the decoders answer on the bytes the parts of the encoder make. -/

namespace Sys2Proof

/-! ### Multifunction packets -/

/-- The seven feature-expansion opcodes of a well-formed configuration are pairwise different. -/
theorem Config.wf_features {c : Config} (h : c.wf = true) :
    [c.feature_exp.f13, c.feature_exp.f21, c.feature_exp.f29, c.feature_exp.f37, c.feature_exp.f45, c.feature_exp.f53,
      c.feature_exp.f61].Nodup := by
  simp only [Config.wf, Bool.and_eq_true, decide_eq_true_eq] at h
  exact h.2

theorem decodeMf_mfBytes {c : Config} (h : c.wf = true) (f : MfForm) : decodeMf c (mfBytes c f) = some f := by
  have hd := Config.wf_features h
  have hr := List.nodup_reverse.2 hd
  simp only [List.reverse_cons, List.reverse_nil, List.nil_append, List.cons_append, List.nodup_cons, List.mem_cons,
    not_or] at hd hr
  cases f with
  | speed128 d m => simp only [mfBytes, decodeMf, speedByte_fields, if_true]
  | funcF0 f0 f => simp only [mfBytes, decodeMf, f0Byte_fields, if_true]
  | funcF5 f => simp only [mfBytes, decodeMf, f5Byte_fields, if_true]; rfl
  | funcF9 f => simp only [mfBytes, decodeMf, f9Byte_fields, if_true]; rfl
  | opsCvVerify v d => simp [mfBytes, decodeMf]
  | opsCvWrite v d => simp [mfBytes, decodeMf]
  | opsCvBit v k d b => simp only [mfBytes, decodeMf, cvByte0_prefix, cvByte0_operation, bitByte_prefix, bitByte_write,
      bitByte_value, bitByte_index, cvOf_cvBytes]; rfl
  | funcF13 f => simp [mfBytes, decodeMf]
  | funcF21 f => simp [mfBytes, decodeMf, hr]
  | funcF29 f => simp [mfBytes, decodeMf, hr]
  | funcF37 f => simp [mfBytes, decodeMf, hr]
  | funcF45 f => simp [mfBytes, decodeMf, hr]
  | funcF53 f => simp [mfBytes, decodeMf, hr]
  | funcF61 f => simp [mfBytes, decodeMf, hr]

/-- The instruction bytes are 1 to 3 (R95). -/
theorem mfBytes_length (c : Config) (f : MfForm) : 1 ≤ (mfBytes c f).length ∧ (mfBytes c f).length ≤ 3 := by
  cases f <;> simp [mfBytes]

/-- A decoded form has all of its bytes: the other direction of `decodeMf_mfBytes`. -/
theorem mfBytes_of_decodeMf (c : Config) (ib : List Byte) (f : MfForm)
    (h : decodeMf c ib = some f) : mfBytes c f = ib := by
  unfold decodeMf at h
  split at h
  · rename_i i0
    split at h
    · rename_i e; cases h; have := byte_split_314 i0; rw [e] at this; simpa [mfBytes] using this
    · split at h
      · rename_i e; cases h; have := byte_split_44 i0; rw [e] at this; simp [mfBytes, this]
      · split at h
        · rename_i e; cases h; have := byte_split_44 i0; rw [e] at this; simp [mfBytes, this]
        · cases h
  · rename_i i0 i1
    repeat' (split at h)
    all_goals first | (cases h; done) | (cases h; simp_all only [mfBytes, byte_split_17])
  · rename_i i0 i1 i2
    split at h
    · rename_i e4
      split at h
      · rename_i e; cases h; simp [mfBytes, cvByte0_cvOf _ _ _ _ e4 e, cvBytes_cvOf]
      · split at h
        · rename_i e; cases h; simp [mfBytes, cvByte0_cvOf _ _ _ _ e4 e, cvBytes_cvOf]
        · split at h
          · rename_i e; cases h; 
            have := byte_split_3113 i2; rw [e.2] at this
            simp only [mfBytes, cvByte0_cvOf _ _ _ _ e4 e.1, cvBytes_cvOf, bitByte, this]
          · cases h
    · cases h
  · cases h

theorem splitAddr_short {a : BitVec 7} (h : shortOk a = true) (t : List Byte) :
    splitAddr (shortBytes a ++ t) = some (.short a, t) := by
  have := shortByte_fields a
  simp only [shortOk, bne_iff_ne, ne_eq] at h
  simp only [shortBytes, List.cons_append, List.nil_append, splitAddr]
  rw [if_pos ⟨this.1, fun e => h (this.2.2.1.1 e)⟩, this.2.1]

theorem splitAddr_long {a : BitVec 14} (h : longOk a = true) (t : List Byte) :
    splitAddr (longBytes a ++ t) = some (.long a, t) := by
  have := longByte_fields (a.extractLsb' 8 6)
  have h := of_decide_eq_true h
  simp only [longBytes, List.cons_append, List.nil_append, splitAddr]
  rw [if_neg (by simp [this.1]), if_pos ⟨this.2.1, (longByte_range a).2 h⟩, this.2.2.1, address_split]

theorem decodeMultifunction_short {c : Config} (hc : c.wf = true) {a : BitVec 7} (h : shortOk a = true) (f : MfForm)
    (x : Byte) : decodeMultifunction c (shortBytes a ++ mfBytes c f ++ [x]) = .ok (shortInstr a x f) := by
  simp only [decodeMultifunction, List.append_assoc, splitAddr_short h, List.dropLast_concat, decodeMf_mfBytes hc]
  simp

theorem decodeMultifunction_long {c : Config} (hc : c.wf = true) {a : BitVec 14} (h : longOk a = true) (f : MfForm)
    (x : Byte) : decodeMultifunction c (longBytes a ++ mfBytes c f ++ [x]) = .ok (longInstr a x f) := by
  simp only [decodeMultifunction, List.append_assoc, splitAddr_long h, List.dropLast_concat, decodeMf_mfBytes hc]
  simp

/-- A packet behind an address part is told from the other classes by its first byte (R76). -/
theorem decodePacket_short {c : Config} (hc : c.wf = true) {a : BitVec 7} (h : shortOk a = true) (f : MfForm)
    (x : Byte) : decode c (shortPacket c a f x) = .ok (shortInstr a x f) := by
  have hb := shortByte_fields a
  have hl := mfBytes_length c f
  have hne : 0b0#1 ++ a ≠ 0x00#8 := fun e => by
    simp only [shortOk, bne_iff_ne, ne_eq] at h
    exact h (hb.2.2.1.1 e)
  have hlt : ∀ b : BitVec 7, 0b0#1 ++ b ≠ 0xFF#8 ∧ (0b0#1 ++ b).extractLsb' 6 2 ≠ 0b10#2 ∧
      (0b0#1 ++ b).extractLsb' 3 5 ≠ 0b11101#5 ∧ (0b0#1 ++ b).extractLsb' 4 4 ≠ 0b1111#4 := by decide
  obtain ⟨h1, h2, h3, h4⟩ := hlt a
  rw [← decodeMultifunction_short hc h f x]
  simp only [decode, shortPacket, decodePacket, shortBytes, List.cons_append, List.nil_append, PKT_MAX_LEN,
    List.length_cons, List.length_append, List.length_nil, Bool.false_and]
  rw [if_neg (by omega), if_neg (by simp [hne]), if_neg (by simp [h1])]
  simp only [hne, h1, h2, h3, h4, if_false, Bool.false_eq_true]

theorem decodePacket_long {c : Config} (hc : c.wf = true) {a : BitVec 14} (h : longOk a = true) (f : MfForm)
    (x : Byte) : decode c (longPacket c a f x) = .ok (longInstr a x f) := by
  have hl := mfBytes_length c f
  have hr : a.toNat ≤ 10239 := of_decide_eq_true h
  have hlt : ∀ b : BitVec 6, (0b11#2 ++ b).toNat ≤ 0xE7 → 0b11#2 ++ b ≠ 0x00#8 ∧ 0b11#2 ++ b ≠ 0xFF#8 ∧
      (0b11#2 ++ b).extractLsb' 6 2 ≠ 0b10#2 ∧ (0b11#2 ++ b).extractLsb' 3 5 ≠ 0b11101#5 ∧
      (0b11#2 ++ b).extractLsb' 4 4 ≠ 0b1111#4 := by decide
  obtain ⟨h0, h1, h2, h3, h4⟩ := hlt _ ((longByte_range a).2 hr)
  rw [← decodeMultifunction_long hc h f x]
  simp only [decode, longPacket, decodePacket, longBytes, List.cons_append, List.nil_append, PKT_MAX_LEN,
    List.length_cons, List.length_append, List.length_nil, Bool.false_and]
  rw [if_neg (by omega), if_neg (by simp [h0]), if_neg (by simp [h1])]
  simp only [h0, h1, h2, h3, h4, if_false, Bool.false_eq_true]

/-! ### Service-mode packets -/

theorem isSvcDirect_cvByte0 (g : BitVec 2) (v : BitVec 10) (b1 b2 x : Byte) (hg : g ≠ 0#2) :
    isSvcDirect [cvByte0 0b0111#4 g v, b1, b2, x] = true := by
  simp [isSvcDirect, hg]

/-- With `svc = 1` the four bytes of a service-mode packet go to the service decoder (R165, R170). -/
theorem decodePacket_svc (c : Config) (g : BitVec 2) (v : BitVec 10) (b1 b2 x : Byte) (hg : g ≠ 0#2) :
    decode c (.packet true [cvByte0 0b0111#4 g v, b1, b2, x]) = decodeSvc [cvByte0 0b0111#4 g v, b1, b2, x] := by
  simp [decode, decodePacket, isSvcDirect_cvByte0 _ _ _ _ _ hg, PKT_MAX_LEN]

/-! ### Command words -/

theorem commandWord_fields (op : Byte) (a b : BitVec 16) (c : Byte) :
    cmdOp (op ++ a ++ b ++ c) = op ∧ cmdA (op ++ a ++ b ++ c) = a ∧ cmdB (op ++ a ++ b ++ c) = b ∧
    cmdC (op ++ a ++ b ++ c) = c := by
  refine ⟨?_, ?_, ?_, ?_⟩ <;>
  · ext i hi
    simp only [cmdOp, cmdA, cmdB, cmdC, BitVec.getElem_extractLsb', BitVec.getLsbD_append]
    repeat' split
    all_goals first
      | omega
      | (rw [← BitVec.getLsbD_eq_getElem hi]; congr 1; omega)

/-- The operand bits that share a byte (R131). -/
theorem flagByte_bit (b : Bool) : (0#7 ++ BitVec.ofBool b).getLsbD 0 = b := by revert b; decide
theorem bitArg_fields (v : Bool) (b : BitVec 3) :
    (0#4 ++ BitVec.ofBool v ++ b).getLsbD 3 = v ∧ (0#4 ++ BitVec.ofBool v ++ b).extractLsb' 0 3 = b := by
  revert v b; decide
theorem speedArg_low (x : Byte) : (0#8 ++ x).extractLsb' 0 8 = x := by
  ext i hi
  simp only [BitVec.getElem_extractLsb', BitVec.getLsbD_append, Nat.zero_add, hi, if_true]
  exact BitVec.getLsbD_eq_getElem hi

/-! ### RailCom -/

/-- Each of the 64 codes reads back as its datum (R245). -/
theorem rcClass_codeOf (v : RailcomVersion) (d : BitVec 6) : rcClass v (codeOf d) = .data d := by
  revert d; cases v <;> decide

/-- The two fields of a first symbol: packet identifier and the top payload bits (R120). -/
theorem firstSymbol (id : BitVec 4) (z : BitVec 2) :
    (id ++ z).extractLsb' 2 4 = id ∧ (id ++ z).extractLsb' 0 2 = z := by revert id z; decide

theorem xpomSymbol (ss z : BitVec 2) :
    (0b10#2 ++ ss ++ z).extractLsb' 4 2 = 0b10#2 ∧ (0b10#2 ++ ss ++ z).extractLsb' 2 2 = ss ∧
    (0b10#2 ++ ss ++ z).extractLsb' 0 2 = z ∧ rcLen ((0b10#2 ++ ss ++ z).extractLsb' 2 4) = some 6 := by
  revert ss z; decide

theorem val_split (v : Byte) : v.extractLsb' 6 2 ++ v.extractLsb' 0 6 = v := by revert v; decide

theorem payload_split (p : BitVec 14) : p.extractLsb' 12 2 ++ p.extractLsb' 6 6 ++ p.extractLsb' 0 6 = p := by
  ext i hi
  simp only [BitVec.getElem_append, BitVec.getElem_extractLsb']
  split
  · simp [BitVec.getLsbD_eq_getElem hi]
  · split
    · rw [show 6 + (i - 6) = i by omega]; simp [BitVec.getLsbD_eq_getElem hi]
    · rw [show 12 + (i - 6 - 6) = i by omega]; simp [BitVec.getLsbD_eq_getElem hi]

theorem dyn_split (v : Byte) (x : BitVec 6) :
    (v.extractLsb' 6 2 ++ v.extractLsb' 0 6 ++ x).extractLsb' 6 8 = v ∧
    (v.extractLsb' 6 2 ++ v.extractLsb' 0 6 ++ x).extractLsb' 0 6 = x := by
  rw [val_split]
  constructor
  · ext i hi
    simp only [BitVec.getElem_extractLsb', BitVec.getLsbD_append]
    simp [BitVec.getLsbD_eq_getElem hi]
  · ext i hi
    simp only [BitVec.getElem_extractLsb', BitVec.getLsbD_append]
    simp [hi]

theorem payload32_split (p : BitVec 32) : p.extractLsb' 30 2 ++ p.extractLsb' 24 6 ++ p.extractLsb' 18 6 ++
    p.extractLsb' 12 6 ++ p.extractLsb' 6 6 ++ p.extractLsb' 0 6 = p := by
  ext i hi
  simp only [BitVec.getElem_append, BitVec.getElem_extractLsb']
  repeat' split
  all_goals
    rw [← BitVec.getLsbD_eq_getElem hi]
    congr 1
    omega

theorem bytes32_split (d0 d1 d2 d3 : Byte) :
    (d0 ++ d1 ++ d2 ++ d3).extractLsb' 24 8 = d0 ∧ (d0 ++ d1 ++ d2 ++ d3).extractLsb' 16 8 = d1 ∧
    (d0 ++ d1 ++ d2 ++ d3).extractLsb' 8 8 = d2 ∧ (d0 ++ d1 ++ d2 ++ d3).extractLsb' 0 8 = d3 := by
  refine ⟨?_, ?_, ?_, ?_⟩ <;>
  · ext i hi
    simp only [BitVec.getElem_extractLsb', BitVec.getLsbD_append]
    repeat' split
    all_goals first
      | omega
      | (rw [← BitVec.getLsbD_eq_getElem hi]; congr 1; omega)

/-- The symbols of one message parse to it, whatever follows them (R248). -/
theorem rcMsg_msgRaw {v : RailcomVersion} {m : RcMsg} (hm : m = .bsy → v = .v2012) (t : List Sym) :
    rcMsg ((msgRaw m).map (rcClass v) ++ t) = some (m, t) := by
  cases m with
  | ack => cases v <;> rfl
  | nak => cases v <;> rfl
  | bsy => rw [hm rfl]; rfl
  | pom val =>
    simp only [msgRaw, List.map_cons, List.map_nil, rcClass_codeOf, List.cons_append, List.nil_append, rcMsg,
      firstSymbol]
    simp [rcLen, takeData, buildMsg, firstSymbol, val_split]
  | ahi val =>
    simp only [msgRaw, List.map_cons, List.map_nil, rcClass_codeOf, List.cons_append, List.nil_append, rcMsg,
      firstSymbol]
    simp [rcLen, takeData, buildMsg, firstSymbol, val_split]
  | alo val =>
    simp only [msgRaw, List.map_cons, List.map_nil, rcClass_codeOf, List.cons_append, List.nil_append, rcMsg,
      firstSymbol]
    simp [rcLen, takeData, buildMsg, firstSymbol, val_split]
  | ext p =>
    simp only [msgRaw, List.map_cons, List.map_nil, rcClass_codeOf, List.cons_append, List.nil_append, rcMsg,
      firstSymbol]
    simp [rcLen, takeData, buildMsg, firstSymbol, payload_split]
  | dyn val x =>
    simp only [msgRaw, List.map_cons, List.map_nil, rcClass_codeOf, List.cons_append, List.nil_append, rcMsg,
      firstSymbol]
    simp [rcLen, takeData, buildMsg, firstSymbol, dyn_split]
  | xpom ss d0 d1 d2 d3 =>
    simp only [msgRaw, List.map_cons, List.map_nil, rcClass_codeOf, List.cons_append, List.nil_append, rcMsg,
      xpomSymbol]
    simp [takeData, buildMsg, xpomSymbol, payload32_split, bytes32_split]

/-- The raw bytes of one message are decoded as that message. -/
theorem decodeFrame_msgRaw (c : Config) (m : RcMsg) (hm : m = .bsy → c.railcom_version = .v2012) :
    decode c (.frame (msgRaw m)) = .ok (msgInstr m) := by
  have h := rcMsg_msgRaw (v := c.railcom_version) hm []
  rw [List.append_nil] at h
  have hne : msgRaw m ≠ [0x0F#8] := by
    intro e
    have hx := h
    cases m <;> simp [msgRaw] at e
  simp only [decode, decodeFrame, hne, false_and, if_false, rcParse]
  have one : ∀ t, (msgRaw m).map (rcClass c.railcom_version) = t → (∀ v, m ≠ .ahi v) → (∀ v, m ≠ .alo v) → rcCh1 t =
      (none, t) := by
    intro t ht h1 h2
    have ht' := h; rw [ht] at ht'
    unfold rcCh1
    split
    · rename_i s0 s1 t'
      simp only [rcMsg] at ht'
      split at ht'
      · cases ht'
      · rename_i k hk
        split
        · rename_i e; rw [e] at hk; simp [rcLen] at hk; subst hk
          simp [takeData, buildMsg, e] at ht'
          exact absurd ht'.1.symm (h1 _)
        · split
          · rename_i e; rw [e] at hk; simp [rcLen] at hk; subst hk
            simp [takeData, buildMsg, e] at ht'
            exact absurd ht'.1.symm (h2 _)
          · rfl
    · rfl
  have ch2 : rcCh2 ((msgRaw m).map (rcClass c.railcom_version)) = [m] := by
    simp only [rcCh2]
    generalize ht : (msgRaw m).map (rcClass c.railcom_version) = t at h
    cases t with
    | nil => simp [rcMsg] at h
    | cons a t => simp [rcCh2Loop, h]
  cases m with
  | ahi v => simp [msgRaw, rcClass_codeOf, rcCh1, firstSymbol, val_split, rcCh2, rcCh2Loop, msgInstr]
  | alo v => simp [msgRaw, rcClass_codeOf, rcCh1, firstSymbol, val_split, rcCh2, rcCh2Loop, msgInstr]
  | _ => rw [one _ rfl (by simp) (by simp)]; simp [ch2]

end Sys2Proof
end

