-- ==== Sys2Proof/Laws/Codec.lean ====
section
/-! SUPPORT. What the codec's functions answer: the checksum, the address part, and the class and fields of the packets
the encoders build (40_packet_codec.md R141 to R180). -/

namespace Sys2Proof.Machine

/-! ### Checksum (R143, R144) -/

theorem xorBytes_append (l m : List Byte) : xorBytes (l ++ m) = xorBytes l ^^^ xorBytes m := by
  induction l with
  | nil => simp [xorBytes]
  | cons b t ih => simp [xorBytes, ih, BitVec.xor_assoc]

theorem xorBytes_checksum (l : List Byte) : xorBytes (l ++ [xorBytes l]) = 0#8 := by
  simp [xorBytes_append, xorBytes]

/-! ### The address part (R97, R141, R142) -/

theorem getAddress_short {a : BitVec 7} (h : a ≠ 0#7) (t : List Byte) :
    getAddress (shortBytes a ++ t) = some (a.toNat, 1) := by
  have hb := shortByte_fields a
  have hz : a.toNat ≠ 0 := fun e => h (BitVec.eq_of_toNat_eq (by simpa using e))
  have hlt := a.isLt
  simp only [shortBytes, List.cons_append, List.nil_append, getAddress, hb.2.2.2]
  rw [if_pos ⟨by omega, by omega⟩]

theorem getAddress_long {a : BitVec 14} (h : a.toNat ≤ 10239) (t : List Byte) :
    getAddress (longBytes a ++ t) = some (a.toNat, 2) := by
  have hb := longByte_fields (a.extractLsb' 8 6)
  have hr := (longByte_range a).2 h
  have hm : ∀ z : BitVec 6, ((0b11#2 ++ z) &&& 0x3F#8).toNat = z.toNat := by decide
  simp only [longBytes, List.cons_append, List.nil_append, getAddress, hm]
  rw [if_neg (by rw [hb.2.2.2.1]; omega), if_pos ⟨by rw [hb.2.2.2.1]; omega, hr⟩]
  have hc := congrArg BitVec.toNat (address_split a)
  rw [BitVec.toNat_append] at hc
  simpa using hc

/-- An address in range is one byte or two (R97). -/
theorem addrBytes_eq (a : BitVec 14) :
    addrBytes a = if a.toNat ≤ 127 then shortBytes (a.setWidth 7) else longBytes a := by
  unfold addrBytes
  by_cases h : a.toNat ≤ 127
  · rw [if_pos h, if_pos (show a.toNat ≤ ADDR_SHORT_MAX from h), shortBytes, List.cons.injEq]
    refine ⟨BitVec.eq_of_toNat_eq ?_, rfl⟩
    rw [(shortByte_fields _).2.2.2]
    simp
    omega
  · rw [if_neg h, if_neg (show ¬ a.toNat ≤ ADDR_SHORT_MAX from h)]

theorem getAddress_addrBytes {a : BitVec 14} (h1 : 1 ≤ a.toNat) (h2 : a.toNat ≤ 10239) (t : List Byte) :
    getAddress (addrBytes a ++ t) = some (a.toNat, (addrBytes a).length) := by
  rw [addrBytes_eq]
  split
  · rename_i h
    have hn : (a.setWidth 7).toNat = a.toNat := by simp; omega
    have hz : a.setWidth 7 ≠ 0#7 := fun e => by rw [e] at hn; simp at hn; omega
    rw [getAddress_short hz, hn]; rfl
  · exact getAddress_long h2 t

theorem addrBytes_length (a : BitVec 14) : 1 ≤ (addrBytes a).length ∧ (addrBytes a).length ≤ 2 := by
  rw [addrBytes_eq]; split <;> simp [shortBytes, longBytes]

/-! ### Packets built by the encoders (R145, R180 clauses 1 and 2) -/

theorem buildPacket_xor (a : BitVec 14) (l : List Byte) : xorBytes (buildPacket a l).bytes = 0#8 := xorBytes_checksum _

theorem buildPacket_len (a : BitVec 14) {l : List Byte} (h : 1 ≤ l.length ∧ l.length ≤ 3) :
    3 ≤ (buildPacket a l).len ∧ (buildPacket a l).len ≤ 6 := by
  have := addrBytes_length a
  simp only [buildPacket, DccPacket.len, List.length_append, List.length_cons, List.length_nil]
  omega

theorem buildPacket_ok (a : BitVec 14) {l : List Byte} (h : 1 ≤ l.length ∧ l.length ≤ 3) : (buildPacket a l).Ok :=
  ⟨(buildPacket_len a h).1, Nat.le_trans (buildPacket_len a h).2 (by decide), buildPacket_xor a l⟩

theorem funcInstr_length (c : Config) (g : Nat) (b : Byte) :
    1 ≤ (funcInstr c g b).length ∧ (funcInstr c g b).length ≤ 3 := by
  unfold funcInstr; split <;> simp

theorem speedPacket_ok (a : BitVec 14) (s : Int) : (speedPacket a s).Ok := buildPacket_ok a (by simp [speedInstr])
theorem funcPacket_ok (c : Config) (g : Nat) (a : BitVec 14) (f : BitVec 69) : (funcPacket c g a f).Ok :=
  buildPacket_ok a (funcInstr_length c g _)
theorem opsVerifyPacket_ok (a : BitVec 14) (v : BitVec 10) (d : Byte) : (opsVerifyPacket a v d).Ok :=
  buildPacket_ok a (by simp [cvInstr])
theorem opsWritePacket_ok (a : BitVec 14) (v : BitVec 10) (d : Byte) : (opsWritePacket a v d).Ok :=
  buildPacket_ok a (by simp [cvInstr])
theorem opsBitPacket_ok (a : BitVec 14) (v : BitVec 10) (k d : Bool) (b : BitVec 3) : (opsBitPacket a v k d b).Ok :=
  buildPacket_ok a (by simp [cvInstr])

theorem plainPacket_ok (pre : BitVec 4) (op : BitVec 2) (v : BitVec 10) (d : Byte) : (plainPacket
    (cvInstr pre op v d)).Ok :=
  ⟨(by decide : 3 ≤ 4), (by decide : 4 ≤ 8), xorBytes_checksum _⟩
theorem idle_ok : IDLE.Ok := ⟨by decide, by decide, by decide⟩
theorem reset_ok : RESET.Ok := ⟨by decide, by decide, by decide⟩

/-! ### Classes (R165) -/

theorem mfClassOf_mfBytes {c : Config} (h : c.wf = true) (f : MfForm) : mfClassOf c (mfBytes c f) = mfClass f := by
  have hd := Config.wf_features h
  have hr := List.nodup_reverse.2 hd
  simp only [List.reverse_cons, List.reverse_nil, List.nil_append, List.cons_append, List.nodup_cons, List.mem_cons,
    not_or] at hr
  have hf : ∀ x : BitVec 5, (featureByte x).extractLsb' 5 3 ≠ 0b100#3 ∧ (featureByte x).extractLsb' 4 4 ≠ 0b1011#4 ∧
      (featureByte x).extractLsb' 4 4 ≠ 0b1010#4 := by decide
  cases f with
  | speed128 d m => simp [mfClassOf, mfBytes, mfClass]
  | funcF0 f0 f => 
    have : ∀ f0 (f : BitVec 4), 0b100#3 ++ BitVec.ofBool f0 ++ f ≠ 0x3F#8 := by decide
    simp [mfClassOf, mfBytes, mfClass, f0Byte_fields, this]
  | funcF5 f => simp only [mfClassOf, mfBytes, mfClass, List.headD, f5Byte_fields, List.length_cons, List.length_nil]; simp
  | funcF9 f => simp only [mfClassOf, mfBytes, mfClass, List.headD, f9Byte_fields, List.length_cons, List.length_nil]; simp
  | opsCvVerify v d => simp only [mfClassOf, mfBytes, mfClass, List.headD, List.length_cons, List.length_nil, cvByte0_prefix, cvByte0_operation]; simp
  | opsCvWrite v d => simp only [mfClassOf, mfBytes, mfClass, List.headD, List.length_cons, List.length_nil, cvByte0_prefix, cvByte0_operation]; simp
  | opsCvBit v k d b => 
    simp only [mfClassOf, mfBytes, mfClass, List.headD, List.length_cons, List.length_nil, cvByte0_prefix,
      cvByte0_operation, List.getD_cons_succ, List.getD_cons_zero, bitByte_prefix]; simp
  | _ f => simp [mfClassOf, mfBytes, mfClass, hf, hr]

/-- An address part the decoder accepts, and the address it reads (R142): one byte,
    or two with any value up to 10239. -/
inductive AddressPart : List Byte → Nat → Prop where
  | short (a : BitVec 7) (h : a ≠ 0#7) : AddressPart (shortBytes a) a.toNat
  | long (a : BitVec 14) (h : a.toNat ≤ 10239) : AddressPart (longBytes a) a.toNat

theorem addressPart_addrBytes {a : BitVec 14} (h1 : 1 ≤ a.toNat) (h2 : a.toNat ≤ 10239) :
    AddressPart (addrBytes a) a.toNat := by
  rw [addrBytes_eq]
  split
  · have hn : (a.setWidth 7).toNat = a.toNat := by simp; omega
    have hz : a.setWidth 7 ≠ 0#7 := fun e => by rw [e] at hn; simp at hn; omega
    rw [← hn]
    exact .short _ hz
  · exact .long _ h2

theorem getAddress_part {l : List Byte} {a : Nat} (h : AddressPart l a) (t : List Byte) :
    getAddress (l ++ t) = some (a, l.length) := by
  cases h with
  | short a h => exact getAddress_short h t
  | long a h => exact getAddress_long h t

/-- A packet behind an address part, with a good checksum, has the class of its instruction bytes (R165), whatever the
context bit if it is not taken for a service-mode packet. -/
theorem decodeType_multifunction (c : Config) {l : List Byte} {a : Nat} (h : AddressPart l a) (ib : List Byte)
    (hi : 1 ≤ ib.length ∧ ib.length ≤ 3) (x : Byte) (svc : Bool) (hs : (svc && isSvcDirect (l ++ ib ++ [x])) = false) :
    decodeType c { bytes := l ++ ib ++ [x] } svc =
      if xorBytes (l ++ ib ++ [x]) = 0#8 then mfClassOf c ib else .Invalid := by
  have hg := getAddress_part h (ib ++ [x])
  have hfirst : ∃ b t, l ++ ib ++ [x] = b :: t ∧ b ≠ 0x00#8 ∧ b ≠ 0xFF#8 ∧ ¬ (0x80 ≤ b.toNat ∧ b.toNat ≤ 0xBF) ∧
      ¬ (0xE8 ≤ b.toNat ∧ b.toNat ≤ 0xFE) ∧ 1 ≤ l.length ∧ l.length ≤ 2 := by
    cases h with
    | short a h =>
      have : ∀ a : BitVec 7, a ≠ 0#7 → 0b0#1 ++ a ≠ 0x00#8 ∧ 0b0#1 ++ a ≠ 0xFF#8 ∧ ¬ (0x80 ≤ (0b0#1 ++ a).toNat ∧
        (0b0#1 ++ a).toNat ≤ 0xBF) ∧ ¬ (0xE8 ≤ (0b0#1 ++ a).toNat ∧ (0b0#1 ++ a).toNat ≤ 0xFE) := by decide
      exact ⟨_, _, rfl, (this a h).1, (this a h).2.1, (this a h).2.2.1, (this a h).2.2.2, by simp [shortBytes],
        by simp [shortBytes]⟩
    | long a h =>
      have : ∀ b : BitVec 6, (0b11#2 ++ b).toNat ≤ 0xE7 → 0b11#2 ++ b ≠ 0x00#8 ∧ 0b11#2 ++ b ≠ 0xFF#8 ∧
        ¬ (0x80 ≤ (0b11#2 ++ b).toNat ∧ (0b11#2 ++ b).toNat ≤ 0xBF) ∧
        ¬ (0xE8 ≤ (0b11#2 ++ b).toNat ∧ (0b11#2 ++ b).toNat ≤ 0xFE) := by decide
      have := this _ ((longByte_range a).2 h)
      exact ⟨_, _, rfl, this.1, this.2.1, this.2.2.1, this.2.2.2, by simp [longBytes], by simp [longBytes]⟩
  obtain ⟨b, t, e, h0, hff, hacc, hres, hl1, hl2⟩ := hfirst
  have hdrop : (List.drop l.length (l ++ (ib ++ [x]))).dropLast = ib := by simp
  have hlen : (l ++ ib ++ [x]).length = l.length + ib.length + 1 := by simp [Nat.add_assoc]
  rw [← List.append_assoc] at hg hdrop
  have hsvc : ¬ (svc = true ∧ (DccPacket.mk (l ++ ib ++ [x])).len = 4 ∧
      ((l ++ ib ++ [x]).headD 0#8).extractLsb' 4 4 = 0b0111#4 ∧
      ((l ++ ib ++ [x]).headD 0#8).extractLsb' 2 2 ≠ 0b00#2) := by
    rintro ⟨h1, h2, h3, h4⟩
    rw [h1] at hs
    revert hs h2 h3 h4
    generalize l ++ ib ++ [x] = z
    intro hs h2 h3 h4
    match z, h2 with
    | [b0, b1, b2, b3], _ => simp [isSvcDirect, List.headD] at hs h3 h4; exact h4 (hs h3)
  unfold decodeType
  simp only [DccPacket.len, hlen, PKT_MAX_LEN, checkXor, hg, hdrop] at hsvc ⊢
  rw [if_neg (by omega)]
  by_cases hx : xorBytes (l ++ ib ++ [x]) = 0#8
  · rw [if_neg (by simp only [hx]; simp), if_neg (by rw [e]; simp [h0]), if_neg (by rw [e]; simp [hff]), if_neg hsvc,
      if_neg (by rw [e]; simp [h0, hff]), if_neg (by rw [e]; exact hacc), if_neg (by rw [e]; exact hres), if_pos hx]
  · rw [if_pos (by simp only [beq_iff_eq, hx, Bool.and_eq_true, and_false, not_false_eq_true]), if_neg hx]

/-- The class of a packet of a form is the form's. -/
theorem decodeType_form {c : Config} (hc : c.wf = true) {l : List Byte} {a : Nat} (h : AddressPart l a) (f : MfForm)
    (x : Byte) (svc : Bool) (hs : (svc && isSvcDirect (l ++ mfBytes c f ++ [x])) = false) :
    decodeType c { bytes := l ++ mfBytes c f ++ [x] } svc =
      if xorBytes (l ++ mfBytes c f ++ [x]) = 0#8 then mfClass f else .Invalid := by
  rw [decodeType_multifunction c h _ (mfBytes_length c f) x svc hs, mfClassOf_mfBytes hc]

/-- The fields of a multifunction packet are the operands of its form (R166 to R168). -/
theorem decodeFields_form {c : Config} (hc : c.wf = true) {l : List Byte} {a : Nat} (h : AddressPart l a) (f : MfForm)
    (x : Byte) (hx : xorBytes (l ++ mfBytes c f ++ [x]) = 0#8) :
    decodeFields c { bytes := l ++ mfBytes c f ++ [x] } (mfClass f) = mfFields a f := by
  have ht := decodeType_form hc h f x false rfl
  rw [if_pos hx] at ht
  have hg := getAddress_part h (mfBytes c f ++ [x])
  rw [← List.append_assoc] at hg
  have hget : ∀ k, (l ++ mfBytes c f ++ [x]).getD (l.length + k) 0#8 = (mfBytes c f ++ [x]).getD k 0#8 := by
    intro k
    rw [List.append_assoc, List.getD_append_right _ _ _ _ (by omega)]
    congr 1
    omega
  have hget0 := hget 0
  rw [Nat.add_zero] at hget0
  have hf0 : ∀ (f0 : Bool) (f : BitVec 4), (0b100#3 ++ BitVec.ofBool f0 ++ f).getLsbD 4 = f0 := by decide
  cases f with
  | speed128 d m =>
    simp only [mfClass] at ht
    simp only [decodeFields, mfClass, decodeSpeed128, ht, if_true, hg, Option.map_some, hget]
    simp only [mfBytes, List.cons_append, List.nil_append, List.getD_cons_succ, List.getD_cons_zero, speedByte_fields,
      mfFields, signedSpeed]
  | funcF0 f0 f =>
    simp only [mfClass] at ht
    simp only [decodeFields, mfClass, decodeFunc, funcClass, ht, if_true, hg, Option.map_some, hget0]
    simp only [mfBytes, List.cons_append, List.nil_append, List.getD_cons_zero, f0Byte_fields, mfFields]
  | funcF5 f =>
    simp only [mfClass] at ht
    simp only [decodeFields, mfClass, decodeFunc, funcClass, ht, if_true, hg, Option.map_some, hget0]
    simp only [mfBytes, List.cons_append, List.nil_append, List.getD_cons_zero, f5Byte_fields, mfFields]
    rfl
  | funcF9 f =>
    simp only [mfClass] at ht
    simp only [decodeFields, mfClass, decodeFunc, funcClass, ht, if_true, hg, Option.map_some, hget0]
    simp only [mfBytes, List.cons_append, List.nil_append, List.getD_cons_zero, f9Byte_fields, mfFields]
    rfl
  | opsCvVerify v d =>
    simp only [decodeFields, mfClass, hg, cvFields, hget, hget0]
    simp [mfBytes, mfFields]
  | opsCvWrite v d =>
    simp only [decodeFields, mfClass, hg, cvFields, hget, hget0]
    simp [mfBytes, mfFields]
  | opsCvBit v k d b =>
    simp only [decodeFields, mfClass, hg, cvFields, hget, hget0]
    simp only [mfBytes, List.cons_append, List.nil_append, List.getD_cons_succ, List.getD_cons_zero, cvOf_cvBytes,
      bitByte_write, bitByte_value, bitByte_index, mfFields]
    rfl
  | _ f =>
    simp only [mfClass] at ht
    simp only [decodeFields, mfClass, decodeFunc, funcClass, ht, if_true, hg, Option.map_some, hget]
    simp [mfBytes, mfFields]

/-- The decoder's whole answer for a packet of a form is the form's own. -/
theorem codecReport_form {c : Config} (hc : c.wf = true) {l : List Byte} {a : Nat} (h : AddressPart l a) (f : MfForm)
    (x : Byte) (svc : Bool) (hs : (svc && isSvcDirect (l ++ mfBytes c f ++ [x])) = false) :
    codecReport c svc { bytes := l ++ mfBytes c f ++ [x] } =
      formAnswer c (.packet false (l ++ mfBytes c f ++ [x])) (mfClass f) (mfFields a f) := by
  have hl := mfBytes_length c f
  simp only [codecReport, formAnswer, wordBytes, decodeType_form hc h f x svc hs]
  by_cases hx : xorBytes (l ++ mfBytes c f ++ [x]) = 0#8
  · have hck : checkXor { bytes := l ++ mfBytes c f ++ [x] } = true := by
      simp only [checkXor, hx, DccPacket.len, List.length_append, List.length_cons, List.length_nil, beq_self_eq_true,
        Bool.and_true, decide_eq_true_eq]
      omega
    simp only [if_pos hx, decodeFields_form hc h f x hx, hck, if_true]
  · have hck : checkXor { bytes := l ++ mfBytes c f ++ [x] } = false := by
      simp only [checkXor, beq_eq_false_iff_ne.2 hx, Bool.and_false]
    simp only [if_neg hx, hck, Bool.false_eq_true, if_false]
    rfl

/-- The decoder's answer for a service-mode packet, in the service context. -/
theorem codecReport_svc (c : Config) (g : BitVec 2) (v : BitVec 10) (b2 x : Byte) (hg : g ≠ 0#2) (k : DccClass)
    (f : DccFields)
    (hk : (if g = 0b01#2 then DccClass.SvcVerifyByte else if g = 0b11#2 then .SvcWriteByte
      else if b2.extractLsb' 5 3 = 0b111#3 then .SvcBit else .Unclassified) = k)
    (hf : decodeFields c { bytes := [cvByte0 0b0111#4 g v, cvByte1 v, b2, x] } k = f) :
    codecReport c true { bytes := [cvByte0 0b0111#4 g v, cvByte1 v, b2, x] } =
      formAnswer c (.packet true [cvByte0 0b0111#4 g v, cvByte1 v, b2, x]) k f := by
  have hc : checkXor { bytes := [cvByte0 0b0111#4 g v, cvByte1 v, b2, x] } =
      (xorBytes [cvByte0 0b0111#4 g v, cvByte1 v, b2, x] == 0#8) := by
    simp [checkXor, DccPacket.len]
  have ht : decodeType c { bytes := [cvByte0 0b0111#4 g v, cvByte1 v, b2, x] } true =
      if xorBytes [cvByte0 0b0111#4 g v, cvByte1 v, b2, x] = 0#8 then k else .Invalid := by
    unfold decodeType
    simp only [hc]
    simp [PKT_MAX_LEN, hg, DccPacket.len]
    by_cases hx : xorBytes [cvByte0 0b0111#4 g v, cvByte1 v, b2, x] = 0#8 <;> simp [hx, ← hk]
  simp only [codecReport, formAnswer, wordBytes, ht, hc]
  by_cases hx : xorBytes [cvByte0 0b0111#4 g v, cvByte1 v, b2, x] = 0#8
  · simp only [hx, if_true, hf]; simp
  · simp only [beq_iff_eq, hx, if_false]; rfl

/-- The decoder's answer for a packet told by its first byte alone (R171 to R173). -/
theorem codecReport_firstByte (c : Config) (svc : Bool) (b0 : Byte) (t : List Byte) (k : DccClass) (w : Bool)
    (hl : 2 ≤ t.length ∧ t.length ≤ 7) (hb : ¬ (b0.extractLsb' 4 4 = 0b0111#4)) 
    (h0 : ¬ (b0 = 0 ∧ t = [0, 0])) (hff : ¬ (b0 = 0xFF ∧ t = [0, 0xFF]))
    (hk : (if b0 = 0x00#8 ∨ b0 = 0xFF#8 then DccClass.Unclassified
  else if 0x80 ≤ b0.toNat ∧ b0.toNat ≤ 0xBF then .Accessory
  else if 0xE8 ≤ b0.toNat ∧ b0.toNat ≤ 0xFE then .Reserved else .Invalid) = k) (hki : k ≠ .Invalid):
    codecReport c svc { bytes := b0 :: t } = formAnswer c (.packet w (b0 :: t)) k .none := by
  have hc : checkXor { bytes := b0 :: t } = (xorBytes (b0 :: t) == 0#8) := by
    simp [checkXor, DccPacket.len]
  have ht : decodeType c { bytes := b0 :: t } svc =
      if xorBytes (b0 :: t) = 0#8 then k else .Invalid := by
    unfold decodeType
    simp only [hc, DccPacket.len, List.length_cons, PKT_MAX_LEN]
    rw [if_neg (by omega)]
    by_cases hx : xorBytes (b0 :: t) = 0#8
    · simp only [hx, List.headD, hb, List.cons.injEq, if_true]
      simp only [beq_self_eq_true, not_true, if_false, false_and, and_false]
      rw [if_neg (by simpa using h0), if_neg (by simpa using hff)]
      subst hk
      by_cases c1 : b0 = 0x00#8 ∨ b0 = 0xFF#8
      · simp only [c1, if_true]
      by_cases c2 : 0x80 ≤ b0.toNat ∧ b0.toNat ≤ 0xBF
      · simp only [c1, c2, if_true, if_false, and_self]
      by_cases c3 : 0xE8 ≤ b0.toNat ∧ b0.toNat ≤ 0xFE
      · simp only [c1, c2, c3, if_true, if_false, and_self]
      · rw [if_neg c1, if_neg c2, if_neg c3] at hki; exact absurd rfl hki
    · simp [hx]
  simp only [codecReport, formAnswer, wordBytes, ht, hc]
  have hkk : k = .Unclassified ∨ k = .Accessory ∨ k = .Reserved ∨ k = .Invalid := by
    revert hk; repeat' split
    all_goals (intro e; simp [← e])
  by_cases hx : xorBytes (b0 :: t) = 0#8
  · simp only [hx, if_true]; rcases hkk with rfl|rfl|rfl|rfl <;> simp [decodeFields, encodeFields]
  · simp only [beq_iff_eq, hx, if_false]; rfl

theorem codecReport_short {c : Config} (hc : c.wf = true) {a : BitVec 7} (h : shortOk a = true) (f : MfForm)
    (x : Byte) (svc : Bool) (hs : (svc && isSvcDirect (wordBytes (shortPacket c a f x))) = false) :
   codecReport c svc { bytes := wordBytes (shortPacket c a f x) } = formAnswer c (shortPacket c a f x) (mfClass f)
      (mfFields a.toNat f) := by
  simp only [shortOk, bne_iff_ne] at h
  exact codecReport_form hc (.short a h) f x svc hs
theorem codecReport_long {c : Config} (hc : c.wf = true) {a : BitVec 14} (h : longOk a = true) (f : MfForm)
    (x : Byte) (svc : Bool) (hs : (svc && isSvcDirect (wordBytes (longPacket c a f x))) = false) :
   codecReport c svc { bytes := wordBytes (longPacket c a f x) } = formAnswer c (longPacket c a f x) (mfClass f)
      (mfFields a.toNat f) :=
  codecReport_form hc (.long a (of_decide_eq_true h)) f x svc hs

/-! ### The encoders on operands in range -/

theorem build_inRange {a : Nat} (h1 : 1 ≤ a) (h2 : a ≤ 10239) (l : List Byte) :
    build a l = some (buildPacket (BitVec.ofNat 14 a) l) := by
  exact if_neg (by simp only [ADDR_MIN, ADDR_MAX]; omega)

theorem addressPart_ofNat {a : Nat} (h1 : 1 ≤ a) (h2 : a ≤ 10239) : AddressPart (addrBytes (BitVec.ofNat 14 a)) a := by
  have hn : (BitVec.ofNat 14 a).toNat = a := by simp; omega
  have := addressPart_addrBytes (a := BitVec.ofNat 14 a) (by omega) (by omega)
  rwa [hn] at this

theorem cvArg_inRange {n : Nat} (h1 : 1 ≤ n) (h2 : n ≤ 1024) :
    ∃ v : BitVec 10, cvArg n = some v ∧ v.toNat + 1 = n := by
  refine ⟨BitVec.ofNat 10 (n - 1), ?_, ?_⟩
  · exact if_neg (by simp only [CV_MIN, CV_MAX]; omega)
  · simp only [BitVec.toNat_ofNat]; omega

/-- The form of a function group's packet (R100 to R102). -/
def funcForm (g : Nat) (b : Byte) : MfForm :=
  match g with
  | 0 => .funcF0 (b.getLsbD 0) (b.extractLsb' 1 4)
  | 1 => .funcF5 (b.extractLsb' 0 4)
  | 2 => .funcF9 (b.extractLsb' 0 4)
  | 3 => .funcF13 b
  | 4 => .funcF21 b
  | 5 => .funcF29 b
  | 6 => .funcF37 b
  | 7 => .funcF45 b
  | 8 => .funcF53 b
  | _ => .funcF61 b

theorem funcInstr_form (c : Config) : ∀ (g : Nat) (b : Byte), funcInstr c g b = mfBytes c (funcForm g b)
  | 0, _ | 1, _ | 2, _ | 3, _ | 4, _ | 5, _ | 6, _ | 7, _ | 8, _ | _ + 9, _ => rfl

theorem mfClass_funcForm : ∀ (g : Nat) (b : Byte), mfClass (funcForm g b) = funcClass g
  | 0, _ | 1, _ | 2, _ | 3, _ | 4, _ | 5, _ | 6, _ | 7, _ | 8, _ | _ + 9, _ => rfl

end Sys2Proof.Machine
end

