-- ==== Sys2Proof/Laws/State.lean ====
section
/-! SUPPORT. One lemma per field per named update of the state, so that no proof unfolds a record update; and the laws of
the throttle table. -/

namespace Sys2Proof.Machine

/-! ### `respond` -/

@[simp] theorem respond_cfg (r : Response) (s : State) : (respond r s).cfg = s.cfg := rfl
@[simp] theorem respond_mode (r : Response) (s : State) : (respond r s).mode = s.mode := rfl
@[simp] theorem respond_bs (r : Response) (s : State) : (respond r s).bs = s.bs := rfl
@[simp] theorem respond_thr (r : Response) (s : State) : (respond r s).thr = s.thr := rfl
@[simp] theorem respond_thr_list (r : Response) (s : State) : (respond r s).thr_list = s.thr_list := rfl
@[simp] theorem respond_rr_cursor (r : Response) (s : State) : (respond r s).rr_cursor = s.rr_cursor := rfl
@[simp] theorem respond_svc (r : Response) (s : State) : (respond r s).svc = s.svc := rfl
@[simp] theorem respond_cs (r : Response) (s : State) : (respond r s).cs = s.cs := rfl
@[simp] theorem respond_rc (r : Response) (s : State) : (respond r s).rc = s.rc := rfl
@[simp] theorem respond_trace (r : Response) (s : State) : (respond r s).trace = s.trace := rfl
@[simp] theorem respond_now (r : Response) (s : State) : (respond r s).now = s.now := rfl
@[simp] theorem respond_resp (r : Response) (s : State) : (respond r s).resp = r := rfl
@[simp] theorem respond_codec (r : Response) (s : State) : (respond r s).codec = s.codec := rfl
@[simp] theorem respond_inputs (r : Response) (s : State) : (respond r s).inputs = s.inputs := rfl
@[simp] theorem respond_draws (r : Response) (s : State) : (respond r s).draws = s.draws := rfl

/-! ### `respondOk` -/

@[simp] theorem respondOk_cfg (s : State) : (respondOk s).cfg = s.cfg := rfl
@[simp] theorem respondOk_mode (s : State) : (respondOk s).mode = s.mode := rfl
@[simp] theorem respondOk_bs (s : State) : (respondOk s).bs = s.bs := rfl
@[simp] theorem respondOk_thr (s : State) : (respondOk s).thr = s.thr := rfl
@[simp] theorem respondOk_thr_list (s : State) : (respondOk s).thr_list = s.thr_list := rfl
@[simp] theorem respondOk_rr_cursor (s : State) : (respondOk s).rr_cursor = s.rr_cursor := rfl
@[simp] theorem respondOk_svc (s : State) : (respondOk s).svc = s.svc := rfl
@[simp] theorem respondOk_cs (s : State) : (respondOk s).cs = s.cs := rfl
@[simp] theorem respondOk_rc (s : State) : (respondOk s).rc = s.rc := rfl
@[simp] theorem respondOk_trace (s : State) : (respondOk s).trace = s.trace := rfl
@[simp] theorem respondOk_now (s : State) : (respondOk s).now = s.now := rfl
@[simp] theorem respondOk_resp (s : State) : (respondOk s).resp = { ok := true, isDone := false, val := 0#16 } := rfl
@[simp] theorem respondOk_codec (s : State) : (respondOk s).codec = s.codec := rfl
@[simp] theorem respondOk_inputs (s : State) : (respondOk s).inputs = s.inputs := rfl
@[simp] theorem respondOk_draws (s : State) : (respondOk s).draws = s.draws := rfl

/-! ### `respondVal` -/

@[simp] theorem respondVal_cfg (v : Nat) (s : State) : (respondVal v s).cfg = s.cfg := rfl
@[simp] theorem respondVal_mode (v : Nat) (s : State) : (respondVal v s).mode = s.mode := rfl
@[simp] theorem respondVal_bs (v : Nat) (s : State) : (respondVal v s).bs = s.bs := rfl
@[simp] theorem respondVal_thr (v : Nat) (s : State) : (respondVal v s).thr = s.thr := rfl
@[simp] theorem respondVal_thr_list (v : Nat) (s : State) : (respondVal v s).thr_list = s.thr_list := rfl
@[simp] theorem respondVal_rr_cursor (v : Nat) (s : State) : (respondVal v s).rr_cursor = s.rr_cursor := rfl
@[simp] theorem respondVal_svc (v : Nat) (s : State) : (respondVal v s).svc = s.svc := rfl
@[simp] theorem respondVal_cs (v : Nat) (s : State) : (respondVal v s).cs = s.cs := rfl
@[simp] theorem respondVal_rc (v : Nat) (s : State) : (respondVal v s).rc = s.rc := rfl
@[simp] theorem respondVal_trace (v : Nat) (s : State) : (respondVal v s).trace = s.trace := rfl
@[simp] theorem respondVal_now (v : Nat) (s : State) : (respondVal v s).now = s.now := rfl
@[simp] theorem respondVal_resp (v : Nat) (s : State) :
    (respondVal v s).resp = { ok := true, isDone := false, val := BitVec.ofNat 16 v } := rfl
@[simp] theorem respondVal_codec (v : Nat) (s : State) : (respondVal v s).codec = s.codec := rfl
@[simp] theorem respondVal_inputs (v : Nat) (s : State) : (respondVal v s).inputs = s.inputs := rfl
@[simp] theorem respondVal_draws (v : Nat) (s : State) : (respondVal v s).draws = s.draws := rfl

/-! ### `raiseError` -/

@[simp] theorem raiseError_cfg (k : CmdError) (s : State) : (raiseError k s).cfg = s.cfg := rfl
@[simp] theorem raiseError_mode (k : CmdError) (s : State) : (raiseError k s).mode = s.mode := rfl
@[simp] theorem raiseError_bs (k : CmdError) (s : State) : (raiseError k s).bs = s.bs := rfl
@[simp] theorem raiseError_thr (k : CmdError) (s : State) : (raiseError k s).thr = s.thr := rfl
@[simp] theorem raiseError_thr_list (k : CmdError) (s : State) : (raiseError k s).thr_list = s.thr_list := rfl
@[simp] theorem raiseError_rr_cursor (k : CmdError) (s : State) : (raiseError k s).rr_cursor = s.rr_cursor := rfl
@[simp] theorem raiseError_svc (k : CmdError) (s : State) : (raiseError k s).svc = s.svc := rfl
@[simp] theorem raiseError_cs (k : CmdError) (s : State) : (raiseError k s).cs = s.cs := rfl
@[simp] theorem raiseError_rc (k : CmdError) (s : State) : (raiseError k s).rc = s.rc := rfl
@[simp] theorem raiseError_trace (k : CmdError) (s : State) : (raiseError k s).trace = s.trace := rfl
@[simp] theorem raiseError_now (k : CmdError) (s : State) : (raiseError k s).now = s.now := rfl
@[simp] theorem raiseError_resp (k : CmdError) (s : State) :
    (raiseError k s).resp = { ok := false, isDone := false, val := 0#16 } := rfl
@[simp] theorem raiseError_codec (k : CmdError) (s : State) : (raiseError k s).codec = s.codec := rfl
@[simp] theorem raiseError_inputs (k : CmdError) (s : State) : (raiseError k s).inputs = s.inputs := rfl
@[simp] theorem raiseError_draws (k : CmdError) (s : State) : (raiseError k s).draws = s.draws := rfl

/-! ### `codecAnswer` -/

@[simp] theorem codecAnswer_cfg (o : CodecOut) (s : State) : (codecAnswer o s).cfg = s.cfg := rfl
@[simp] theorem codecAnswer_mode (o : CodecOut) (s : State) : (codecAnswer o s).mode = s.mode := rfl
@[simp] theorem codecAnswer_bs (o : CodecOut) (s : State) : (codecAnswer o s).bs = s.bs := rfl
@[simp] theorem codecAnswer_thr (o : CodecOut) (s : State) : (codecAnswer o s).thr = s.thr := rfl
@[simp] theorem codecAnswer_thr_list (o : CodecOut) (s : State) : (codecAnswer o s).thr_list = s.thr_list := rfl
@[simp] theorem codecAnswer_rr_cursor (o : CodecOut) (s : State) : (codecAnswer o s).rr_cursor = s.rr_cursor := rfl
@[simp] theorem codecAnswer_svc (o : CodecOut) (s : State) : (codecAnswer o s).svc = s.svc := rfl
@[simp] theorem codecAnswer_cs (o : CodecOut) (s : State) : (codecAnswer o s).cs = s.cs := rfl
@[simp] theorem codecAnswer_rc (o : CodecOut) (s : State) : (codecAnswer o s).rc = s.rc := rfl
@[simp] theorem codecAnswer_trace (o : CodecOut) (s : State) : (codecAnswer o s).trace = s.trace := rfl
@[simp] theorem codecAnswer_now (o : CodecOut) (s : State) : (codecAnswer o s).now = s.now := rfl
@[simp] theorem codecAnswer_resp (o : CodecOut) (s : State) : (codecAnswer o s).resp = s.resp := rfl
@[simp] theorem codecAnswer_codec (o : CodecOut) (s : State) : (codecAnswer o s).codec = o := rfl
@[simp] theorem codecAnswer_inputs (o : CodecOut) (s : State) : (codecAnswer o s).inputs = s.inputs := rfl
@[simp] theorem codecAnswer_draws (o : CodecOut) (s : State) : (codecAnswer o s).draws = s.draws := rfl

/-! ### `setThr` -/

@[simp] theorem setThr_cfg (i : Nat) (t : Throttle) (s : State) : (setThr i t s).cfg = s.cfg := rfl
@[simp] theorem setThr_mode (i : Nat) (t : Throttle) (s : State) : (setThr i t s).mode = s.mode := rfl
@[simp] theorem setThr_bs (i : Nat) (t : Throttle) (s : State) : (setThr i t s).bs = s.bs := rfl
@[simp] theorem setThr_thr (i : Nat) (t : Throttle) (s : State) : (setThr i t s).thr = s.thr.set i t := rfl
@[simp] theorem setThr_thr_list (i : Nat) (t : Throttle) (s : State) : (setThr i t s).thr_list = s.thr_list := rfl
@[simp] theorem setThr_rr_cursor (i : Nat) (t : Throttle) (s : State) : (setThr i t s).rr_cursor = s.rr_cursor := rfl
@[simp] theorem setThr_svc (i : Nat) (t : Throttle) (s : State) : (setThr i t s).svc = s.svc := rfl
@[simp] theorem setThr_cs (i : Nat) (t : Throttle) (s : State) : (setThr i t s).cs = s.cs := rfl
@[simp] theorem setThr_rc (i : Nat) (t : Throttle) (s : State) : (setThr i t s).rc = s.rc := rfl
@[simp] theorem setThr_trace (i : Nat) (t : Throttle) (s : State) : (setThr i t s).trace = s.trace := rfl
@[simp] theorem setThr_now (i : Nat) (t : Throttle) (s : State) : (setThr i t s).now = s.now := rfl
@[simp] theorem setThr_resp (i : Nat) (t : Throttle) (s : State) : (setThr i t s).resp = s.resp := rfl
@[simp] theorem setThr_codec (i : Nat) (t : Throttle) (s : State) : (setThr i t s).codec = s.codec := rfl
@[simp] theorem setThr_inputs (i : Nat) (t : Throttle) (s : State) : (setThr i t s).inputs = s.inputs := rfl
@[simp] theorem setThr_draws (i : Nat) (t : Throttle) (s : State) : (setThr i t s).draws = s.draws := rfl

/-! ### `logLine` -/

@[simp] theorem logLine_cfg (l : LogLine) (s : State) : (logLine l s).cfg = s.cfg := rfl
@[simp] theorem logLine_mode (l : LogLine) (s : State) : (logLine l s).mode = s.mode := rfl
@[simp] theorem logLine_bs (l : LogLine) (s : State) : (logLine l s).bs = s.bs := rfl
@[simp] theorem logLine_thr (l : LogLine) (s : State) : (logLine l s).thr = s.thr := rfl
@[simp] theorem logLine_thr_list (l : LogLine) (s : State) : (logLine l s).thr_list = s.thr_list := rfl
@[simp] theorem logLine_rr_cursor (l : LogLine) (s : State) : (logLine l s).rr_cursor = s.rr_cursor := rfl
@[simp] theorem logLine_svc (l : LogLine) (s : State) : (logLine l s).svc = s.svc := rfl
@[simp] theorem logLine_cs (l : LogLine) (s : State) : (logLine l s).cs = s.cs := rfl
@[simp] theorem logLine_rc (l : LogLine) (s : State) : (logLine l s).rc = s.rc := rfl
@[simp] theorem logLine_now (l : LogLine) (s : State) : (logLine l s).now = s.now := rfl
@[simp] theorem logLine_resp (l : LogLine) (s : State) : (logLine l s).resp = s.resp := rfl
@[simp] theorem logLine_codec (l : LogLine) (s : State) : (logLine l s).codec = s.codec := rfl
@[simp] theorem logLine_inputs (l : LogLine) (s : State) : (logLine l s).inputs = s.inputs := rfl
@[simp] theorem logLine_draws (l : LogLine) (s : State) : (logLine l s).draws = s.draws := rfl

/-! ### `logWhen` -/

@[simp] theorem logWhen_cfg (b : Bool) (l : LogLine) (s : State) : (logWhen b l s).cfg = s.cfg := by cases b <;> rfl
@[simp] theorem logWhen_mode (b : Bool) (l : LogLine) (s : State) : (logWhen b l s).mode = s.mode := by cases b <;> rfl
@[simp] theorem logWhen_bs (b : Bool) (l : LogLine) (s : State) : (logWhen b l s).bs = s.bs := by cases b <;> rfl
@[simp] theorem logWhen_thr (b : Bool) (l : LogLine) (s : State) : (logWhen b l s).thr = s.thr := by cases b <;> rfl
@[simp] theorem logWhen_thr_list (b : Bool) (l : LogLine) (s : State) :
    (logWhen b l s).thr_list = s.thr_list := by cases b <;> rfl
@[simp] theorem logWhen_rr_cursor (b : Bool) (l : LogLine) (s : State) :
    (logWhen b l s).rr_cursor = s.rr_cursor := by cases b <;> rfl
@[simp] theorem logWhen_svc (b : Bool) (l : LogLine) (s : State) : (logWhen b l s).svc = s.svc := by cases b <;> rfl
@[simp] theorem logWhen_cs (b : Bool) (l : LogLine) (s : State) : (logWhen b l s).cs = s.cs := by cases b <;> rfl
@[simp] theorem logWhen_rc (b : Bool) (l : LogLine) (s : State) : (logWhen b l s).rc = s.rc := by cases b <;> rfl
@[simp] theorem logWhen_now (b : Bool) (l : LogLine) (s : State) : (logWhen b l s).now = s.now := by cases b <;> rfl
@[simp] theorem logWhen_resp (b : Bool) (l : LogLine) (s : State) : (logWhen b l s).resp = s.resp := by cases b <;> rfl
@[simp] theorem logWhen_codec (b : Bool) (l : LogLine) (s : State) :
    (logWhen b l s).codec = s.codec := by cases b <;> rfl
@[simp] theorem logWhen_inputs (b : Bool) (l : LogLine) (s : State) :
    (logWhen b l s).inputs = s.inputs := by cases b <;> rfl
@[simp] theorem logWhen_draws (b : Bool) (l : LogLine) (s : State) :
    (logWhen b l s).draws = s.draws := by cases b <;> rfl

/-! ### `drawLatency` -/

@[simp] theorem drawLatency_cfg (s : State) : (drawLatency s).cfg = s.cfg := rfl
@[simp] theorem drawLatency_mode (s : State) : (drawLatency s).mode = s.mode := rfl
@[simp] theorem drawLatency_thr (s : State) : (drawLatency s).thr = s.thr := rfl
@[simp] theorem drawLatency_thr_list (s : State) : (drawLatency s).thr_list = s.thr_list := rfl
@[simp] theorem drawLatency_rr_cursor (s : State) : (drawLatency s).rr_cursor = s.rr_cursor := rfl
@[simp] theorem drawLatency_svc (s : State) : (drawLatency s).svc = s.svc := rfl
@[simp] theorem drawLatency_cs (s : State) : (drawLatency s).cs = s.cs := rfl
@[simp] theorem drawLatency_rc (s : State) : (drawLatency s).rc = s.rc := rfl
@[simp] theorem drawLatency_trace (s : State) : (drawLatency s).trace = s.trace := rfl
@[simp] theorem drawLatency_now (s : State) : (drawLatency s).now = s.now := rfl
@[simp] theorem drawLatency_resp (s : State) : (drawLatency s).resp = s.resp := rfl
@[simp] theorem drawLatency_codec (s : State) : (drawLatency s).codec = s.codec := rfl
@[simp] theorem drawLatency_inputs (s : State) : (drawLatency s).inputs = s.inputs := rfl
@[simp] theorem drawLatency_draws (s : State) : (drawLatency s).draws = s.draws + 3 := rfl

/-! ### `uartReset` -/

@[simp] theorem uartReset_cfg (s : State) : (uartReset s).cfg = s.cfg := rfl
@[simp] theorem uartReset_mode (s : State) : (uartReset s).mode = s.mode := rfl
@[simp] theorem uartReset_bs (s : State) : (uartReset s).bs = s.bs := rfl
@[simp] theorem uartReset_thr (s : State) : (uartReset s).thr = s.thr := rfl
@[simp] theorem uartReset_thr_list (s : State) : (uartReset s).thr_list = s.thr_list := rfl
@[simp] theorem uartReset_rr_cursor (s : State) : (uartReset s).rr_cursor = s.rr_cursor := rfl
@[simp] theorem uartReset_svc (s : State) : (uartReset s).svc = s.svc := rfl
@[simp] theorem uartReset_cs (s : State) : (uartReset s).cs = s.cs := rfl
@[simp] theorem uartReset_rc (s : State) : (uartReset s).rc = { s.rc with uart_fifo := [] } := rfl
@[simp] theorem uartReset_trace (s : State) : (uartReset s).trace = s.trace := rfl
@[simp] theorem uartReset_now (s : State) : (uartReset s).now = s.now := rfl
@[simp] theorem uartReset_resp (s : State) : (uartReset s).resp = s.resp := rfl
@[simp] theorem uartReset_codec (s : State) : (uartReset s).codec = s.codec := rfl
@[simp] theorem uartReset_inputs (s : State) : (uartReset s).inputs = s.inputs := rfl
@[simp] theorem uartReset_draws (s : State) : (uartReset s).draws = s.draws := rfl

/-! ### `frameStart` -/

@[simp] theorem frameStart_cfg (s : State) : (frameStart s).cfg = s.cfg := rfl
@[simp] theorem frameStart_mode (s : State) : (frameStart s).mode = s.mode := rfl
@[simp] theorem frameStart_bs (s : State) : (frameStart s).bs = s.bs := rfl
@[simp] theorem frameStart_thr (s : State) : (frameStart s).thr = s.thr := rfl
@[simp] theorem frameStart_thr_list (s : State) : (frameStart s).thr_list = s.thr_list := rfl
@[simp] theorem frameStart_rr_cursor (s : State) : (frameStart s).rr_cursor = s.rr_cursor := rfl
@[simp] theorem frameStart_svc (s : State) : (frameStart s).svc = s.svc := rfl
@[simp] theorem frameStart_cs (s : State) : (frameStart s).cs = s.cs := rfl
@[simp] theorem frameStart_trace (s : State) : (frameStart s).trace = s.trace := rfl
@[simp] theorem frameStart_now (s : State) : (frameStart s).now = s.now := rfl
@[simp] theorem frameStart_resp (s : State) : (frameStart s).resp = s.resp := rfl
@[simp] theorem frameStart_codec (s : State) : (frameStart s).codec = s.codec := rfl
@[simp] theorem frameStart_inputs (s : State) : (frameStart s).inputs = s.inputs := rfl
@[simp] theorem frameStart_draws (s : State) : (frameStart s).draws = s.draws := rfl

/-! ### `adcStart` -/

@[simp] theorem adcStart_cfg (s : State) : (adcStart s).cfg = s.cfg := rfl
@[simp] theorem adcStart_mode (s : State) : (adcStart s).mode = s.mode := rfl
@[simp] theorem adcStart_bs (s : State) : (adcStart s).bs = s.bs := rfl
@[simp] theorem adcStart_thr (s : State) : (adcStart s).thr = s.thr := rfl
@[simp] theorem adcStart_thr_list (s : State) : (adcStart s).thr_list = s.thr_list := rfl
@[simp] theorem adcStart_rr_cursor (s : State) : (adcStart s).rr_cursor = s.rr_cursor := rfl
@[simp] theorem adcStart_svc (s : State) : (adcStart s).svc = s.svc := rfl
@[simp] theorem adcStart_cs (s : State) : (adcStart s).cs = { s.cs with
      cs_ring := List.replicate s.cfg.long_avg_n 0#12, cs_head := 0, adc_fifo := [], adc_run := true } := rfl
@[simp] theorem adcStart_rc (s : State) : (adcStart s).rc = s.rc := rfl
@[simp] theorem adcStart_trace (s : State) : (adcStart s).trace = s.trace := rfl
@[simp] theorem adcStart_now (s : State) : (adcStart s).now = s.now := rfl
@[simp] theorem adcStart_resp (s : State) : (adcStart s).resp = s.resp := rfl
@[simp] theorem adcStart_codec (s : State) : (adcStart s).codec = s.codec := rfl
@[simp] theorem adcStart_inputs (s : State) : (adcStart s).inputs = s.inputs := rfl
@[simp] theorem adcStart_draws (s : State) : (adcStart s).draws = s.draws := rfl

/-! ### `adcStop` -/

@[simp] theorem adcStop_cfg (s : State) : (adcStop s).cfg = s.cfg := rfl
@[simp] theorem adcStop_mode (s : State) : (adcStop s).mode = s.mode := rfl
@[simp] theorem adcStop_bs (s : State) : (adcStop s).bs = s.bs := rfl
@[simp] theorem adcStop_thr (s : State) : (adcStop s).thr = s.thr := rfl
@[simp] theorem adcStop_thr_list (s : State) : (adcStop s).thr_list = s.thr_list := rfl
@[simp] theorem adcStop_rr_cursor (s : State) : (adcStop s).rr_cursor = s.rr_cursor := rfl
@[simp] theorem adcStop_svc (s : State) : (adcStop s).svc = s.svc := rfl
@[simp] theorem adcStop_cs (s : State) : (adcStop s).cs = { s.cs with adc_run := false, adc_fifo := [] } := rfl
@[simp] theorem adcStop_rc (s : State) : (adcStop s).rc = s.rc := rfl
@[simp] theorem adcStop_trace (s : State) : (adcStop s).trace = s.trace := rfl
@[simp] theorem adcStop_now (s : State) : (adcStop s).now = s.now := rfl
@[simp] theorem adcStop_resp (s : State) : (adcStop s).resp = s.resp := rfl
@[simp] theorem adcStop_codec (s : State) : (adcStop s).codec = s.codec := rfl
@[simp] theorem adcStop_inputs (s : State) : (adcStop s).inputs = s.inputs := rfl
@[simp] theorem adcStop_draws (s : State) : (adcStop s).draws = s.draws := rfl

/-! ### `start` -/

@[simp] theorem start_cfg (p0 : Nat) (p : DccPacket) (s : State) : (start p0 p s).cfg = s.cfg := rfl
@[simp] theorem start_mode (p0 : Nat) (p : DccPacket) (s : State) : (start p0 p s).mode = s.mode := rfl
@[simp] theorem start_thr (p0 : Nat) (p : DccPacket) (s : State) : (start p0 p s).thr = s.thr := rfl
@[simp] theorem start_thr_list (p0 : Nat) (p : DccPacket) (s : State) : (start p0 p s).thr_list = s.thr_list := rfl
@[simp] theorem start_rr_cursor (p0 : Nat) (p : DccPacket) (s : State) : (start p0 p s).rr_cursor = s.rr_cursor := rfl
@[simp] theorem start_svc (p0 : Nat) (p : DccPacket) (s : State) : (start p0 p s).svc = s.svc := rfl
@[simp] theorem start_cs (p0 : Nat) (p : DccPacket) (s : State) : (start p0 p s).cs = s.cs := rfl
@[simp] theorem start_rc (p0 : Nat) (p : DccPacket) (s : State) :
    (start p0 p s).rc = { s.rc with uart_fifo := [] } := rfl
@[simp] theorem start_trace (p0 : Nat) (p : DccPacket) (s : State) : (start p0 p s).trace = s.trace := rfl
@[simp] theorem start_now (p0 : Nat) (p : DccPacket) (s : State) : (start p0 p s).now = s.now := rfl
@[simp] theorem start_resp (p0 : Nat) (p : DccPacket) (s : State) : (start p0 p s).resp = s.resp := rfl
@[simp] theorem start_codec (p0 : Nat) (p : DccPacket) (s : State) : (start p0 p s).codec = s.codec := rfl
@[simp] theorem start_inputs (p0 : Nat) (p : DccPacket) (s : State) : (start p0 p s).inputs = s.inputs := rfl
@[simp] theorem start_draws (p0 : Nat) (p : DccPacket) (s : State) : (start p0 p s).draws = s.draws := rfl

/-! ### `stop` -/

@[simp] theorem stop_cfg (s : State) : (stop s).cfg = s.cfg := by unfold stop; split <;> rfl
@[simp] theorem stop_mode (s : State) : (stop s).mode = s.mode := by unfold stop; split <;> rfl
@[simp] theorem stop_thr (s : State) : (stop s).thr = s.thr := by unfold stop; split <;> rfl
@[simp] theorem stop_thr_list (s : State) : (stop s).thr_list = s.thr_list := by unfold stop; split <;> rfl
@[simp] theorem stop_rr_cursor (s : State) : (stop s).rr_cursor = s.rr_cursor := by unfold stop; split <;> rfl
@[simp] theorem stop_svc (s : State) : (stop s).svc = s.svc := by unfold stop; split <;> rfl
@[simp] theorem stop_cs (s : State) : (stop s).cs = s.cs := by unfold stop; split <;> rfl
@[simp] theorem stop_rc (s : State) : (stop s).rc = s.rc := by unfold stop; split <;> rfl
@[simp] theorem stop_trace (s : State) : (stop s).trace = s.trace := by unfold stop; split <;> rfl
@[simp] theorem stop_now (s : State) : (stop s).now = s.now := by unfold stop; split <;> rfl
@[simp] theorem stop_resp (s : State) : (stop s).resp = s.resp := by unfold stop; split <;> rfl
@[simp] theorem stop_codec (s : State) : (stop s).codec = s.codec := by unfold stop; split <;> rfl
@[simp] theorem stop_inputs (s : State) : (stop s).inputs = s.inputs := by unfold stop; split <;> rfl
@[simp] theorem stop_draws (s : State) : (stop s).draws = s.draws := by unfold stop; split <;> rfl

/-! ### `modeOffEffects` -/

@[simp] theorem modeOffEffects_cfg (s : State) :
    (modeOffEffects s).cfg = s.cfg := by
  simp only [modeOffEffects, adcStop, stop] <;> split <;> rfl
@[simp] theorem modeOffEffects_mode (s : State) :
    (modeOffEffects s).mode = .Off := by
  simp only [modeOffEffects, adcStop, stop] <;> split <;> rfl
@[simp] theorem modeOffEffects_bs (s : State) :
    (modeOffEffects s).bs = (stop s).bs := by
  simp only [modeOffEffects, adcStop, stop] <;> split <;> rfl
@[simp] theorem modeOffEffects_thr (s : State) :
    (modeOffEffects s).thr = s.thr := by
  simp only [modeOffEffects, adcStop, stop] <;> split <;> rfl
@[simp] theorem modeOffEffects_thr_list (s : State) :
    (modeOffEffects s).thr_list = s.thr_list := by
  simp only [modeOffEffects, adcStop, stop] <;> split <;> rfl
@[simp] theorem modeOffEffects_rr_cursor (s : State) :
    (modeOffEffects s).rr_cursor = s.rr_cursor := by
  simp only [modeOffEffects, adcStop, stop] <;> split <;> rfl
@[simp] theorem modeOffEffects_svc (s : State) : (modeOffEffects s).svc = { s.svc with
      svc_op := .None, svc_phase := .Reset1, svc_cnt := 0, svc_step := 0, ack_armed := false, ack_seen := false } := by
  simp only [modeOffEffects, adcStop, stop] <;> split <;> rfl
@[simp] theorem modeOffEffects_cs (s : State) :
    (modeOffEffects s).cs = { s.cs with adc_run := false, adc_fifo := [] } := by
  simp only [modeOffEffects, adcStop, stop] <;> split <;> rfl
@[simp] theorem modeOffEffects_rc (s : State) :
    (modeOffEffects s).rc = s.rc := by
  simp only [modeOffEffects, adcStop, stop] <;> split <;> rfl
@[simp] theorem modeOffEffects_trace (s : State) :
    (modeOffEffects s).trace = s.trace := by
  simp only [modeOffEffects, adcStop, stop] <;> split <;> rfl
@[simp] theorem modeOffEffects_now (s : State) :
    (modeOffEffects s).now = s.now := by
  simp only [modeOffEffects, adcStop, stop] <;> split <;> rfl
@[simp] theorem modeOffEffects_resp (s : State) :
    (modeOffEffects s).resp = s.resp := by
  simp only [modeOffEffects, adcStop, stop] <;> split <;> rfl
@[simp] theorem modeOffEffects_codec (s : State) :
    (modeOffEffects s).codec = s.codec := by
  simp only [modeOffEffects, adcStop, stop] <;> split <;> rfl
@[simp] theorem modeOffEffects_inputs (s : State) :
    (modeOffEffects s).inputs = s.inputs := by
  simp only [modeOffEffects, adcStop, stop] <;> split <;> rfl
@[simp] theorem modeOffEffects_draws (s : State) :
    (modeOffEffects s).draws = s.draws := by
  simp only [modeOffEffects, adcStop, stop] <;> split <;> rfl

/-! ### `restartEffects` -/

@[simp] theorem restartEffects_cfg (s : State) : (restartEffects s).cfg = s.cfg := rfl
@[simp] theorem restartEffects_mode (s : State) : (restartEffects s).mode = s.mode := rfl
@[simp] theorem restartEffects_bs (s : State) : (restartEffects s).bs = s.bs := rfl
@[simp] theorem restartEffects_thr (s : State) :
    (restartEffects s).thr = s.thr.map (fun t => if t.valid then { t with seq := 0 } else t) := rfl
@[simp] theorem restartEffects_thr_list (s : State) : (restartEffects s).thr_list = sortSlots s s.thr_list := rfl
@[simp] theorem restartEffects_rr_cursor (s : State) : (restartEffects s).rr_cursor = 0 := rfl
@[simp] theorem restartEffects_svc (s : State) : (restartEffects s).svc = s.svc := rfl
@[simp] theorem restartEffects_cs (s : State) : (restartEffects s).cs = s.cs := rfl
@[simp] theorem restartEffects_rc (s : State) : (restartEffects s).rc = s.rc := rfl
@[simp] theorem restartEffects_trace (s : State) : (restartEffects s).trace = s.trace := rfl
@[simp] theorem restartEffects_now (s : State) : (restartEffects s).now = s.now := rfl
@[simp] theorem restartEffects_resp (s : State) : (restartEffects s).resp = s.resp := rfl
@[simp] theorem restartEffects_codec (s : State) : (restartEffects s).codec = s.codec := rfl
@[simp] theorem restartEffects_inputs (s : State) : (restartEffects s).inputs = s.inputs := rfl
@[simp] theorem restartEffects_draws (s : State) : (restartEffects s).draws = s.draws := rfl

/-! ### `arm` -/

@[simp] theorem arm_cfg (s : State) : (arm s).cfg = s.cfg := rfl
@[simp] theorem arm_mode (s : State) : (arm s).mode = s.mode := rfl
@[simp] theorem arm_bs (s : State) : (arm s).bs = s.bs := rfl
@[simp] theorem arm_thr (s : State) : (arm s).thr = s.thr := rfl
@[simp] theorem arm_thr_list (s : State) : (arm s).thr_list = s.thr_list := rfl
@[simp] theorem arm_rr_cursor (s : State) : (arm s).rr_cursor = s.rr_cursor := rfl
@[simp] theorem arm_svc (s : State) : (arm s).svc = { s.svc with
      ack_threshold_mA := longAvgMA s + ACK_MARGIN_MA, ack_seen := false, ack_armed := true } := rfl
@[simp] theorem arm_cs (s : State) : (arm s).cs = s.cs := rfl
@[simp] theorem arm_rc (s : State) : (arm s).rc = s.rc := rfl
@[simp] theorem arm_trace (s : State) : (arm s).trace = s.trace := rfl
@[simp] theorem arm_now (s : State) : (arm s).now = s.now := rfl
@[simp] theorem arm_resp (s : State) : (arm s).resp = s.resp := rfl
@[simp] theorem arm_codec (s : State) : (arm s).codec = s.codec := rfl
@[simp] theorem arm_inputs (s : State) : (arm s).inputs = s.inputs := rfl
@[simp] theorem arm_draws (s : State) : (arm s).draws = s.draws := rfl

/-! ### `handOver` -/

@[simp] theorem handOver_cfg (s : State) : (handOver s).cfg = s.cfg := rfl
@[simp] theorem handOver_mode (s : State) : (handOver s).mode = s.mode := rfl
@[simp] theorem handOver_bs (s : State) :
    (handOver s).bs = { s.bs with last_ref := (s.bs.slot s.bs.cur).ref, cur := s.bs.cur.other } := rfl
@[simp] theorem handOver_thr (s : State) : (handOver s).thr = s.thr := rfl
@[simp] theorem handOver_thr_list (s : State) : (handOver s).thr_list = s.thr_list := rfl
@[simp] theorem handOver_rr_cursor (s : State) : (handOver s).rr_cursor = s.rr_cursor := rfl
@[simp] theorem handOver_svc (s : State) : (handOver s).svc = s.svc := rfl
@[simp] theorem handOver_cs (s : State) : (handOver s).cs = s.cs := rfl
@[simp] theorem handOver_rc (s : State) : (handOver s).rc = s.rc := rfl
@[simp] theorem handOver_trace (s : State) : (handOver s).trace = s.trace := rfl
@[simp] theorem handOver_now (s : State) : (handOver s).now = s.now := rfl
@[simp] theorem handOver_resp (s : State) : (handOver s).resp = s.resp := rfl
@[simp] theorem handOver_codec (s : State) : (handOver s).codec = s.codec := rfl
@[simp] theorem handOver_inputs (s : State) : (handOver s).inputs = s.inputs := rfl
@[simp] theorem handOver_draws (s : State) : (handOver s).draws = s.draws := rfl

theorem stop_bs (s : State) : (stop s).bs =
    if s.bs.bs_run then { s.bs with bs_run := false, dcc_sig := .const false, dcc_pwr := .const false } else s.bs := by
  unfold stop; split <;> rfl

/-! ### The throttle table -/

theorem thrAt_congr {s t : State} (h : s.thr = t.thr) (i : Nat) : thrAt s i = thrAt t i := by simp only [thrAt, h]

theorem addrOf_congr {s t : State} (h : s.thr = t.thr) (i : Nat) : addrOf s i = addrOf t i := by
  simp only [addrOf, thrAt_congr h]

theorem live_congr {s t : State} (h : s.thr = t.thr) (r : ThrRef) : live s r = live t r := by
  simp only [live, thrAt_congr h]

theorem thrAt_lt {s : State} {i : Nat} (h : i < s.thr.length) : thrAt s i = s.thr[i] := by
  simp [thrAt, List.getD, List.getElem?_eq_getElem h]

theorem thrAt_ge {s : State} {i : Nat} (h : s.thr.length ≤ i) : thrAt s i = Throttle.reset := by
  simp [thrAt, List.getD, List.getElem?_eq_none h]

theorem thrAt_mem {s : State} {i : Nat} (h : i < s.thr.length) : thrAt s i ∈ s.thr := by
  rw [thrAt_lt h]; exact List.getElem_mem h

theorem mem_thr {s : State} {t : Throttle} : t ∈ s.thr ↔ ∃ i, i < s.thr.length ∧ thrAt s i = t := by
  constructor
  · intro h
    obtain ⟨i, hi, e⟩ := List.mem_iff_getElem.1 h
    exact ⟨i, hi, by rw [thrAt_lt hi, e]⟩
  · rintro ⟨i, hi, rfl⟩
    exact thrAt_mem hi

/-- A slot outside the table is not valid, so a valid slot is inside it. -/
theorem thrAt_valid_lt {s : State} {i : Nat} (h : (thrAt s i).valid = true) : i < s.thr.length := by
  refine Nat.lt_of_not_le fun hn => ?_
  rw [thrAt_ge hn] at h
  exact absurd h (by decide)

theorem thrAt_set (s : State) (i j : Nat) (t : Throttle) :
    thrAt (setThr i t s) j = if j = i ∧ i < s.thr.length then t else thrAt s j := by
  simp only [thrAt, setThr, List.getD, List.getElem?_set]
  by_cases h : i = j
  · subst h
    by_cases hl : i < s.thr.length
    · simp [hl]
    · simp [hl]
  · simp [h, Ne.symm h]

@[simp] theorem thrAt_setThr_self {s : State} {i : Nat} (h : i < s.thr.length) (t : Throttle) :
    thrAt (setThr i t s) i = t := by simp [thrAt_set, h]

theorem thrAt_setThr_ne {s : State} {i j : Nat} (h : j ≠ i) (t : Throttle) : thrAt (setThr i t s) j = thrAt s j := by
  simp [thrAt_set, h]

theorem setThr_thrAt (s : State) (i : Nat) : setThr i (thrAt s i) s = s := by
  have : s.thr.set i (thrAt s i) = s.thr := by
    by_cases h : i < s.thr.length
    · rw [thrAt_lt h, List.set_getElem_self]
    · exact List.set_eq_of_length_le (by omega)
  simp only [setThr, this]

/-- An update that keeps the generation and the valid bit keeps every reference as it was. -/
theorem live_setThr {s : State} {i : Nat} {t : Throttle} (hv : t.valid = (thrAt s i).valid)
    (hg : t.gen = (thrAt s i).gen) (r : ThrRef) : live (setThr i t s) r = live s r := by
  simp only [live, thrAt_set]
  split
  · rename_i h
    rw [h.1, hv, hg]
  · rfl

/-! ### Lookup (R374, R340) -/

theorem findSlot_some {s : State} {a : BitVec 14} {i : Nat} (h : findSlot s a = some i) :
    i < s.thr.length ∧ (thrAt s i).valid = true ∧ (thrAt s i).address = a := by
  obtain ⟨hi, hp, -⟩ := List.findIdx?_eq_some_iff_getElem.1 h
  simp only [Bool.and_eq_true, beq_iff_eq] at hp
  rw [thrAt_lt hi]
  exact ⟨hi, hp.1, hp.2⟩

theorem findSlot_none {s : State} {a : BitVec 14} :
    findSlot s a = none ↔ ∀ t ∈ s.thr, t.valid = true → t.address ≠ a := by
  simp only [findSlot, List.findIdx?_eq_none_iff, Bool.and_eq_false_imp, beq_eq_false_iff_ne]

/-- On a list kept by R340 at most one slot has an address, so the lookup finds it. -/
theorem findSlot_unique {s : State} (hl : ListOk s) {i : Nat} (hi : i < s.thr.length) (hv : (thrAt s i).valid = true) :
    findSlot s (thrAt s i).address = some i := by
  cases hf : findSlot s (thrAt s i).address with
  | none => exact absurd rfl (findSlot_none.1 hf _ (thrAt_mem hi) hv)
  | some j =>
    obtain ⟨hj, hvj, ha⟩ := findSlot_some hf
    congr 1
    refine Classical.byContradiction fun hne => ?_
    obtain ⟨x, hx, ex⟩ := List.mem_iff_getElem.1 ((hl.holds j).2 ⟨hj, hvj⟩)
    obtain ⟨y, hy, ey⟩ := List.mem_iff_getElem.1 ((hl.holds i).2 ⟨hi, hv⟩)
    have hlt := List.pairwise_iff_getElem.1 hl.sorted
    have he : addrOf s j = addrOf s i := by simp only [addrOf, ha]
    rcases Nat.lt_trichotomy x y with h | h | h
    · have := hlt x y hx hy h
      rw [ex, ey] at this
      omega
    · subst h
      exact hne (ex.symm.trans ey)
    · have := hlt y x hy hx h
      rw [ex, ey] at this
      omega

theorem freeSlot_some {s : State} {i : Nat} (h : freeSlot s = some i) :
    i < s.thr.length ∧ (thrAt s i).valid = false ∧ ∀ j, j < i → (thrAt s j).valid = true := by
  obtain ⟨hi, hp, hlt⟩ := List.findIdx?_eq_some_iff_getElem.1 h
  rw [thrAt_lt hi]
  refine ⟨hi, by simpa using hp, fun j hj => ?_⟩
  rw [thrAt_lt (Nat.lt_trans hj hi)]
  simpa using hlt j hj

theorem freeSlot_none {s : State} : freeSlot s = none ↔ ∀ t ∈ s.thr, t.valid = true := by
  simp only [freeSlot, List.findIdx?_eq_none_iff, Bool.not_eq_false']

/-- The operand checks and the lookup of a throttle command (R374, R423), by their four outcomes. -/
theorem withThrottle_badArg {a : BitVec 16} {ok : Bool} {f : Nat → Throttle → State → State} {s : State}
    (h : (addrOk a && ok) = false) : withThrottle a ok f s = raiseError .arg s := by
  simp only [withThrottle, h, Bool.false_eq_true, if_false]

theorem withThrottle_unknown {a : BitVec 16} {ok : Bool} {f : Nat → Throttle → State → State} {s : State}
    (h : findSlot s (a.setWidth 14) = none) : withThrottle a ok f s = raiseError .refused s := by
  simp only [withThrottle, h]
  split <;> rfl

theorem withThrottle_found {a : BitVec 16} {ok : Bool} {f : Nat → Throttle → State → State} {s : State} {i : Nat}
    (ha : addrOk a = true) (hk : ok = true) (h : findSlot s (a.setWidth 14) = some i) :
    withThrottle a ok f s = f i (thrAt s i) s := by
  simp only [withThrottle, ha, hk, h, Bool.and_self, if_true]

theorem addrOk_iff {a : BitVec 16} : addrOk a = true ↔ 1 ≤ a.toNat ∧ a.toNat ≤ 10239 := by
  simp only [addrOk, Bool.and_eq_true, decide_eq_true_eq]
  exact Iff.rfl

theorem cvOk_iff {n : BitVec 16} : cvOk n = true ↔ 1 ≤ n.toNat ∧ n.toNat ≤ 1024 := by
  simp only [cvOk, Bool.and_eq_true, decide_eq_true_eq]
  exact Iff.rfl

theorem addrOk_false {a : BitVec 16} (h : a.toNat < 1 ∨ 10239 < a.toNat) : addrOk a = false := by
  refine Bool.eq_false_iff.2 fun e => ?_
  have := addrOk_iff.1 e
  omega

theorem cvOk_false {n : BitVec 16} (h : n.toNat < 1 ∨ 1024 < n.toNat) : cvOk n = false := by
  refine Bool.eq_false_iff.2 fun e => ?_
  have := cvOk_iff.1 e
  omega

/-- `cv_num - 1` in ten bits (R61). -/
theorem cvField_eq {n : BitVec 16} (h : cvOk n = true) : cvField n = BitVec.ofNat 10 (n.toNat - 1) := by
  have h := cvOk_iff.1 h
  apply BitVec.eq_of_toNat_eq
  simp only [cvField, BitVec.toNat_setWidth, BitVec.toNat_ofNat]
  rw [BitVec.toNat_sub_of_le (by simp only [BitVec.le_def, BitVec.toNat_ofNat]; omega)]
  simp

/-! ### RailCom delivery writes the table and the log only (R387) -/

theorem deliverTo_rc (i : Nat) (m : RcMsg) (s : State) (r : RailCom) :
    deliverTo i m { s with rc := r } = { deliverTo i m s with rc := r } := by
  cases m <;> simp only [deliverTo, setThr, thrAt] <;> split <;> try rfl
  cases s.trace.trace_speed <;> rfl

theorem onPom_kept (val : Byte) (t : Throttle) : (onPom val t).valid = t.valid ∧ (onPom val t).gen = t.gen := by
  unfold onPom; split <;> exact ⟨rfl, rfl⟩

theorem deliverTo_live (i : Nat) (m : RcMsg) (s : State) (r : ThrRef) : live (deliverTo i m s) r = live s r := by
  cases m with
  | pom v => exact live_setThr (onPom_kept v _).1 (onPom_kept v _).2 r
  | dyn v x =>
    simp only [deliverTo]
    split
    · rw [live_congr (logWhen_thr ..)]
      exact live_setThr (t := onSpeed v s.now (thrAt s i)) rfl rfl r
    · rfl
  | _ => rfl

theorem deliverTo_kept (i : Nat) (m : RcMsg) (s : State) : (deliverTo i m s).cfg = s.cfg ∧ (deliverTo i m s).bs = s.bs ∧
    (deliverTo i m s).rc = s.rc ∧ (deliverTo i m s).thr_list = s.thr_list ∧ (deliverTo i m s).now = s.now := by
  cases m with
  | dyn v x => simp only [deliverTo]; split <;> simp
  | _ => exact ⟨rfl, rfl, rfl, rfl, rfl⟩

theorem thrDeliver_rc (i : Nat) (ms : List RcMsg) (s : State) (r : RailCom) :
    thrDeliver i ms { s with rc := r } = { thrDeliver i ms s with rc := r } := by
  induction ms generalizing s with
  | nil => rfl
  | cons m t ih => simp only [thrDeliver, List.foldl_cons] at ih ⊢; rw [deliverTo_rc, ih]

theorem thrDeliver_live (i : Nat) (ms : List RcMsg) (s : State) (r : ThrRef) : live (thrDeliver i ms s) r = live s r := by
  induction ms generalizing s with
  | nil => rfl
  | cons m t ih => simp only [thrDeliver, List.foldl_cons] at ih ⊢; rw [ih, deliverTo_live]

theorem thrDeliver_kept (i : Nat) (ms : List RcMsg) (s : State) : (thrDeliver i ms s).cfg = s.cfg ∧
    (thrDeliver i ms s).bs = s.bs ∧ (thrDeliver i ms s).rc = s.rc := by
  induction ms generalizing s with
  | nil => exact ⟨rfl, rfl, rfl⟩
  | cons m t ih =>
    have := deliverTo_kept i m s
    simp only [thrDeliver, List.foldl_cons] at ih ⊢
    rw [(ih _).1, (ih _).2.1, (ih _).2.2]
    exact ⟨this.1, this.2.1, this.2.2.1⟩

theorem deliverLast_rc (ms : List RcMsg) (s : State) (r : RailCom) :
    deliverLast ms { s with rc := r } = { deliverLast ms s with rc := r } := by
  simp only [deliverLast]
  cases s.bs.last_ref with
  | none => rfl
  | some x =>
    simp only [live_congr (s := { s with rc := r }) (t := s) rfl, thrDeliver_rc]
    split <;> rfl

theorem deliverLast_kept (ms : List RcMsg) (s : State) : (deliverLast ms s).cfg = s.cfg ∧
    (deliverLast ms s).bs = s.bs ∧ (deliverLast ms s).rc = s.rc := by
  simp only [deliverLast]
  split
  · split
    · exact thrDeliver_kept ..
    · exact ⟨rfl, rfl, rfl⟩
  · exact ⟨rfl, rfl, rfl⟩

/-- Messages reach the throttle one after the other. -/
theorem deliverLast_append (ms : List RcMsg) (m : RcMsg) (s : State) :
    deliverLast (ms ++ [m]) s = deliverLast [m] (deliverLast ms s) := by
  have hb := (deliverLast_kept ms s).2.1
  unfold deliverLast at hb ⊢
  rw [hb]
  cases s.bs.last_ref with
  | none => rfl
  | some r =>
    by_cases h : live s r = true
    · have hl : live (thrDeliver r.slot ms s) r = true := by rw [thrDeliver_live, h]
      simp only [if_pos h, if_pos hl]
      simp only [thrDeliver, List.foldl_append]
    · simp only [if_neg h]

end Sys2Proof.Machine
end

