-- ==== Sys2Proof/Laws/Sensor.lean ====
section
/-! SUPPORT. What the current sensor's operations can do (43_current_sensor.md). -/

namespace Sys2Proof.Machine

/-- The level comparison sets `ack_seen` or does nothing (R290). -/
theorem ackCheck_cases (s : State) : ackCheck s = s ∨
    (s.svc.ack_armed = true ∧ ackCheck s = { s with svc := { s.svc with ack_seen := true } }) := by
  unfold ackCheck
  split
  · rename_i h
    exact .inr ⟨h.1, rfl⟩
  · exact .inl rfl

/-- When the comparison leaves `ack_seen` set (R290). -/
theorem ackCheck_seen (s : State) : (ackCheck s).svc.ack_seen = true ↔
    s.svc.ack_seen = true ∨ (s.svc.ack_armed = true ∧ s.svc.ack_threshold_mA ≤ shortAvgMA s) := by
  unfold ackCheck
  split
  · rename_i h
    exact iff_of_true rfl (.inr h)
  · rename_i h
    exact ⟨.inl, fun h' => h'.resolve_right h⟩

/-- The short average reads the ring and its head only (R285). -/
theorem shortAvgRaw_congr (n : Nat) {c d : Sensor} (h1 : c.cs_ring = d.cs_ring) (h2 : c.cs_head = d.cs_head) :
    shortAvgRaw n c = shortAvgRaw n d := by
  unfold shortAvgRaw
  rw [show sampleBack n c = sampleBack n d from funext fun k => by simp only [sampleBack, h1, h2]]

/-- The capture log is a sink (R38). -/
theorem capture_cases (raw : BitVec 12) (s : State) : (s.cfg.caplog_active = false ∧ capture raw s = s) ∨
    (s.cfg.caplog_active = true ∧ ∃ l,
        capture raw s = { s with cs := { s.cs with cap_log := l }, draws := s.draws + 1 }) := by
  unfold capture
  cases h : s.cfg.caplog_active
  · exact .inl ⟨rfl, rfl⟩
  · exact .inr ⟨rfl, _, rfl⟩

/-- All that one drained entry can do (R283, R284). -/
theorem drainOne_frame (s : State) (e : BitVec 12 × Bool) : ∃ b l d,
    drainOne s e = { s with
      cs := { s.cs with
        cs_ring := s.cs.cs_ring.set s.cs.cs_head e.1, cs_head := (s.cs.cs_head + 1) % s.cfg.long_avg_n,
        adc_err_cnt := s.cs.adc_err_cnt + (if e.2 then 1 else 0), cap_log := l }
      svc := { s.svc with ack_seen := b }
      draws := d } ∧
    (s.svc.ack_seen = true → b = true) ∧ (s.svc.ack_armed = false → b = s.svc.ack_seen) ∧
    (s.cfg.caplog_active = false → l = s.cs.cap_log ∧ d = s.draws) := by
  obtain ⟨x, f⟩ := e
  have key : ∀ (k : Nat), ∃ b l d, ackCheck (capture x { s with
      cs := (ringWrite s.cfg.long_avg_n x { s.cs with adc_err_cnt := k }) }) = { s with
      cs := { s.cs with
        cs_ring := s.cs.cs_ring.set s.cs.cs_head x, cs_head := (s.cs.cs_head + 1) % s.cfg.long_avg_n,
        adc_err_cnt := k, cap_log := l }
      svc := { s.svc with ack_seen := b }
      draws := d } ∧
    (s.svc.ack_seen = true → b = true) ∧ (s.svc.ack_armed = false → b = s.svc.ack_seen) ∧
    (s.cfg.caplog_active = false → l = s.cs.cap_log ∧ d = s.draws) := by
    intro k
    rcases capture_cases x { s with cs := ringWrite s.cfg.long_avg_n x { s.cs with adc_err_cnt := k } } with
      ⟨hc, h⟩ | ⟨hc, l, h⟩
    · rw [h]
      rcases ackCheck_cases { s with cs := ringWrite s.cfg.long_avg_n x { s.cs with adc_err_cnt := k } } with
        h2 | ⟨ha, h2⟩
      · rw [h2]
        exact ⟨s.svc.ack_seen, s.cs.cap_log, s.draws, rfl, id, fun _ => rfl, fun _ => ⟨rfl, rfl⟩⟩
      · rw [h2]
        refine ⟨true, s.cs.cap_log, s.draws, rfl, fun _ => rfl, fun hf => ?_, fun _ => ⟨rfl, rfl⟩⟩
        exact absurd (show s.svc.ack_armed = true from ha) (by simp [hf])
    · rw [h]
      rcases ackCheck_cases { s with
          cs := { ringWrite s.cfg.long_avg_n x { s.cs with adc_err_cnt := k } with cap_log := l }
          draws := s.draws + 1 } with h2 | ⟨ha, h2⟩
      · refine ⟨s.svc.ack_seen, l, s.draws + 1, h2, id, fun _ => rfl, fun hf => ?_⟩
        exact absurd (show s.cfg.caplog_active = true from hc) (by simp [hf])
      · refine ⟨true, l, s.draws + 1, h2, fun _ => rfl, fun hf => ?_, fun hf => ?_⟩
        · exact absurd (show s.svc.ack_armed = true from ha) (by simp [hf])
        · exact absurd (show s.cfg.caplog_active = true from hc) (by simp [hf])
  cases f
  · exact key s.cs.adc_err_cnt
  · exact key (s.cs.adc_err_cnt + 1)

/-- When one drained entry leaves `ack_seen` set: the comparison is made after its ring write (R283, R290). -/
theorem drainOne_seen (s : State) (e : BitVec 12 × Bool) : (drainOne s e).svc.ack_seen = true ↔
    s.svc.ack_seen = true ∨ (s.svc.ack_armed = true ∧
      s.svc.ack_threshold_mA ≤ toMA (shortAvgRaw s.cfg.long_avg_n (ringWrite s.cfg.long_avg_n e.1 s.cs))) := by
  obtain ⟨x, f⟩ := e
  have key : ∀ k : Nat, (ackCheck (capture x { s with
      cs := ringWrite s.cfg.long_avg_n x { s.cs with adc_err_cnt := k } })).svc.ack_seen = true ↔
      s.svc.ack_seen = true ∨ (s.svc.ack_armed = true ∧
        s.svc.ack_threshold_mA ≤ toMA (shortAvgRaw s.cfg.long_avg_n (ringWrite s.cfg.long_avg_n x s.cs))) := by
    intro k
    rw [ackCheck_seen]
    rcases capture_cases x { s with cs := ringWrite s.cfg.long_avg_n x { s.cs with adc_err_cnt := k } } with
      ⟨-, h⟩ | ⟨-, l, h⟩ <;>
    · rw [h]
      exact Iff.rfl
  cases f
  · exact key s.cs.adc_err_cnt
  · exact key (s.cs.adc_err_cnt + 1)

/-- What the drain leaves alone. -/
theorem adcDrain_frame (s : State) : ∃ c b d, adcDrain s = { s with
    cs := c, svc := { s.svc with ack_seen := b }, draws := d } ∧
    c.adc_run = s.cs.adc_run ∧ c.adc_fifo = [] ∧ (s.svc.ack_seen = true → b = true) ∧
    (s.svc.ack_armed = false → b = s.svc.ack_seen) ∧ c.cs_ring.length = s.cs.cs_ring.length ∧
    (0 < s.cfg.long_avg_n → s.cs.cs_head < s.cfg.long_avg_n → c.cs_head < s.cfg.long_avg_n) := by
  have key : ∀ (l : List (BitVec 12 × Bool)) (s : State), ∃ c b d, l.foldl drainOne s = { s with
      cs := c, svc := { s.svc with ack_seen := b }, draws := d } ∧ c.adc_run = s.cs.adc_run ∧
      (s.svc.ack_seen = true → b = true) ∧ (s.svc.ack_armed = false → b = s.svc.ack_seen) ∧
      c.cs_ring.length = s.cs.cs_ring.length ∧
      (0 < s.cfg.long_avg_n → s.cs.cs_head < s.cfg.long_avg_n → c.cs_head < s.cfg.long_avg_n) := by
    intro l
    induction l with
    | nil => exact fun s => ⟨s.cs, s.svc.ack_seen, s.draws, rfl, rfl, id, fun _ => rfl, rfl, fun _ h => h⟩
    | cons e t ih =>
      intro s
      obtain ⟨b, l, d, he, h1, h2, -⟩ := drainOne_frame s e
      obtain ⟨c', b', d', he', hr, h3, h4, h5, h6⟩ := ih (drainOne s e)
      rw [he] at he' hr h3 h4 h5 h6
      refine ⟨c', b', d', by rw [List.foldl_cons, he, he'], hr, fun h => h3 (h1 h), fun h => ?_, ?_, fun hp _ => ?_⟩
      · rw [h4 h]
        exact h2 h
      · simpa using h5
      · exact h6 hp (Nat.mod_lt _ hp)
  obtain ⟨c, b, d, he, hr, h1, h2, h3, h4⟩ := key s.cs.adc_fifo s
  refine ⟨{ c with adc_fifo := [] }, b, d, ?_, hr, rfl, h1, h2, h3, h4⟩
  simp only [adcDrain, he]

theorem adcDrain_kept (s : State) : (adcDrain s).cfg = s.cfg ∧ (adcDrain s).mode = s.mode ∧ (adcDrain s).bs = s.bs ∧
    (adcDrain s).thr = s.thr ∧ (adcDrain s).thr_list = s.thr_list ∧ (adcDrain s).rr_cursor = s.rr_cursor ∧
    (adcDrain s).rc = s.rc ∧ (adcDrain s).trace = s.trace ∧ (adcDrain s).now = s.now ∧ (adcDrain s).resp = s.resp ∧
    (adcDrain s).codec = s.codec ∧ (adcDrain s).inputs = s.inputs := by
  obtain ⟨c, b, d, h, -⟩ := adcDrain_frame s
  rw [h]
  exact ⟨rfl, rfl, rfl, rfl, rfl, rfl, rfl, rfl, rfl, rfl, rfl, rfl⟩

end Sys2Proof.Machine
end

