-- ==== Sys2Proof/Laws/Scheduler.lean ====
section
/-! SUPPORT. What the scheduler's pull can do (44_scheduler.md R311 to R321). -/

namespace Sys2Proof.Machine

/-! ### Packets of the sequencer and of the rotation -/

theorem svcCmdPacket_ok (v : Service) : (svcCmdPacket v).Ok := by
  unfold svcCmdPacket
  split
  · exact plainPacket_ok ..
  · exact plainPacket_ok ..
  · split <;> exact plainPacket_ok ..
  · exact plainPacket_ok ..
  · exact reset_ok

/-- A packet of the rotation is a cached one or, outside the cache, Idle (R371). -/
theorem rot_cases (t : Throttle) (q : Nat) : rot t q = t.pkt_speed ∨ rot t q ∈ t.pkt_func ∨ rot t q = IDLE := by
  unfold rot
  split
  · exact .inl rfl
  · rw [List.getD]
    cases h : t.pkt_func[(q - 1) / 2]? with
    | none => exact .inr (.inr rfl)
    | some p => exact .inr (.inl (List.mem_of_getElem? h))

/-- All that serving a throttle can write (R372, R384). -/
theorem nextPacket_frame (c : Config) (t : Throttle) : ∃ q r w b d o v,
    (nextPacket c t).2 = { t with
      seq := q, read_cv_cnt := r, write_cv_cnt := w, write_bit_cnt := b, ops_done := d, ops_ok := o, ops_val := v } ∧
    r ≤ t.read_cv_cnt ∧ w ≤ t.write_cv_cnt ∧ b ≤ t.write_bit_cnt ∧
    (q = t.seq ∨ q = (t.seq + 1) % seqMax c.func_cap) ∧
    ((opsPending t = true ∧ (nextPacket c t).1 = t.pkt_ops) ∨
      (opsPending t = false ∧ (nextPacket c t).1 = rot t t.seq)) := by
  unfold nextPacket
  split
  · rename_i h
    have hp : opsPending t = true := by simp [opsPending, h]
    simp only
    split
    · exact ⟨_, _, _, _, _, _, _, rfl, Nat.sub_le .., Nat.le_refl _, Nat.le_refl _, .inl rfl, .inl ⟨hp, trivial⟩⟩
    · exact ⟨_, _, _, _, _, _, _, rfl, Nat.sub_le .., Nat.le_refl _, Nat.le_refl _, .inl rfl, .inl ⟨hp, trivial⟩⟩
  split
  · rename_i h
    have hp : opsPending t = true := by simp [opsPending, h]
    simp only
    split
    · exact ⟨_, _, _, _, _, _, _, rfl, Nat.le_refl _, Nat.sub_le .., Nat.le_refl _, .inl rfl, .inl ⟨hp, trivial⟩⟩
    · exact ⟨_, _, _, _, _, _, _, rfl, Nat.le_refl _, Nat.sub_le .., Nat.le_refl _, .inl rfl, .inl ⟨hp, trivial⟩⟩
  split
  · rename_i h
    have hp : opsPending t = true := by simp [opsPending, h]
    simp only
    split
    · exact ⟨_, _, _, _, _, _, _, rfl, Nat.le_refl _, Nat.le_refl _, Nat.sub_le .., .inl rfl, .inl ⟨hp, trivial⟩⟩
    · exact ⟨_, _, _, _, _, _, _, rfl, Nat.le_refl _, Nat.le_refl _, Nat.sub_le .., .inl rfl, .inl ⟨hp, trivial⟩⟩
  · rename_i h1 h2 h3
    exact ⟨_, _, _, _, _, _, _, rfl, Nat.le_refl _, Nat.le_refl _, Nat.le_refl _, .inr rfl,
      .inr ⟨by simp [opsPending]; omega, rfl⟩⟩

/-! ### The end of a block (R319, R320) -/

/-- A block ends the operation with an outcome, or arms the detector and begins the next block. -/
theorem blockEnd_cases (s : State) :
    (∃ st val w, blockEnd s = (true, terminal st val { s with svc := { s.svc with svc_val := w } }) ∧
      (st = .Success ∨ st = .Error)) ∨
    (∃ k w, blockEnd s = (false, { s with svc := { s.svc with
        svc_step := k, svc_val := w, svc_phase := .Command, svc_cnt := SVC_COMMAND_CNT, ack_seen := false,
        ack_armed := true, ack_threshold_mA := longAvgMA s + ACK_MARGIN_MA } }) ∧
      (StepOk s.svc.svc_op s.svc.svc_step → StepOk s.svc.svc_op k)) := by
  have ho : ∀ b, outcomeOf b = .Success ∨ outcomeOf b = .Error := by intro b; cases b <;> simp [outcomeOf]
  unfold blockEnd
  dsimp only
  split
  · exact .inl ⟨_, _, s.svc.svc_val, rfl, ho _⟩
  · exact .inl ⟨_, _, s.svc.svc_val, rfl, ho _⟩
  · exact .inl ⟨_, _, s.svc.svc_val, rfl, ho _⟩
  · rename_i hop
    split
    · refine .inr ⟨_, _, rfl, fun _ => ?_⟩
      rw [hop]
      show (if 0 < s.svc.svc_step then s.svc.svc_step - 1 else 8) ≤ 8
      split <;> omega
    · exact .inl ⟨_, _, s.svc.svc_val, rfl, ho _⟩
  · rename_i hop
    split
    · split
      · exact .inl ⟨_, _, _, rfl, .inl rfl⟩
      · refine .inr ⟨_, s.svc.svc_val, rfl, fun _ => ?_⟩
        rw [hop]
        exact Nat.le_refl 1
    · split
      · exact .inl ⟨_, _, _, rfl, .inl rfl⟩
      · exact .inl ⟨_, _, s.svc.svc_val, rfl, .inr rfl⟩

/-! ### The pull -/

/-- A running service operation (R45 clause 3, R23, R26). -/
structure Running (v : Service) : Prop where
  op : v.svc_op ≠ .None
  busy : v.svc_status = .Busy
  count : CountOk v.svc_phase v.svc_cnt
  step : StepOk v.svc_op v.svc_step
  armed : v.ack_armed = true ↔ v.svc_phase ≠ .Reset1
  seen : v.ack_seen = true → v.ack_armed = true

theorem countOk_command : CountOk .Command SVC_COMMAND_CNT := ⟨by decide, by decide⟩
theorem countOk_reset2 : CountOk .Reset2 SVC_RESET2_CNT := Nat.le_refl _

/-- An ack cuts the Command phase short, and changes nothing else (R321). -/
theorem fastForward_cases (s : State) : fastForward s = s ∨ (s.svc.svc_phase = .Command ∧ s.svc.ack_seen = true ∧
    s.cfg.caplog_active = false ∧
    fastForward s = { s with svc := { s.svc with svc_phase := .Reset2, svc_cnt := SVC_RESET2_CNT } }) := by
  unfold fastForward
  split
  · rename_i h
    exact .inr ⟨h.1, h.2.1, by simpa using h.2.2, rfl⟩
  · exact .inl rfl

/-- Handing out a packet writes the sequencer's registers only, and keeps a running operation running while packets are
left to hand out. -/
theorem handOut_frame (s : State) : ∃ v, (handOut s).2 = { s with svc := v } ∧ (handOut s).1.Ok ∧
    (Running s.svc → 1 ≤ s.svc.svc_cnt → Running v) := by
  unfold handOut
  cases hp : s.svc.svc_phase with
  | Reset1 =>
    simp only
    split
    · refine ⟨_, rfl, reset_ok, fun h hc => ⟨h.op, h.busy, countOk_command, h.step, by simp [arm], by simp [arm]⟩⟩
    · rename_i hz
      refine ⟨_, rfl, reset_ok, fun h hc => ⟨h.op, h.busy, ?_, h.step, h.armed, h.seen⟩⟩
      have := h.count
      simp only [hp, CountOk] at this ⊢
      omega
  | Command =>
    simp only
    split
    · refine ⟨_, rfl, svcCmdPacket_ok _, fun h hc => ⟨h.op, h.busy, countOk_reset2, h.step, ?_, h.seen⟩⟩
      have := h.armed
      simpa [hp] using this
    · rename_i hz
      refine ⟨_, rfl, svcCmdPacket_ok _, fun h hc => ⟨h.op, h.busy, ?_, h.step, h.armed, h.seen⟩⟩
      have := h.count
      simp only [hp, CountOk] at this ⊢
      omega
  | Reset2 =>
    refine ⟨_, rfl, reset_ok, fun h hc => ⟨h.op, h.busy, ?_, h.step, h.armed, h.seen⟩⟩
    have := h.count
    simp only [hp, CountOk] at this ⊢
    omega

/-- All that a service pull can do: end the operation, or hand out one packet. -/
theorem pullSvc_cases (s : State) :
    (s.svc.svc_phase = .Reset2 ∧ s.svc.svc_cnt = 0 ∧ ∃ st val w, pullSvc s =
        ({ pkt := RESET, ref := none }, terminal st val { s with svc := { s.svc with svc_val := w } }) ∧
      (st = .Success ∨ st = .Error)) ∨
    (∃ p v, pullSvc s = ({ pkt := p, ref := none }, { s with svc := v }) ∧ p.Ok ∧ (Running s.svc → Running v)) := by
  unfold pullSvc
  by_cases hb : s.svc.svc_phase = .Reset2 ∧ s.svc.svc_cnt = 0
  · rw [if_pos hb]
    rcases blockEnd_cases s with ⟨st, val, w, h, ho⟩ | ⟨k, w, h, hs⟩
    · refine .inl ⟨hb.1, hb.2, st, val, w, ?_, ho⟩
      simp only [h, if_true]
    · refine .inr ?_
      rw [h]
      simp only [Bool.false_eq_true, if_false]
      rcases fastForward_cases { s with svc := { s.svc with
        svc_step := k, svc_val := w, svc_phase := .Command, svc_cnt := SVC_COMMAND_CNT, ack_seen := false,
        ack_armed := true, ack_threshold_mA := longAvgMA s + ACK_MARGIN_MA } } with hf | ⟨-, hf, -⟩
      · rw [hf]
        obtain ⟨v, hv, hok, hr⟩ := handOut_frame { s with svc := { s.svc with
          svc_step := k, svc_val := w, svc_phase := .Command, svc_cnt := SVC_COMMAND_CNT, ack_seen := false,
          ack_armed := true, ack_threshold_mA := longAvgMA s + ACK_MARGIN_MA } }
        refine ⟨_, v, Prod.ext rfl hv, hok, fun h => hr
          ⟨h.op, h.busy, countOk_command, hs h.step, by simp, by simp⟩ (Nat.le_add_left 1 4)⟩
      · exact absurd hf (by simp)
  · refine .inr ?_
    rw [if_neg hb]
    simp only [Bool.false_eq_true, if_false]
    rcases fastForward_cases s with hf | ⟨h1, h2, h3, hf⟩
    · rw [hf]
      obtain ⟨v, hv, hok, hr⟩ := handOut_frame s
      refine ⟨_, v, Prod.ext rfl hv, hok, fun h => hr h ?_⟩
      have := h.count
      revert this hb
      cases s.svc.svc_phase <;> simp [CountOk] <;> omega
    · rw [hf]
      obtain ⟨v, hv, hok, hr⟩ := handOut_frame
        { s with svc := { s.svc with svc_phase := .Reset2, svc_cnt := SVC_RESET2_CNT } }
      refine ⟨_, v, Prod.ext rfl hv, hok, fun h => hr ⟨h.op, h.busy, countOk_reset2, h.step, ?_, h.seen⟩
        (Nat.le_add_left 1 4)⟩
      have := h.armed
      simpa [h1] using this

/-- What `mode_off_effects` leaves (R323). -/
theorem modeOffEffects_eq (s : State) : modeOffEffects s = { s with
    mode := .Off
    cs := { s.cs with adc_run := false, adc_fifo := [] }
    bs := if s.bs.bs_run then { s.bs with bs_run := false, dcc_sig := .const false, dcc_pwr := .const false } else s.bs
    svc := { s.svc with
      svc_op := .None, svc_phase := .Reset1, svc_cnt := 0, svc_step := 0, ack_armed := false, ack_seen := false } } := by
  simp only [modeOffEffects, adcStop, stop]
  split <;> rfl

/-- What `terminal` leaves (R320). -/
theorem terminal_eq (st : SvcStatus) (val : Byte) (s : State) : terminal st val s = { s with
    mode := .Off
    cs := { s.cs with adc_run := false, adc_fifo := [] }
    bs := if s.bs.bs_run then { s.bs with bs_run := false, dcc_sig := .const false, dcc_pwr := .const false } else s.bs
    svc := { s.svc with
      svc_status := st, svc_result := val, svc_op := .None, svc_phase := .Reset1, svc_cnt := 0, svc_step := 0,
      ack_armed := false, ack_seen := false } } := by
  simp only [terminal, modeOffEffects, adcStop, stop]
  split <;> rfl

/-- All that an operations-mode pull can do (R313). -/
theorem pullOps_cases (s : State) : pullOps s = ({ pkt := IDLE, ref := none }, s) ∨
    (s.thr_list ≠ [] ∧ ∃ i, i = s.thr_list.getD s.rr_cursor 0 ∧ pullOps s =
      ({ pkt := (nextPacket s.cfg (thrAt s i)).1, ref := some { slot := i, gen := (thrAt s i).gen } },
       { s with rr_cursor := (s.rr_cursor + 1) % s.thr_list.length
                thr := s.thr.set i (nextPacket s.cfg (thrAt s i)).2 })) := by
  unfold pullOps
  split
  · exact .inl rfl
  · rename_i h
    exact .inr ⟨fun e => h (by rw [e]; rfl), _, rfl, rfl⟩

/-- What no pull writes. -/
theorem pullPacket_kept (s : State) : (pullPacket s).2.cfg = s.cfg ∧ (pullPacket s).2.thr_list = s.thr_list ∧
    (pullPacket s).2.rc = s.rc ∧ (pullPacket s).2.trace = s.trace ∧ (pullPacket s).2.now = s.now ∧
    (pullPacket s).2.resp = s.resp ∧ (pullPacket s).2.codec = s.codec ∧ (pullPacket s).2.inputs = s.inputs ∧
    (pullPacket s).2.draws = s.draws := by
  unfold pullPacket
  split
  · rcases pullOps_cases s with h | ⟨-, i, -, h⟩ <;> rw [h] <;> exact ⟨rfl, rfl, rfl, rfl, rfl, rfl, rfl, rfl, rfl⟩
  · rcases pullSvc_cases s with ⟨-, -, st, val, w, h, -⟩ | ⟨p, v, h, -⟩
    · rw [h, terminal_eq]; exact ⟨rfl, rfl, rfl, rfl, rfl, rfl, rfl, rfl, rfl⟩
    · rw [h]; exact ⟨rfl, rfl, rfl, rfl, rfl, rfl, rfl, rfl, rfl⟩
  · exact ⟨rfl, rfl, rfl, rfl, rfl, rfl, rfl, rfl, rfl⟩

/-- A pull leaves the bit engine and the mode alone, or it ends a service operation and stops the engine (R207, R320). -/
theorem pullPacket_engine (s : State) : ((pullPacket s).2.bs = s.bs ∧ (pullPacket s).2.mode = s.mode ∧
      (pullPacket s).2.cs = s.cs) ∨
    (s.mode = .Service ∧ (pullPacket s).2.bs = (stop s).bs ∧ (pullPacket s).2.mode = .Off) := by
  unfold pullPacket
  split
  · rcases pullOps_cases s with h | ⟨-, i, -, h⟩ <;> rw [h] <;> exact .inl ⟨rfl, rfl, rfl⟩
  · rename_i hm
    rcases pullSvc_cases s with ⟨-, -, st, val, w, h, -⟩ | ⟨p, v, h, -⟩
    · rw [h, terminal_eq]; exact .inr ⟨hm, (stop_bs s).symm, rfl⟩
    · rw [h]; exact .inl ⟨rfl, rfl, rfl⟩
  · exact .inl ⟨rfl, rfl, rfl⟩

/-- A pull serves a throttle only as `nextPacket` does. -/
theorem pullPacket_throttle (s : State) (j : Nat) : thrAt (pullPacket s).2 j = thrAt s j ∨
    thrAt (pullPacket s).2 j = (nextPacket s.cfg (thrAt s j)).2 := by
  unfold pullPacket
  split
  · rcases pullOps_cases s with h | ⟨-, i, -, h⟩
    · rw [h]; exact .inl rfl
    · rw [h]
      have e : ∀ t : State, t.thr = s.thr.set i (nextPacket s.cfg (thrAt s i)).2 →
          thrAt t j = if j = i ∧ i < s.thr.length then (nextPacket s.cfg (thrAt s i)).2 else thrAt s j := fun t ht => by
        rw [thrAt_congr (t := setThr i (nextPacket s.cfg (thrAt s i)).2 s) ht, thrAt_set]
      rw [e _ rfl]
      split
      · rename_i e
        rw [e.1]
        exact .inr rfl
      · exact .inl rfl
  · rcases pullSvc_cases s with ⟨-, -, st, val, w, h, -⟩ | ⟨p, v, h, -⟩
    · rw [h, terminal_eq]; exact .inl rfl
    · rw [h]; exact .inl rfl
  · exact .inl rfl

theorem pullPacket_thr_length (s : State) : (pullPacket s).2.thr.length = s.thr.length := by
  unfold pullPacket
  split
  · rcases pullOps_cases s with h | ⟨-, i, -, h⟩ <;> rw [h] <;> simp
  · rcases pullSvc_cases s with ⟨-, -, st, val, w, h, -⟩ | ⟨p, v, h, -⟩
    · rw [h, terminal_eq]
    · rw [h]
  · rfl

end Sys2Proof.Machine
end

