-- ==== Sys2Proof/Laws/RailCom.lean ====
section
/-! SUPPORT. What the RailCom parser (42_railcom.md R247 to R252) and the delivery of messages (R206, R253,
    R387) can do. -/

namespace Sys2Proof.Machine

/-! ### The parser -/

/-- A channel-1 message is AHI or ALO (R250). -/
theorem rcCh1_some {t r m} (h : rcCh1 t = (some m, r)) : (∃ v, m = .ahi v) ∨ (∃ v, m = .alo v) := by
  unfold rcCh1 at h
  split at h
  · split at h
    · cases h; exact .inl ⟨_, rfl⟩
    split at h
    · cases h; exact .inr ⟨_, rfl⟩
    · cases h
  · cases h

theorem rcCh1_none {t} (h : (rcCh1 t).1 = none) : (rcCh1 t).2 = t := by
  unfold rcCh1 at h ⊢
  split
  · simp only at h
    split
    · rename_i e; simp [e] at h
    split
    · rename_i e; simp [e] at h
    · rfl
  · rfl

/-- A message of identifier AHI or ALO at the head of the symbols is channel 1's (R250). -/
theorem rcMsg_head {t m r} (h : rcMsg t = some (m, r)) (hm : (∃ v, m = .ahi v) ∨ (∃ v, m = .alo v)) :
    (rcCh1 t).1 ≠ none := by
  match t with
  | [] => simp [rcMsg] at h
  | .ack :: _ => simp [rcMsg] at h; rcases hm with ⟨v, e⟩ | ⟨v, e⟩ <;> simp [← h.1] at e
  | .nak :: _ => simp [rcMsg] at h; rcases hm with ⟨v, e⟩ | ⟨v, e⟩ <;> simp [← h.1] at e
  | .bsy :: _ => simp [rcMsg] at h; rcases hm with ⟨v, e⟩ | ⟨v, e⟩ <;> simp [← h.1] at e
  | .inv :: _ => simp [rcMsg] at h
  | .data s0 :: t' =>
    simp only [rcMsg] at h
    split at h
    · cases h
    split at h
    · cases h
    rename_i k _ _ ds r' htk
    simp only [Option.map_eq_some_iff] at h
    obtain ⟨m', hb, e⟩ := h
    cases e
    unfold buildMsg at hb
    split at hb
    · rename_i s1
      have : ∃ t'', t' = .data s1 :: t'' := by
        match k - 1, t', htk with
        | 0, _, htk => simp [takeData] at htk
        | n + 1, .data d :: t'', htk =>
          simp only [takeData] at htk
          split at htk
          · cases htk; exact ⟨_, rfl⟩
          · cases htk
        | n + 1, [], htk => simp [takeData] at htk
        | n + 1, .ack :: _, htk => simp [takeData] at htk
        | n + 1, .nak :: _, htk => simp [takeData] at htk
        | n + 1, .bsy :: _, htk => simp [takeData] at htk
        | n + 1, .inv :: _, htk => simp [takeData] at htk
      obtain ⟨t'', rfl⟩ := this
      simp only [rcCh1]
      split at hb
      · cases hb; simp at hm
      split at hb
      · rename_i e; simp [e]
      split at hb
      · rename_i e1 e; simp [e]
      · cases hb
    · repeat' (split at hb)
      all_goals (cases hb; try simp at hm)
    · split at hb <;> (cases hb; try simp at hm)
    · cases hb

theorem rcCh2_head {t v} (h : (rcCh1 t).1 = none) : (rcCh2 t).head? ≠ some (.ahi v) ∧ (rcCh2 t).head? ≠ some
    (.alo v) := by
  unfold rcCh2
  cases t with
  | nil => simp [rcCh2Loop]
  | cons a t =>
    simp only [List.length_cons, rcCh2Loop]
    cases hm : rcMsg (a :: t) with
    | none => simp
    | some p =>
      simp only
      cases rcCh2Loop t.length p.2 with
      | none => simp
      | some l =>
        simp only [Option.map_some, Option.getD_some, List.head?_cons]
        constructor <;> intro e <;> injection e with e
        · exact rcMsg_head hm (.inl ⟨_, e⟩) h
        · exact rcMsg_head hm (.inr ⟨_, e⟩) h

/-! ### A symbol that is no datum and no special (R252, R256) -/

theorem takeData_inv : ∀ k t ds r, takeData k t = some (ds, r) → Sym.inv ∈ t → Sym.inv ∈ r := by
  intro k
  induction k with
  | zero => intro t ds r h; simp [takeData] at h; intro hi; rw [← h.2]; exact hi
  | succ k ih =>
    intro t ds r h hi
    match t with
    | .data d :: t' =>
      simp only [takeData] at h
      split at h
      · rename_i ds' r' hk; cases h; exact ih _ _ _ hk (by simpa using hi)
      · cases h
    | [] => simp [takeData] at h
    | .ack :: _ => simp [takeData] at h
    | .nak :: _ => simp [takeData] at h
    | .bsy :: _ => simp [takeData] at h
    | .inv :: _ => simp [takeData] at h

theorem rcMsg_inv (t : List Sym) (m r) (h : rcMsg t = some (m, r)) (hi : Sym.inv ∈ t) : Sym.inv ∈ r := by
  match t with
  | .data s0 :: t' =>
    simp only [rcMsg] at h
    split at h
    · cases h
    split at h
    · cases h
    rename_i ds r' hk
    simp only [Option.map_eq_some_iff] at h
    obtain ⟨m', _, e⟩ := h
    cases e
    exact takeData_inv _ _ _ _ hk (by simpa using hi)
  | [] => simp [rcMsg] at h
  | .ack :: _ => simp [rcMsg] at h; rw [← h.2]; simpa using hi
  | .nak :: _ => simp [rcMsg] at h; rw [← h.2]; simpa using hi
  | .bsy :: _ => simp [rcMsg] at h; rw [← h.2]; simpa using hi
  | .inv :: _ => simp [rcMsg] at h

theorem rcCh2Loop_inv : ∀ n t, Sym.inv ∈ t → rcCh2Loop n t = none := by
  intro n
  induction n with
  | zero => intro t h; cases t; cases h; rfl
  | succ n ih =>
    intro t h
    cases t with
    | nil => cases h
    | cons a t =>
      simp only [rcCh2Loop]
      split
      · rfl
      · rename_i m r hm; rw [ih r (rcMsg_inv _ _ _ hm h)]; rfl

/-! ### Delivery -/

/-- A message is the next of channel 2 unless it is AHI or ALO and the first of the frame (R250, R252). -/
theorem recordMsg_ch2 (m : RcMsg) (s : State) (h : (∀ v, m ≠ .ahi v ∧
    m ≠ .alo v) ∨ s.rc.rc_ch1 ≠ none ∨ s.rc.rc_ch2 ≠ []) :
   recordMsg m s = { s with rc := { s.rc with rc_ch2 := s.rc.rc_ch2 ++ [m] } } := by
  unfold recordMsg
  cases m <;> try rfl
  · simp only; rw [if_neg]; rcases h with h | h
    · exact absurd rfl (h _).1
    · tauto
  · simp only; rw [if_neg]; rcases h with h | h
    · exact absurd rfl (h _).2
    · tauto

/-- A message that changes no throttle changes nothing. -/
theorem deliverLast_none (m : RcMsg) (hm : ∀ i s, deliverTo i m s = s) (s) : deliverLast [m] s = s := by
  unfold deliverLast
  split
  · split
    · simp [thrDeliver, hm]
    · rfl
  · rfl

/-- A message reaches a live reference, and no other (R206). -/
theorem deliverLast_live (m : RcMsg) (s : State) (r) (h : s.bs.last_ref = some r)
    (hl : live s r = true) : deliverLast [m] s = deliverTo r.slot m s := by
  simp [deliverLast, h, hl, thrDeliver]
theorem deliverLast_dead (m : List RcMsg) (s : State) (h : ∀ r,
    s.bs.last_ref = some r → live s r = false) : deliverLast m s = s := by
  unfold deliverLast; split
  · rename_i r hr; simp [h r hr]
  · rfl

/-- The valid part of the frame registers is the frame (R242), before its parse and after it. -/
theorem frameStart_raw (s : State) : (frameStart s).rc.rc_raw.take (frameStart s).rc.rc_cnt = frameBytes s := by
  simp [frameStart]

/-- A text never runs past its buffer, and it is whole exactly when that is reported (R174). -/
theorem render_bounded (cap : Nat) (t : List Byte) : (render cap t).text.length ≤ cap ∧
    ((render cap t).fits = true ↔ (render cap t).text = t) := by
  simp [render, List.length_take, List.take_eq_self_iff]

/-- A delivery writes the table and the log ring only. -/
theorem deliverLast_frame (ms : List RcMsg) (s : State) : ∃ th tr,
    deliverLast ms s = { s with thr := th, trace := tr } ∧ tr.trace_dcc = s.trace.trace_dcc ∧
    tr.trace_railcom = s.trace.trace_railcom ∧
    tr.trace_speed = s.trace.trace_speed ∧ tr.cmd_echo = s.trace.cmd_echo := by
  have h1 : ∀ i m (s : State), ∃ th tr, deliverTo i m s = { s with thr := th, trace := tr } ∧
      tr.trace_dcc = s.trace.trace_dcc ∧ tr.trace_railcom = s.trace.trace_railcom ∧
    tr.trace_speed = s.trace.trace_speed ∧ tr.cmd_echo = s.trace.cmd_echo := by
    intro i m s
    cases m with
    | pom v => exact ⟨_, s.trace, rfl, rfl, rfl, rfl, rfl⟩
    | dyn v x =>
      simp only [deliverTo]
      split
      · unfold logWhen; split
        · exact ⟨_, _, rfl, rfl, rfl, rfl, rfl⟩
        · exact ⟨_, s.trace, rfl, rfl, rfl, rfl, rfl⟩
      · exact ⟨s.thr, s.trace, rfl, rfl, rfl, rfl, rfl⟩
    | _ => exact ⟨s.thr, s.trace, rfl, rfl, rfl, rfl, rfl⟩
  have h2 : ∀ i ms (s : State), ∃ th tr, thrDeliver i ms s = { s with thr := th, trace := tr } ∧
      tr.trace_dcc = s.trace.trace_dcc ∧ tr.trace_railcom = s.trace.trace_railcom ∧
    tr.trace_speed = s.trace.trace_speed ∧ tr.cmd_echo = s.trace.cmd_echo := by
    intro i ms
    induction ms with
    | nil => intro s; exact ⟨s.thr, s.trace, rfl, rfl, rfl, rfl, rfl⟩
    | cons m t ih =>
      intro s
      obtain ⟨th, tr, he, a1, a2, a3, a4⟩ := h1 i m s
      obtain ⟨th', tr', he', b1, b2, b3, b4⟩ := ih (deliverTo i m s)
      rw [he] at he' b1 b2 b3 b4
      simp only [thrDeliver, List.foldl_cons] at he' ⊢
      rw [he, he']
      exact ⟨th', tr', rfl, b1.trans a1, b2.trans a2, b3.trans a3, b4.trans a4⟩
  unfold deliverLast
  split
  · split
    · exact h2 ..
    · exact ⟨s.thr, s.trace, rfl, rfl, rfl, rfl, rfl⟩
  · exact ⟨s.thr, s.trace, rfl, rfl, rfl, rfl, rfl⟩

/-- The step at the end of a frame writes the frame registers, the table and the log ring only (R206). -/
theorem railcomDeliver_frame (s : State) : ∃ r th tr,
    railcomDeliver s = { s with rc := r, thr := th, trace := tr } ∧ tr.trace_dcc = s.trace.trace_dcc ∧
    tr.trace_railcom = s.trace.trace_railcom ∧
    tr.trace_speed = s.trace.trace_speed ∧ tr.cmd_echo = s.trace.cmd_echo := by
  simp only [railcomDeliver]
  obtain ⟨th, tr, he, h1⟩ := deliverLast_frame (rcParse s.cfg.railcom_version
      (frameBytes s)).2 { frameStart s with rc := { (frameStart s).rc with rc_ch1 := (rcParse s.cfg.railcom_version (frameBytes s)).1, rc_ch2 := (rcParse s.cfg.railcom_version (frameBytes s)).2 } }
  rw [he]
  unfold logWhen
  split
  · exact ⟨_, _, _, rfl, h1⟩
  · exact ⟨_, _, _, rfl, h1⟩

end Sys2Proof.Machine
end

