-- ==== Sys2Proof/Laws/Interrupt.lean ====
section
/-! SUPPORT. What the bit-end interrupt can do (41_bitstream.md R205 to R209). -/

namespace Sys2Proof.Machine

/-! ### The advance (R205 steps 3 and 4) -/

/-- The advance writes the bit engine only: the position, the mark of a cutout, and the slot programmed. -/
theorem advanceFrom_frame (b : Bitstream) (s : State) : advanceFrom b s = { s with bs := (advanceFrom b s).bs } ∧
    (s.bs.bs_run = false → (advanceFrom b s).bs = s.bs) ∧
    (s.bs.bs_run = true → (advanceFrom b s).bs = advance (succPos b b.pos) (b.pos == .cutout 1) s.bs) := by
  unfold advanceFrom
  split
  · rename_i h
    exact ⟨rfl, fun h' => by simp [h] at h', fun _ => rfl⟩
  · rename_i h
    exact ⟨rfl, fun _ => rfl, fun h' => absurd h' h⟩

/-! ### The pull of the bit engine (R207) -/

theorem setSlot_slot (b : Bitstream) (i j : SlotSel) (p : TrackPacket) :
    (b.setSlot i p).slot j = if j = i then p else b.slot j := by
  cases i <;> cases j <;> rfl

/-- The pull fills the slot that is not on the wire. -/
theorem pullNext_frame (s : State) : pullNext s = { (pullPacket s).2 with
    bs := (pullPacket s).2.bs.setSlot s.bs.cur.other (pullPacket s).1, trace := (pullNext s).trace } ∧
    (pullNext s).trace.trace_dcc = s.trace.trace_dcc ∧ (pullNext s).trace.trace_railcom = s.trace.trace_railcom ∧
    (pullNext s).trace.trace_speed = s.trace.trace_speed ∧ (pullNext s).trace.cmd_echo = s.trace.cmd_echo := by
  have h := pullPacket_kept s
  unfold pullNext
  cases e : s.trace.trace_dcc
  · exact ⟨rfl, by simp [logWhen, h.2.2.2.1, e]⟩
  · exact ⟨rfl, by simp [logWhen, logLine, h.2.2.2.1, e]⟩

/-- What the pull does to the bit engine: it fills the slot that is not on the wire, and where it ends a service operation
it stops the engine with both signals constant (R207, R211, R320). -/
theorem pullNext_engine {s : State} (hr : s.bs.bs_run = true) :
    (pullNext s).bs.slot s.bs.cur.other = (pullPacket s).1 ∧ (pullNext s).bs.slot s.bs.cur = s.bs.slot s.bs.cur ∧
    (pullNext s).bs.cur = s.bs.cur ∧ (pullNext s).bs.last_ref = s.bs.last_ref ∧ (pullNext s).bs.pos = s.bs.pos ∧
    (pullNext s).bs.from_cutout = s.bs.from_cutout ∧ (pullNext s).bs.wire = s.bs.wire ∧
    (pullNext s).bs.preamble_bits = s.bs.preamble_bits ∧ (pullNext s).bs.railcom_enabled = s.bs.railcom_enabled ∧
    (pullNext s).bs.bs_run = (pullPacket s).2.bs.bs_run ∧
    ((pullNext s).bs.bs_run = false →
      (pullNext s).bs.dcc_sig = .const false ∧ (pullNext s).bs.dcc_pwr = .const false) := by
  have hne : s.bs.cur ≠ s.bs.cur.other := by cases s.bs.cur <;> simp [SlotSel.other]
  have kept : ∀ (b : Bitstream) i p, (b.setSlot i p).wire = b.wire ∧ (b.setSlot i p).pos = b.pos ∧
      (b.setSlot i p).last_ref = b.last_ref ∧ (b.setSlot i p).cur = b.cur ∧
      (b.setSlot i p).preamble_bits = b.preamble_bits ∧ (b.setSlot i p).railcom_enabled = b.railcom_enabled ∧
      (b.setSlot i p).from_cutout = b.from_cutout ∧ (b.setSlot i p).bs_run = b.bs_run ∧
      (b.setSlot i p).dcc_sig = b.dcc_sig ∧ (b.setSlot i p).dcc_pwr = b.dcc_pwr := by
    intro b i p
    cases i <;> simp [Bitstream.setSlot]
  rw [(pullNext_frame s).1]
  simp only [setSlot_slot]
  rcases pullPacket_engine s with ⟨h, -⟩ | ⟨-, h, -⟩
  · simp [kept, hne, h, hr]
  · simp [kept, hne, h, stop_bs, hr]
    cases s.bs.cur <;> rfl

/-! ### The effects (R205 step 2): which one applies -/

theorem effects_cutout {s : State} (h : s.bs.pos = .cutout CUTOUT_BITS) : effects s = uartReset s := by
  unfold effects; rw [if_pos h]

theorem effects_frameEnd {s : State} (hr : s.bs.railcom_enabled = true) (hf : s.bs.from_cutout = true)
    (hp : s.bs.pos = .preamble s.bs.preamble_bits) : effects s = railcomDeliver s := by
  unfold effects
  rw [if_neg (by rw [hp]; simp), if_pos (by simp [atFrameEnd, hr, hf, hp])]

theorem effects_pull {s : State} (hp : s.bs.pos = .preamble 1)
    (hf : ¬ (s.bs.pos = .preamble s.bs.preamble_bits ∧ s.bs.from_cutout = true ∧ s.bs.railcom_enabled = true)) :
    effects s = pullNext s := by
  unfold effects
  rw [if_neg (by rw [hp]; simp), if_neg (by simpa [atFrameEnd, and_assoc] using hf), if_pos hp]

theorem effects_stopBit {s : State} {i : Nat} (hp : s.bs.pos = .trail i) (hl : s.bs.curPkt.len ≤ i + 1) :
    effects s = handOver s := by
  unfold effects
  rw [if_neg (by rw [hp]; simp), if_neg (by simp [atFrameEnd, hp]), if_neg (by rw [hp]; simp),
    if_pos (by simp [atStopBit, hp, hl])]

/-- At every other position nothing happens but the drain and the advance. -/
theorem effects_none {s : State} (h4 : s.bs.pos ≠ .cutout CUTOUT_BITS) (h1 : s.bs.pos ≠ .preamble 1)
    (hf : ¬ (s.bs.pos = .preamble s.bs.preamble_bits ∧ s.bs.from_cutout = true ∧ s.bs.railcom_enabled = true))
    (ht : ¬ ∃ i, s.bs.pos = .trail i ∧ s.bs.curPkt.len ≤ i + 1) : effects s = s := by
  unfold effects
  rw [if_neg h4, if_neg (by simpa [atFrameEnd, and_assoc] using hf), if_neg h1, if_neg]
  unfold atStopBit
  split
  · rename_i i e
    intro hl
    exact ht ⟨i, e, by simpa using hl⟩
  all_goals simp

/-- The step of a running engine: drain, effect, advance, latency draws. -/
theorem bitEnd_running {s : State} (h : s.bs.bs_run = true) :
    bitEnd s = drawLatency (advanceFrom s.bs (effects (adcDrain s))) := by
  unfold bitEnd
  rw [if_pos h]
  simp only [(adcDrain_kept s).2.2.1]

theorem bitEnd_stopped {s : State} (h : s.bs.bs_run = false) : bitEnd s = s := by
  unfold bitEnd
  simp [h]

/-- Only a service operation stops the engine from within (R320): in Ops it runs on. -/
theorem bitEnd_ops {s : State} (hm : s.mode = .Ops) (hr : s.bs.bs_run = true) :
    (bitEnd s).mode = .Ops ∧ (bitEnd s).bs.bs_run = true := by
  have he : (effects (adcDrain s)).mode = .Ops ∧ (effects (adcDrain s)).bs.bs_run = true := by
    obtain ⟨-, h2, h3, -⟩ := adcDrain_kept s
    rw [hm] at h2
    rw [← h3] at hr
    generalize adcDrain s = d at h2 hr
    unfold effects
    split
    · exact ⟨h2, hr⟩
    split
    · obtain ⟨r, th, tr, e, -⟩ := railcomDeliver_frame d
      rw [e]
      exact ⟨h2, hr⟩
    split
    · rw [(pullNext_frame d).1]
      rcases pullPacket_engine d with ⟨hb, hmode, -⟩ | ⟨hs, -⟩
      · refine ⟨hmode.trans h2, ?_⟩
        show ((pullPacket d).2.bs.setSlot d.bs.cur.other (pullPacket d).1).bs_run = true
        rw [hb]
        cases d.bs.cur <;> exact hr
      · rw [h2] at hs
        cases hs
    split <;> exact ⟨h2, hr⟩
  rw [bitEnd_running hr]
  have ha := advanceFrom_frame s.bs (effects (adcDrain s))
  rw [ha.1, ha.2.2 he.2]
  exact he

end Sys2Proof.Machine
end

