-- ==== Sys2Proof/Laws/Throttle.lean ====
section
/-! SUPPORT. The throttle list (44_scheduler.md R340 to R342) and the cached packets (45_throttle.md R373 to R379). -/

namespace Sys2Proof.Machine

/-! ### The sorted list -/

theorem insertSlot_congr {s t : State} (h : ∀ i, addrOf s i = addrOf t i) (i : Nat) (l : List Nat) :
    insertSlot s i l = insertSlot t i l := by
  induction l with
  | nil => rfl
  | cons j l ih => simp only [insertSlot, h, ih]

theorem insertSlot_perm (s : State) (i : Nat) (l : List Nat) : (insertSlot s i l).Perm (i :: l) := by
  induction l with
  | nil => exact .refl _
  | cons j l ih =>
    simp only [insertSlot]
    split
    · exact .refl _
    · exact (ih.cons j).trans (.swap ..)

theorem insertSlot_sorted {s : State} (i : Nat) {l : List Nat} (h : l.Pairwise (fun i j => addrOf s i ≤ addrOf s j)) :
    (insertSlot s i l).Pairwise (fun i j => addrOf s i ≤ addrOf s j) := by
  induction l with
  | nil => simp [insertSlot]
  | cons j l ih =>
    have hj := List.pairwise_cons.1 h
    simp only [insertSlot]
    split
    · rename_i hlt
      refine List.pairwise_cons.2 ⟨fun k hk => ?_, h⟩
      rcases List.mem_cons.1 hk with rfl | hk
      · omega
      · have := hj.1 k hk
        omega
    · rename_i hge
      refine List.pairwise_cons.2 ⟨fun k hk => ?_, ih hj.2⟩
      rcases List.mem_cons.1 ((insertSlot_perm s i l).mem_iff.1 hk) with rfl | hk
      · omega
      · exact hj.1 k hk

/-- "before the first entry whose address is greater" (R340). -/
theorem insertSlot_eq {s : State} (i : Nat) {l : List Nat} : insertSlot s i l =
    l.takeWhile (fun j => addrOf s j ≤ addrOf s i) ++ [i] ++ l.dropWhile (fun j => addrOf s j ≤ addrOf s i) := by
  induction l with
  | nil => rfl
  | cons j l ih =>
    simp only [insertSlot]
    split
    · rename_i h
      simp [show ¬ addrOf s j ≤ addrOf s i by omega]
    · rename_i h
      simp [show addrOf s j ≤ addrOf s i by omega, ih]

theorem foldl_insertSlot_perm (s : State) (l acc : List Nat) :
    (l.foldl (fun acc i => insertSlot s i acc) acc).Perm (l ++ acc) := by
  induction l generalizing acc with
  | nil => exact .refl _
  | cons i l ih =>
    simp only [List.foldl_cons, List.cons_append]
    exact (ih _).trans ((insertSlot_perm s i acc).append_left l |>.trans List.perm_middle)

/-- The sort reads the addresses only. -/
theorem sortSlots_congr {s t : State} (h : ∀ i, addrOf s i = addrOf t i) (l : List Nat) :
    sortSlots s l = sortSlots t l := by
  unfold sortSlots
  rw [show insertSlot s = insertSlot t from funext fun i => funext fun l => insertSlot_congr h i l]

theorem sortSlots_perm (s : State) (l : List Nat) : (sortSlots s l).Perm l := by
  have := foldl_insertSlot_perm s l []
  rwa [List.append_nil] at this

theorem sortSlots_sorted (s : State) (l : List Nat) :
    (sortSlots s l).Pairwise (fun i j => addrOf s i ≤ addrOf s j) := by
  have key : ∀ (l acc : List Nat), acc.Pairwise (fun i j => addrOf s i ≤ addrOf s j) →
      (l.foldl (fun acc i => insertSlot s i acc) acc).Pairwise (fun i j => addrOf s i ≤ addrOf s j) := by
    intro l
    induction l with
    | nil => exact fun _ h => h
    | cons i l ih => exact fun acc h => ih _ (insertSlot_sorted i h)
  exact key l [] .nil

theorem insertSlot_last {s : State} (i : Nat) {l : List Nat} (h : ∀ j ∈ l, addrOf s j ≤ addrOf s i) :
    insertSlot s i l = l ++ [i] := by
  induction l with
  | nil => rfl
  | cons j l ih =>
    have hj := h j (by simp)
    simp only [insertSlot]
    rw [if_neg (by omega), ih (fun k hk => h k (by simp [hk]))]
    rfl

/-- Sorting a sorted list changes nothing. -/
theorem sortSlots_of_sorted {s : State} {l : List Nat} (h : l.Pairwise (fun i j => addrOf s i ≤ addrOf s j)) :
    sortSlots s l = l := by
  have key : ∀ (l acc : List Nat), (acc ++ l).Pairwise (fun i j => addrOf s i ≤ addrOf s j) →
      l.foldl (fun acc i => insertSlot s i acc) acc = acc ++ l := by
    intro l
    induction l with
    | nil => simp
    | cons i l ih =>
      intro acc h
      have hi : insertSlot s i acc = acc ++ [i] :=
        insertSlot_last i fun j hj => (List.pairwise_append.1 h).2.2 j hj i (by simp)
      rw [List.foldl_cons, hi, ih _ (by simpa using h)]
      simp
  exact key l [] h

theorem ListOk.le {s : State} (h : ListOk s) : s.thr_list.Pairwise (fun i j => addrOf s i ≤ addrOf s j) :=
  h.sorted.imp Nat.le_of_lt

theorem ListOk.nodup {s : State} (h : ListOk s) : s.thr_list.Nodup :=
  h.sorted.imp fun hlt e => by rw [e] at hlt; exact Nat.lt_irrefl _ hlt

/-- Sorted with different addresses is strictly sorted. -/
theorem pairwise_lt_of_le {s : State} {l : List Nat} (hle : l.Pairwise (fun i j => addrOf s i ≤ addrOf s j))
    (hn : l.Nodup) (hinj : ∀ i ∈ l, ∀ j ∈ l, addrOf s i = addrOf s j → i = j) :
    l.Pairwise (fun i j => addrOf s i < addrOf s j) := by
  rw [List.pairwise_iff_getElem] at hle ⊢
  intro x y hx hy hxy
  refine Nat.lt_of_le_of_ne (hle x y hx hy hxy) fun e => ?_
  have := hinj _ (List.getElem_mem hx) _ (List.getElem_mem hy) e
  exact absurd ((List.Nodup.getElem_inj_iff hn).1 this) (Nat.ne_of_lt hxy)

theorem ListOk.address_inj {s : State} (h : ListOk s) {i j : Nat} (hi : i < s.thr.length) (hj : j < s.thr.length)
    (hvi : (thrAt s i).valid = true) (hvj : (thrAt s j).valid = true) (e : addrOf s i = addrOf s j) : i = j := by
  have ha : (thrAt s i).address = (thrAt s j).address := BitVec.eq_of_toNat_eq e
  have h1 := findSlot_unique h hi hvi
  rw [ha, findSlot_unique h hj hvj] at h1
  exact (Option.some.inj h1).symm

/-! ### Functions (20_memory.md R62, 45_throttle.md R376) -/

theorem setBit_getLsbD (f : BitVec 69) (n : Nat) (on : Bool) (k : Nat) (hk : k < 69) :
    (setBit f n on).getLsbD k = if k = n then on else f.getLsbD k := by
  have h1 : (1#69 <<< n).getLsbD k = decide (k = n) := by
    simp only [BitVec.getLsbD_shiftLeft, BitVec.getLsbD_one]
    by_cases e : k = n
    · subst e
      simp [hk]
    · simp only [e, decide_false]
      by_cases hlt : k < n
      · simp [hlt]
      · simp [hlt]
        omega
  unfold setBit
  cases on
  · simp only [Bool.false_eq_true, if_false, BitVec.getLsbD_and, BitVec.getLsbD_not, h1, hk, decide_true, Bool.true_and]
    by_cases e : k = n <;> simp [e]
  · simp only [if_true, BitVec.getLsbD_or, h1]
    by_cases e : k = n <;> simp [e]

theorem grp_lt {c : FuncCap} {n : Nat} (h : n ≤ fmax c) : grp n < groupCount c := by
  have : n ≤ 68 := Nat.le_trans h (by cases c <;> decide)
  revert h
  cases c <;> simp only [fmax, groupCount, grp] <;> intro h <;> repeat' split
  all_goals omega

theorem groupCount_le (c : FuncCap) : 2 ≤ groupCount c ∧ groupCount c ≤ 10 := by cases c <;> decide

/-- The bits of a group are those of its functions. -/
theorem groupBits_congr {f f' : BitVec 69} {g : Nat} (hg : g ≤ 9)
    (h : ∀ n, n ≤ 68 → grp n = g → f.getLsbD n = f'.getLsbD n) : groupBits g f = groupBits g f' := by
  have ex : ∀ (lo w : Nat), lo + w ≤ 69 → (∀ n, n < 69 → lo ≤ n → n < lo + w → grp n = g) →
      f.extractLsb' lo w = f'.extractLsb' lo w := by
    intro lo w hl hw
    ext i hi
    simp only [BitVec.getElem_extractLsb']
    exact h _ (by omega) (hw _ (by omega) (Nat.le_add_right ..) (by omega))
  have e : g = 0 ∨ g = 1 ∨ g = 2 ∨ g = 3 ∨ g = 4 ∨ g = 5 ∨ g = 6 ∨ g = 7 ∨ g = 8 ∨ g = 9 := by omega
  rcases e with rfl | rfl | rfl | rfl | rfl | rfl | rfl | rfl | rfl | rfl <;> simp only [groupBits] <;>
    rw [ex _ _ (by decide) (by decide)]

/-- Setting one function leaves the cached packets of the other groups right (R376, R45 clause 6). -/
theorem funcPackets_set (c : Config) (a : BitVec 14) (f : BitVec 69) {n : Nat} (on : Bool) (h : n ≤ fmax c.func_cap) :
    (funcPackets c a f).set (grp n) (funcPacket c (grp n) a (setBit f n on)) = funcPackets c a (setBit f n on) := by
  have hg := groupCount_le c.func_cap
  apply List.ext_getElem
  · simp [funcPackets]
  · intro i h1 h2
    have hi : i < groupCount c.func_cap := by simpa [funcPackets] using h2
    rw [List.getElem_set]
    split
    · rename_i e
      subst e
      simp [funcPackets]
    · rename_i e
      simp only [funcPackets, List.getElem_map, List.getElem_range, funcPacket]
      rw [groupBits_congr (f' := setBit f n on) (by omega)]
      intro k hk hgk
      rw [setBit_getLsbD f n on k (by omega), if_neg]
      rintro rfl
      exact e hgk

theorem funcPackets_ok {c : Config} {a : BitVec 14} {f : BitVec 69} {p : DccPacket} (h : p ∈ funcPackets c a f) :
    p.Ok := by
  obtain ⟨g, -, rfl⟩ := List.mem_map.1 h
  exact funcPacket_ok ..

/-- What goes out of a throttle that keeps R45 is a good packet (R371, R372). -/
theorem nextPacket_ok {c : Config} {t : Throttle} (h : ThrottleOk c t) : (nextPacket c t).1.Ok := by
  obtain ⟨q, r, w, b, d, o, v, -, -, -, -, -, h5⟩ := nextPacket_frame c t
  rcases h5 with ⟨hp, e⟩ | ⟨-, e⟩
  · rw [e]
    exact h.opsPacket hp
  · rw [e]
    rcases rot_cases t t.seq with e | hm | e
    · rw [e, h.cachedSpeed]
      exact speedPacket_ok ..
    · rw [h.cachedFunc] at hm
      exact funcPackets_ok hm
    · rw [e]
      exact idle_ok

end Sys2Proof.Machine
end

