-- ==== Sys2Proof/Laws/Invariant.lean ====
section
/-! SUPPORT. What keeps the invariant (10_state.md R45): a change of fields the invariant does not read,
    of one throttle,
of the sequencer, of the list; and each shared operation. `X_inv` says that the operation `X` keeps it. -/

namespace Sys2Proof.Machine

/-- Invariant depends on these fields only. -/
theorem Invariant.congr_fields {s t : State} (h : Invariant s) (h1 : t.cfg = s.cfg) (h2 : t.mode = s.mode)
    (h3 : t.bs = s.bs) (h4 : t.thr = s.thr)
   (h5 : t.thr_list = s.thr_list) (h6 : t.rr_cursor = s.rr_cursor) (h7 : t.svc = s.svc) (h8 : t.cs = s.cs)
   (h9 : t.rc.rc_raw = s.rc.rc_raw) (h10 : t.rc.rc_cnt = s.rc.rc_cnt) : Invariant t := by
  cases s; cases t
  simp only at *
  subst h1 h2 h3 h4 h5 h6 h7 h8
  exact ⟨h.cfg, h.run, h.adc, h.adcFifo, ⟨h.engine.slotA, h.engine.slotB, h.engine.refA, h.engine.refB, h.engine.refLast,
      h.engine.preambleOps, h.engine.preambleSvc, h.engine.railcom, h.engine.pos, h.engine.fromCutout⟩,
    ⟨h.service.op, h.service.busy, h.service.count, h.service.step, h.service.armed, h.service.seen, h.service.idle⟩,
    ⟨h.list.sorted, h.list.holds, h.list.cursor⟩, h.throttles,
    ⟨h.sizes.thr, h.sizes.ring, h.sizes.head, h.sizes.fifo, by rw [h9]; exact h.sizes.raw,
        by rw [h10]; exact h.sizes.count⟩⟩

/-- Changing the throttle table. -/
theorem Invariant.of_thr {s t : State} (h : Invariant s) (h1 : t.cfg = s.cfg) (h2 : t.mode = s.mode) (h3 : t.bs = s.bs)
   (hl : t.thr.length = s.thr.length)
   (hv : ∀ j, (thrAt t j).valid = (thrAt s j).valid) (hg : ∀ j, (thrAt t j).gen = (thrAt s j).gen) (ha : ∀ j,
      (thrAt t j).address = (thrAt s j).address)
   (hok : ∀ j, (thrAt s j).valid = true → ThrottleOk s.cfg (thrAt t j))
   (h5 : t.thr_list = s.thr_list) (h6 : t.rr_cursor < max s.thr_list.length 1) (h7 : t.svc = s.svc) (h8 : t.cs = s.cs)
   (h9 : t.rc.rc_raw = s.rc.rc_raw) (h10 : t.rc.rc_cnt = s.rc.rc_cnt) : Invariant t := by
  have hr : ∀ r, RefOk s r → RefOk t r := by
    intro r hr x hx; have := hr x hx; rw [hl, hg]; exact this
  have had : ∀ j, addrOf t j = addrOf s j := by intro j; simp only [addrOf, ha]
  refine ⟨by rw [h1]; exact h.cfg, by rw [h2, h3]; exact h.run, by rw [h8, h3]; exact h.adc,
    by rw [h2, h8]; exact h.adcFifo, ?_, ?_, ?_, ?_, ?_⟩
  · have e := h.engine
    exact ⟨by rw [h3]; exact e.slotA, by rw [h3]; exact e.slotB, by rw [h3]; exact hr _ e.refA,
        by rw [h3]; exact hr _ e.refB, by rw [h3]; exact hr _ e.refLast, by rw [h2, h3]; exact e.preambleOps,
        by rw [h2, h3]; exact e.preambleSvc, by rw [h3, h1]; exact e.railcom, by rw [h3, h1]; exact e.pos,
        by rw [h3]; exact e.fromCutout⟩
  · have e := h.service
    exact ⟨by rw [h2, h7]; exact e.op, by rw [h2, h7]; exact e.busy, by rw [h2, h7]; exact e.count,
        by rw [h7]; exact e.step, by rw [h2, h7]; exact e.armed, by rw [h7]; exact e.seen,
        by rw [h2, h7]; exact e.idle⟩
  · refine ⟨?_, ?_, by rw [h5]; exact h6⟩
    · rw [h5]; simp only [had]; exact h.list.sorted
    · intro i; rw [h5, hl, hv]; exact h.list.holds i
  · intro x hx hvx
    obtain ⟨j, hj, rfl⟩ := mem_thr.1 hx
    rw [h1]; exact hok j (by rw [← hv]; exact hvx)
  · have e := h.sizes
    exact ⟨by rw [hl, h1]; exact e.thr, by rw [h8, h1]; exact e.ring, by rw [h8, h1]; exact e.head,
        by rw [h8, h1]; exact e.fifo, by rw [h9]; exact e.raw, by rw [h10]; exact e.count⟩

theorem throttleOk_at {s : State} (h : Invariant s) {j} (hv : (thrAt s j).valid = true) : ThrottleOk s.cfg
    (thrAt s j) :=
  h.throttles _ (thrAt_mem (thrAt_valid_lt hv)) hv

theorem Invariant.of_setThr {s : State} (h : Invariant s) (i : Nat) (t : Throttle) (hv : t.valid =
    (thrAt s i).valid) (hg : t.gen = (thrAt s i).gen) (ha : t.address = (thrAt s i).address)
   (hok : (thrAt s i).valid = true → ThrottleOk s.cfg t) : Invariant (setThr i t s) := by
  have key : ∀ {α : Type} (p : Throttle → α), p t = p (thrAt s i) → ∀ j, p (thrAt (setThr i t s) j) = p
      (thrAt s j) := by
    intro α p hp j
    rw [thrAt_set]
    split
    · rename_i e; rw [e.1]; exact hp
    · rfl
  refine Invariant.of_thr h rfl rfl rfl (by simp) (key _ hv) (key _ hg) (key _ ha) ?_ rfl h.list.cursor rfl rfl rfl rfl
  intro j hj
  rw [thrAt_set]
  split
  · rename_i e; exact hok (by rw [← e.1]; exact hj)
  · exact throttleOk_at h hj

theorem ThrottleOk.update {c : Config} {t u : Throttle} (h : ThrottleOk c t) (h1 : u.address = t.address)
    (h2 : u.speed = t.speed) (h3 : u.functions = t.functions) (h4 : u.pkt_speed = t.pkt_speed)
    (h5 : u.pkt_func = t.pkt_func)
   (h6 : u.seq < seqMax c.func_cap) (h7 : u.read_cv_cnt ≤ t.read_cv_cnt) (h8 : u.write_cv_cnt ≤ t.write_cv_cnt)
      (h9 : u.write_bit_cnt ≤ t.write_bit_cnt) (h10 : u.pkt_ops = t.pkt_ops) : ThrottleOk c u := by
  refine ⟨by rw [h1]; exact h.address, by rw [h2]; exact h.speed, by rw [h3]; exact h.functions,
      by rw [h4, h1, h2]; exact h.cachedSpeed, by rw [h5, h1, h3]; exact h.cachedFunc, h6, ?_, ?_, ?_⟩
  · have := h.onePending; omega
  · have := h.repeats; omega
  · intro hp
    rw [h10]; apply h.opsPacket
    simp [opsPending] at hp ⊢; omega

theorem deliverTo_inv {s : State} (h : Invariant s) (i m) : Invariant (deliverTo i m s) := by
  cases m with
  | pom v =>
    refine Invariant.of_setThr h i _ (onPom_kept v _).1 (onPom_kept v _).2 ?_ ?_
    · unfold onPom; split <;> rfl
    · intro hv
      have := throttleOk_at h hv
      unfold onPom; split
      · exact ThrottleOk.update this rfl rfl rfl rfl rfl this.seq (by simp) (by simp) (by simp) rfl
      · exact this
  | dyn v x =>
    simp only [deliverTo]
    split
    · have := Invariant.of_setThr h i (onSpeed v s.now (thrAt s i)) rfl rfl rfl (fun hv => ThrottleOk.update
          (throttleOk_at h hv) rfl rfl rfl rfl rfl (throttleOk_at h hv).seq (Nat.le_refl _) (Nat.le_refl _)
          (Nat.le_refl _) rfl)
      exact Invariant.congr_fields this (by simp) (by simp) (by simp) (by simp) (by simp) (by simp) (by simp)
          (by simp) (by simp) (by simp)
    · exact h
  | _ => exact h

theorem deliverLast_inv {s : State} (h : Invariant s) (ms) : Invariant (deliverLast ms s) := by
  have : ∀ i ms (s : State), Invariant s → Invariant (thrDeliver i ms s) := by
    intro i ms
    induction ms with
    | nil => exact fun s h => h
    | cons m t ih => intro s h; simp only [thrDeliver, List.foldl_cons] at ih ⊢; exact ih _ (deliverTo_inv h i m)
  unfold deliverLast
  split
  · split
    · exact this _ _ _ h
    · exact h
  · exact h

theorem runMsg_inv {s : State} (h : Invariant s) (m) : Invariant (runMsg m s) := by
  apply deliverLast_inv
  obtain ⟨r, e, h1, h2⟩ : ∃ r, recordMsg m s = { s with rc := r } ∧ r.rc_raw = s.rc.rc_raw ∧
      r.rc_cnt = s.rc.rc_cnt := by
    cases m <;> simp only [recordMsg] <;> (try split) <;> exact ⟨_, rfl, rfl, rfl⟩
  rw [e]
  exact Invariant.congr_fields h rfl rfl rfl rfl rfl rfl rfl rfl h1 h2

theorem respond_inv {s : State} (h : Invariant s) (r) : Invariant (respond r s) :=
    Invariant.congr_fields h rfl rfl rfl rfl rfl rfl rfl rfl rfl rfl

theorem logWhen_inv {s : State} (h : Invariant s) (b l) : Invariant (logWhen b l s) := Invariant.congr_fields h
    (by simp) (by simp) (by simp) (by simp) (by simp) (by simp) (by simp) (by simp) (by simp) (by simp)

theorem configWf_pos {c : Config} (h : c.wf = true) : 0 < c.long_avg_n ∧ 0 < c.adc_fifo_depth ∧
    0 < c.max_throttles ∧ 0 < c.ops_cv_repeat := by
  simp [Config.wf] at h; tauto

theorem adcDrain_inv {s : State} (h : Invariant s) : Invariant (adcDrain s) := by
  obtain ⟨c, b, d, he, h1, h2, h3, h4, h5, h6⟩ := adcDrain_frame s
  rw [he]
  have e := h.engine
  have sv := h.service
  have z := h.sizes
  refine ⟨h.cfg, h.run, by simpa [h1] using h.adc, fun _ => h2, ⟨e.slotA, e.slotB, e.refA, e.refB, e.refLast, e.preambleOps,
      e.preambleSvc, e.railcom, e.pos, e.fromCutout⟩, ⟨sv.op, sv.busy, sv.count, sv.step, sv.armed, ?_, sv.idle⟩,
      ⟨h.list.sorted, h.list.holds, h.list.cursor⟩, h.throttles, ⟨z.thr, by simpa [h5] using z.ring, h6
      (configWf_pos h.cfg).1 z.head, by simp [h2], z.raw, z.count⟩⟩
  intro hb
  cases ha : s.svc.ack_armed
  · have := h4 ha; simp at hb; rw [hb] at this; have := sv.seen this.symm; rw [ha] at this; simp at this
  · rfl

theorem terminal_inv {s : State} (h : Invariant s) (st : SvcStatus) (res w : Byte) (hst : st ≠ .Busy) : Invariant
    (modeOffEffects { s with svc := { s.svc with svc_val := w, svc_status := st, svc_result := res } }) := by
  have e := h.engine
  have z := h.sizes
  show Invariant (terminal st res { s with svc := { s.svc with svc_val := w } })
  rw [terminal_eq]
  cases hr : s.bs.bs_run
  · simp only [hr, Bool.false_eq_true, if_false]
    exact ⟨h.cfg, by simp [hr], by simp [hr], fun _ => rfl, ⟨e.slotA, e.slotB, e.refA, e.refB, e.refLast, by simp, by simp,
        e.railcom, by simp [hr], e.fromCutout⟩, ⟨by simp, by simp [hst], by simp, rfl, by simp, by simp, fun _ => ⟨rfl, rfl⟩⟩,
        ⟨h.list.sorted, h.list.holds, h.list.cursor⟩, h.throttles, ⟨z.thr, z.ring, z.head, by simp, z.raw, z.count⟩⟩
  · simp only [hr, if_true]
    exact ⟨h.cfg, by simp, by simp, fun _ => rfl, ⟨e.slotA, e.slotB, e.refA, e.refB, e.refLast, by simp, by simp, e.railcom,
        by simp, e.fromCutout⟩, ⟨by simp, by simp [hst], by simp, rfl, by simp, by simp, fun _ => ⟨rfl, rfl⟩⟩, ⟨h.list.sorted,
        h.list.holds, h.list.cursor⟩, h.throttles, ⟨z.thr, z.ring, z.head, by simp, z.raw, z.count⟩⟩

theorem running_of_invariant {s : State} (h : Invariant s) (hm : s.mode = .Service) : Running s.svc := by
  have sv := h.service
  refine ⟨sv.op.1 hm, sv.busy.1 hm, sv.count hm, sv.step, ?_, sv.seen⟩
  have := sv.armed; simpa [hm] using this

theorem Invariant.of_svc {s : State} (h : Invariant s) (hm : s.mode = .Service) (v : Service)
    (hv : Running v) : Invariant { s with svc := v } := by
  have e := h.engine
  have z := h.sizes
  exact ⟨h.cfg, h.run, h.adc, h.adcFifo, ⟨e.slotA, e.slotB, e.refA, e.refB, e.refLast, e.preambleOps, e.preambleSvc, e.railcom,
      e.pos, e.fromCutout⟩,
    ⟨by simp [hm, hv.op], by simp [hm, hv.busy], fun _ => hv.count, hv.step, by simp [hm, hv.armed], hv.seen, by simp [hm]⟩,
        ⟨h.list.sorted, h.list.holds, h.list.cursor⟩, h.throttles, ⟨z.thr, z.ring, z.head, z.fifo, z.raw, z.count⟩⟩

theorem pullPacket_inv {s : State} (h : Invariant s) : Invariant (pullPacket s).2 ∧ (pullPacket s).1.pkt.Ok ∧
    RefOk s (pullPacket s).1.ref := by
  unfold pullPacket
  cases hm : s.mode with
  | Off => exact ⟨h, idle_ok, by intro x hx; cases hx⟩
  | Ops =>
    simp only
    rcases pullOps_cases s with he | ⟨hne, i, hi, he⟩
    · rw [he]; exact ⟨h, idle_ok, by intro x hx; cases hx⟩
    · rw [he]
      have hlen : s.rr_cursor < s.thr_list.length := by
        have := h.list.cursor; have : 0 < s.thr_list.length := List.length_pos_of_ne_nil hne; omega
      have hmem : i ∈ s.thr_list := by
        rw [hi, List.getD, List.getElem?_eq_getElem hlen]; exact List.getElem_mem hlen
      obtain ⟨hil, hiv⟩ := (h.list.holds i).1 hmem
      have ok := throttleOk_at h hiv
      obtain ⟨q, r, w, b, d, o, v, hn, n1, n2, n3, n4, _⟩ := nextPacket_frame s.cfg (thrAt s i)
      refine ⟨?_, nextPacket_ok ok, ?_⟩
      · have h2 := Invariant.of_setThr h i (nextPacket s.cfg (thrAt s i)).2 (by rw [hn]) (by rw [hn]) (by rw [hn])
            (fun _ => ThrottleOk.update ok (by rw [hn]) (by rw [hn]) (by rw [hn]) (by rw [hn]) (by rw [hn]) (by
            rw [hn]; simp only
            have := ok.seq
            rcases n4 with rfl | rfl
            · exact this
            · exact Nat.mod_lt _ (by omega)) (by rw [hn]; exact n1) (by rw [hn]; exact n2) (by rw [hn]; exact n3)
                  (by rw [hn]))
        refine Invariant.of_thr h2 rfl rfl rfl rfl (fun _ => rfl) (fun _ => rfl) (fun _ => rfl)
            (fun j hj => throttleOk_at h2 hj) rfl ?_ rfl rfl rfl rfl
        simp only [setThr_thr_list]
        have : (s.rr_cursor + 1) % s.thr_list.length < s.thr_list.length := Nat.mod_lt _ (by omega)
        omega
      · intro x hx; cases hx; exact ⟨hil, Nat.le_refl _⟩
  | Service =>
    simp only
    rcases pullSvc_cases s with ⟨-, -, st, val, w, he, ho⟩ | ⟨p, v, he, hok, hr⟩
    · rw [he]
      refine ⟨?_, reset_ok, by intro x hx; cases hx⟩
      simp only [terminal]
      exact terminal_inv h st val w (by rcases ho with rfl | rfl <;> simp)
    · rw [he]
      exact ⟨Invariant.of_svc h hm v (hr (running_of_invariant h hm)), hok, by intro x hx; cases hx⟩

/-- changing a slot -/
theorem setSlot_inv {s : State} (h : Invariant s) (i : SlotSel) (hi : i ≠ s.bs.cur) (p : TrackPacket)
    (hp : p.pkt.Ok) (hr : RefOk s p.ref) (tr) : Invariant { s with bs := s.bs.setSlot i p, trace := tr } := by
  have e := h.engine
  have z := h.sizes
  have hpos : s.bs.bs_run = true → PosOk (s.bs.setSlot i p) s.cfg.start_extra_ones s.bs.pos := by
    intro hx
    have := e.pos hx
    have hc : (s.bs.setSlot i p).curPkt = s.bs.curPkt := by
      have : (s.bs.setSlot i p).cur = s.bs.cur := by cases i <;> rfl
      simp only [Bitstream.curPkt, this, setSlot_slot, if_neg hi.symm]
    have hpb : (s.bs.setSlot i p).preamble_bits = s.bs.preamble_bits ∧
        (s.bs.setSlot i p).railcom_enabled = s.bs.railcom_enabled := by cases i <;> exact ⟨rfl, rfl⟩
    revert this
    cases s.bs.pos <;> simp only [PosOk, hc, hpb] <;> exact id
  cases i
  · exact ⟨h.cfg, h.run, h.adc, h.adcFifo, ⟨hp, e.slotB, hr, e.refB, e.refLast, e.preambleOps, e.preambleSvc, e.railcom, hpos,
        e.fromCutout⟩,
    ⟨h.service.op, h.service.busy, h.service.count, h.service.step, h.service.armed, h.service.seen, h.service.idle⟩,
        ⟨h.list.sorted, h.list.holds, h.list.cursor⟩, h.throttles, ⟨z.thr, z.ring, z.head, z.fifo, z.raw, z.count⟩⟩
  · exact ⟨h.cfg, h.run, h.adc, h.adcFifo, ⟨e.slotA, hp, e.refA, hr, e.refLast, e.preambleOps, e.preambleSvc, e.railcom, hpos,
        e.fromCutout⟩,
    ⟨h.service.op, h.service.busy, h.service.count, h.service.step, h.service.armed, h.service.seen, h.service.idle⟩,
        ⟨h.list.sorted, h.list.holds, h.list.cursor⟩, h.throttles, ⟨z.thr, z.ring, z.head, z.fifo, z.raw, z.count⟩⟩

theorem pullPacket_cur (s : State) : (pullPacket s).2.bs.cur = s.bs.cur ∧
    (pullPacket s).2.bs.slot s.bs.cur = s.bs.slot s.bs.cur ∧
    (pullPacket s).2.bs.preamble_bits = s.bs.preamble_bits ∧
    (pullPacket s).2.bs.railcom_enabled = s.bs.railcom_enabled ∧ (pullPacket s).2.bs.pos = s.bs.pos := by
  rcases pullPacket_engine s with ⟨h, _⟩ | ⟨_, h, _⟩ <;> rw [h]
  · exact ⟨rfl, rfl, rfl, rfl, rfl⟩
  · rw [stop_bs]; split <;> refine ⟨rfl, ?_, rfl, rfl, rfl⟩ <;> cases s.bs.cur <;> rfl

theorem pullNext_inv {s : State} (h : Invariant s) : Invariant (pullNext s) := by
  obtain ⟨h1, h2, h3⟩ := pullPacket_inv h
  rw [(pullNext_frame s).1]
  refine setSlot_inv h1 _ ?_ _ h2 ?_ _
  · rw [(pullPacket_cur s).1]; cases s.bs.cur <;> simp [SlotSel.other]
  · intro x hx
    have := h3 x hx
    have hg : (thrAt (pullPacket s).2 x.slot).gen = (thrAt s x.slot).gen := by
      rcases pullPacket_throttle s x.slot with e | e <;> rw [e]
      obtain ⟨q, r, w, b, d, o, v, hn, _⟩ := nextPacket_frame s.cfg (thrAt s x.slot)
      rw [hn]
    rw [pullPacket_thr_length, hg]; exact this

def InvariantUpToPos (t : State) : Prop :=
    Invariant { t with bs := { t.bs with pos := .preamble 0, from_cutout := false } }

theorem Invariant.upToPos {t : State} (h : Invariant t) : InvariantUpToPos t := by
  have e := h.engine
  have z := h.sizes
  exact ⟨h.cfg, h.run, h.adc, h.adcFifo, ⟨e.slotA, e.slotB, e.refA, e.refB, e.refLast, e.preambleOps, e.preambleSvc, e.railcom,
      fun _ => Nat.zero_le _, by simp⟩,
    ⟨h.service.op, h.service.busy, h.service.count, h.service.step, h.service.armed, h.service.seen, h.service.idle⟩,
        ⟨h.list.sorted, h.list.holds, h.list.cursor⟩, h.throttles, ⟨z.thr, z.ring, z.head, z.fifo, z.raw, z.count⟩⟩

theorem advanceFrom_inv {s t : State} (h : Invariant s) (ht : InvariantUpToPos t)
    (htf : t.bs.bs_run = false → Invariant t) (hr : s.bs.bs_run = true)
   (hx : t.bs.bs_run = true → t.bs.preamble_bits = s.bs.preamble_bits ∧
      t.bs.railcom_enabled = s.bs.railcom_enabled ∧ t.cfg = s.cfg ∧
     (t.bs.curPkt = s.bs.curPkt ∨ ∃ i, s.bs.pos = .trail i ∧ s.bs.curPkt.len ≤ i + 1)) : Invariant
        (advanceFrom s.bs t) := by
  rw [(advanceFrom_frame s.bs t).1]
  cases hb : t.bs.bs_run with
  | false =>
    rw [(advanceFrom_frame s.bs t).2.1 hb]; exact htf hb
  | true =>
    rw [(advanceFrom_frame s.bs t).2.2 hb]
    obtain ⟨p1, p2, p3, p4⟩ := hx hb
    have e := ht.engine
    have z := ht.sizes
    have es := h.engine
    refine ⟨ht.cfg, ht.run, ht.adc, ht.adcFifo, ⟨e.slotA, e.slotB, e.refA, e.refB, e.refLast, e.preambleOps, e.preambleSvc,
        e.railcom, ?_, ?_⟩,
    ⟨ht.service.op, ht.service.busy, ht.service.count, ht.service.step, ht.service.armed, ht.service.seen, ht.service.idle⟩,
        ⟨ht.list.sorted, ht.list.holds, ht.list.cursor⟩, ht.throttles, ⟨z.thr, z.ring, z.head, z.fifo, z.raw, z.count⟩⟩
    · intro _
      have hp := es.pos hr
      have hc : ∀ (b : Bitstream) p f, (advance p f b).curPkt = b.curPkt := by
        intro b p f; simp only [Bitstream.curPkt, advance, emitSlot, Bitstream.slot]
      show PosOk (advance (succPos s.bs s.bs.pos) (s.bs.pos == .cutout 1) t.bs) t.cfg.start_extra_ones
          (succPos s.bs s.bs.pos)
      have key : ∀ q' f' p, PosOk s.bs s.cfg.start_extra_ones p → (t.bs.curPkt = s.bs.curPkt ∨ ∃ i, p = .trail i ∧
          s.bs.curPkt.len ≤ i + 1) → PosOk (advance q' f' t.bs) t.cfg.start_extra_ones (succPos s.bs p) := by
        intro q' f' p hp h4
        have hpb : ∀ q f, (advance q f t.bs).preamble_bits = s.bs.preamble_bits ∧
            (advance q f t.bs).railcom_enabled = s.bs.railcom_enabled := fun q f => ⟨p1, p2⟩
        have hlen : 3 ≤ s.bs.curPkt.len := by
          simp only [Bitstream.curPkt, Bitstream.slot]; cases s.bs.cur
          · exact es.slotA.lower
          · exact es.slotB.lower
        cases p with
        | preamble r =>
          simp only [succPos]
          split
          · simp only [PosOk, hc]
            rcases h4 with h4 | ⟨i, h, _⟩
            · rw [h4]; omega
            · cases h
          · simp only [PosOk, hpb, p3] at hp ⊢; omega
        | data i k =>
          simp only [succPos]
          rcases h4 with h4 | ⟨i, h, _⟩
          · split
            · simp only [PosOk, hc, h4] at hp ⊢; omega
            · simp only [PosOk, hc, h4] at hp ⊢; omega
          · cases h
        | trail i =>
          simp only [succPos]
          split
          · rename_i hlt
            rcases h4 with h4 | ⟨j, h, hj⟩
            · simp only [PosOk, hc, h4]; omega
            · cases h; omega
          split
          · rename_i hre; simp only [PosOk, hpb, CUTOUT_BITS]; exact ⟨by omega, by omega, hre⟩
          · simp only [PosOk, hpb]; omega
        | cutout c =>
          simp only [succPos]
          split
          · simp only [PosOk, hpb]; omega
          · simp only [PosOk, hpb] at hp ⊢; exact ⟨by omega, by omega, hp.2.2⟩
      exact key _ _ _ hp p4
    · intro hf
      have : s.bs.pos = .cutout 1 := by simpa [advance, emitSlot] using hf
      show succPos s.bs s.bs.pos = .preamble t.bs.preamble_bits
      rw [this, p1]; simp [succPos]

theorem handOver_upToPos {s : State} (h : Invariant s) : InvariantUpToPos (handOver s) := by
  have e := h.engine
  have z := h.sizes
  have hl : RefOk s (s.bs.slot s.bs.cur).ref := by
    cases s.bs.cur
    · exact e.refA
    · exact e.refB
  exact ⟨h.cfg, h.run, h.adc, h.adcFifo, ⟨e.slotA, e.slotB, e.refA, e.refB, hl, e.preambleOps, e.preambleSvc, e.railcom,
      fun _ => Nat.zero_le _, by simp⟩,
    ⟨h.service.op, h.service.busy, h.service.count, h.service.step, h.service.armed, h.service.seen, h.service.idle⟩,
        ⟨h.list.sorted, h.list.holds, h.list.cursor⟩, h.throttles, ⟨z.thr, z.ring, z.head, z.fifo, z.raw, z.count⟩⟩

theorem railcomDeliver_inv {s : State} (h : Invariant s) : Invariant (railcomDeliver s) := by
  simp only [railcomDeliver]
  apply logWhen_inv
  apply deliverLast_inv
  have z := h.sizes
  have e := h.engine
  exact ⟨h.cfg, h.run, h.adc, h.adcFifo, ⟨e.slotA, e.slotB, e.refA, e.refB, e.refLast, e.preambleOps, e.preambleSvc, e.railcom,
      e.pos, e.fromCutout⟩,
    ⟨h.service.op, h.service.busy, h.service.count, h.service.step, h.service.armed, h.service.seen, h.service.idle⟩,
        ⟨h.list.sorted, h.list.holds, h.list.cursor⟩, h.throttles, ⟨z.thr, z.ring, z.head, z.fifo,
        by simp [frameStart, frameBytes, RC_MAX_BYTES], by simp [frameStart, frameBytes, RC_MAX_BYTES]⟩⟩

theorem drawLatency_inv {s : State} (h : Invariant s) : Invariant (drawLatency s) := by
  have e := h.engine
  have z := h.sizes
  refine ⟨h.cfg, h.run, h.adc, h.adcFifo, ⟨e.slotA, e.slotB, e.refA, e.refB, e.refLast, e.preambleOps, e.preambleSvc,
      e.railcom, ?_, e.fromCutout⟩,
    ⟨h.service.op, h.service.busy, h.service.count, h.service.step, h.service.armed, h.service.seen, h.service.idle⟩,
        ⟨h.list.sorted, h.list.holds, h.list.cursor⟩, h.throttles, ⟨z.thr, z.ring, z.head, z.fifo, z.raw, z.count⟩⟩
  intro hr
  have := e.pos hr
  show PosOk _ _ s.bs.pos
  revert this
  have hc : (drawLatency s).bs.curPkt = s.bs.curPkt := by
    simp only [Bitstream.curPkt, drawLatency, Bitstream.slot]
  cases s.bs.pos <;> simp only [PosOk, hc] <;> exact id

theorem withThrottle_inv {s : State} (h : Invariant s) (a ok) (f : Nat → Throttle → State → State) (hf : ∀ i,
    findSlot s (a.setWidth 14) = some i → addrOk a = true → ok = true → i < s.thr.length →
    (thrAt s i).valid = true → Invariant (f i (thrAt s i) s)) : Invariant (withThrottle a ok f s) := by
  unfold withThrottle
  split
  · rename_i hc
    simp at hc
    split
    · exact respond_inv h _
    · rename_i i hi
      have := findSlot_some hi
      exact hf i hi hc.1 hc.2 this.1 this.2.1
  · exact respond_inv h _

theorem seqReset_inv {s : State}
    (h : Invariant s) : Invariant { s with
      thr := s.thr.map (fun t => if t.valid then { t with seq := 0 } else t), rr_cursor := 0 } := by
  have hj : ∀ j,
      thrAt { s with thr := s.thr.map (fun t => if t.valid then { t with seq := 0 } else t), rr_cursor := 0 } j = if
      (thrAt s j).valid then { thrAt s j with seq := 0 } else thrAt s j := by
    intro j
    by_cases hl : j < s.thr.length
    · rw [thrAt_lt hl, thrAt_lt (by simpa using hl)]; simp
    · rw [thrAt_ge (s := s) (by omega), thrAt_ge (by simpa using hl)]; rfl
  refine Invariant.of_thr h rfl rfl rfl (by simp) ?_ ?_ ?_ ?_ rfl
      (show 0 < max s.thr_list.length 1 by omega) rfl rfl rfl rfl
  · intro j; rw [hj]; split <;> rfl
  · intro j; rw [hj]; split <;> rfl
  · intro j; rw [hj]; split <;> rfl
  · intro j hv
    rw [hj, if_pos hv]
    have ok := throttleOk_at h hv
    exact ThrottleOk.update ok rfl rfl rfl rfl rfl (by have := ok.seq; simp; omega) (Nat.le_refl _) (Nat.le_refl _)
        (Nat.le_refl _) rfl

theorem restartEffects_inv {s : State} (h : Invariant s) : Invariant (restartEffects s) := by
  have : sortSlots s s.thr_list = s.thr_list := sortSlots_of_sorted h.list.le
  simp only [restartEffects, this]
  exact seqReset_inv h

/-- starting the engine -/
theorem start_inv {s : State} (h : Invariant s) (p0 : Nat) (tmpl : DccPacket) (hok : tmpl.Ok) (m : Mode)
    (v : Service) (hm : m ≠ .Off)
   (hp : m = .Ops → p0 = OPS_PREAMBLE_BITS) (hs : m = .Service → p0 = SVC_PREAMBLE_BITS) (hp1 : 1 ≤ p0)
   (sv : ServiceOk { s with svc := v, mode := m }) : Invariant { start p0 tmpl (adcStart { s with svc := v }) with mode := m } := by
  have z := h.sizes
  refine ⟨h.cfg, ?_, ?_, fun e => absurd e hm,
      ⟨hok, hok, (fun x hx => by cases hx), (fun x hx => by cases hx), (fun x hx => by cases hx),
      hp, hs, rfl, ?_, ?_⟩, ⟨sv.op, sv.busy, sv.count, sv.step, sv.armed, sv.seen, sv.idle⟩, ⟨h.list.sorted, h.list.holds,
      h.list.cursor⟩, h.throttles, ⟨z.thr, by simp [start, uartReset, adcStart], ?_,
      by simp [start, uartReset, adcStart], z.raw, z.count⟩⟩
  · simp [hm, start, uartReset]
  · simp [start, uartReset, adcStart]
  · intro _
    simp only [start, emitSlot, succPos]
    rw [if_neg (by omega)]
    simp only [PosOk, uartReset, adcStart]; omega
  · intro hf; simp [start, emitSlot] at hf
  · exact (configWf_pos h.cfg).1

theorem modeOffEffects_inv {s : State} (h : Invariant s) (hm : s.mode ≠ .Service) : Invariant (modeOffEffects s) := by
  have hb : s.svc.svc_status ≠ .Busy := fun e => hm (h.service.busy.2 e)
  have := terminal_inv h s.svc.svc_status s.svc.svc_result s.svc.svc_val hb
  exact this

theorem svcBegin_inv {s : State} (h : Invariant s) (hm : s.mode ≠ .Service) (op cv bit bv val step)
    (hop : op ≠ .None) (hst : StepOk op step) : Invariant (svcBegin op cv bit bv val step s) := by
  have key : ∀ s : State, Invariant s → Invariant { start SVC_PREAMBLE_BITS RESET (adcStart { s with svc := { s.svc with
    svc_op := op, svc_cv := cvField cv, svc_bit_num := bit, svc_bit_val := bv, svc_val := val, svc_step := step,
    svc_phase := .Reset1, svc_cnt := SVC_RESET1_CNT, ack_armed := false, ack_seen := false, svc_status := .Busy,
    svc_result := 0#8 } }) with mode := .Service } := by
    intro s h
    refine start_inv h _ _ reset_ok _ _ (by simp) (by simp) (by simp) (by decide) ?_
    exact ⟨by simp [hop], by simp, fun _ => ⟨(by decide : 1 ≤ 20), (by decide : 20 ≤ 20)⟩, hst, by simp, by simp, by simp⟩
  simp only [svcBegin]
  split
  · exact key _ (modeOffEffects_inv h hm)
  · exact key _ h

theorem svcCommand_inv {s : State} (h : Invariant s) (ok f) (hf : s.mode ≠ .Service → Invariant (f s)) : Invariant
    (svcCommand ok f s) := by
  unfold svcCommand
  split
  · split
    · exact respond_inv h _
    · rename_i e; exact respond_inv (hf (by simp [e])) _
    · rename_i e; exact respond_inv (hf (by simp [e])) _
  · exact respond_inv h _

/-- General: list and table both change. -/
theorem Invariant.of_list {s t : State} (h : Invariant s) (h1 : t.cfg = s.cfg) (h2 : t.mode = s.mode) (h3 : t.bs = s.bs)
   (hl : t.thr.length = s.thr.length) (hg : ∀ j, (thrAt s j).gen ≤ (thrAt t j).gen)
   (hok : ∀ j, (thrAt t j).valid = true → ThrottleOk s.cfg (thrAt t j))
   (h5 : ListOk t) (h7 : t.svc = s.svc) (h8 : t.cs = s.cs) (h9 : t.rc = s.rc) : Invariant t := by
  have hr : ∀ r, RefOk s r → RefOk t r := by
    intro r hr x hx; have := hr x hx; rw [hl]; exact ⟨this.1, Nat.le_trans this.2 (hg _)⟩
  have e := h.engine
  have sv := h.service
  have z := h.sizes
  refine ⟨by rw [h1]; exact h.cfg, by rw [h2, h3]; exact h.run, by rw [h8, h3]; exact h.adc,
    by rw [h2, h8]; exact h.adcFifo, ?_, ?_, h5, ?_, ?_⟩
  · exact ⟨by rw [h3]; exact e.slotA, by rw [h3]; exact e.slotB, by rw [h3]; exact hr _ e.refA,
        by rw [h3]; exact hr _ e.refB, by rw [h3]; exact hr _ e.refLast, by rw [h2, h3]; exact e.preambleOps,
        by rw [h2, h3]; exact e.preambleSvc, by rw [h3, h1]; exact e.railcom, by rw [h3, h1]; exact e.pos,
        by rw [h3]; exact e.fromCutout⟩
  · exact ⟨by rw [h2, h7]; exact sv.op, by rw [h2, h7]; exact sv.busy, by rw [h2, h7]; exact sv.count,
        by rw [h7]; exact sv.step, by rw [h2, h7]; exact sv.armed, by rw [h7]; exact sv.seen, by rw [h2, h7]; exact sv.idle⟩
  · intro x hx hvx
    obtain ⟨j, hj, rfl⟩ := mem_thr.1 hx
    rw [h1]; exact hok j hvx
  · exact ⟨by rw [hl, h1]; exact z.thr, by rw [h8, h1]; exact z.ring, by rw [h8, h1]; exact z.head,
        by rw [h8, h1]; exact z.fifo, by rw [h9]; exact z.raw, by rw [h9]; exact z.count⟩

theorem delete_inv {s : State} (h : Invariant s) (i)
    (hi : i < s.thr.length) : Invariant { setThr i { thrAt s i with valid := false, gen := (thrAt s i).gen + 1 } s with
      thr_list := s.thr_list.filter (· != i), rr_cursor := 0 } := by
  have hj : ∀ j, thrAt { setThr i { thrAt s i with valid := false, gen := (thrAt s i).gen + 1 } s with
      thr_list := s.thr_list.filter (· != i), rr_cursor := 0 } j =
      if j = i then { thrAt s i with valid := false, gen := (thrAt s i).gen + 1 } else thrAt s j := by
    intro j
    have := thrAt_set s i j { thrAt s i with valid := false, gen := (thrAt s i).gen + 1 }
    simp only [hi, and_true] at this
    exact this
  refine Invariant.of_list h rfl rfl rfl (by simp) ?_ ?_ ⟨?_, ?_, by simp⟩ rfl rfl rfl
  · intro j; rw [hj]; split
    · rename_i e; rw [e]; exact Nat.le_succ _
    · exact Nat.le_refl _
  · intro j hv; rw [hj] at hv ⊢; split at hv
    · simp at hv
    · rename_i e; rw [if_neg e]; exact throttleOk_at h hv
  · have : ∀ j k,
        j ≠ i → k ≠ i → addrOf s j < addrOf s k →
        addrOf { setThr i { thrAt s i with valid := false, gen := (thrAt s i).gen + 1 } s with
      thr_list := s.thr_list.filter (· != i), rr_cursor :=
          0 } j < addrOf { setThr i { thrAt s i with valid := false, gen := (thrAt s i).gen + 1 } s with
      thr_list := s.thr_list.filter (· != i), rr_cursor := 0 } k := by
      intro j k h1 h2 h3; simp only [addrOf, hj, if_neg h1, if_neg h2]; exact h3
    refine List.Pairwise.imp_of_mem ?_ (h.list.sorted.filter _)
    intro a b ha hb hab
    simp at ha hb
    exact this a b ha.2 hb.2 hab
  · intro j
    rw [hj]
    simp only [List.mem_filter, h.list.holds j, bne_iff_ne, setThr_thr, List.length_set]
    split <;> simp_all

theorem setSpeed_ok {c : Config} {t : Throttle} (h : ThrottleOk c t) (sp : Byte) (hs : sp ≠ 0x80#8) : ThrottleOk c
    (setSpeed (speedArg sp) t) := by
  have : ∀ sp : Byte, sp ≠ 0x80#8 → -127 ≤ sp.toInt ∧ sp.toInt ≤ 127 := by decide
  exact ⟨h.address, this sp hs, h.functions, rfl, h.cachedFunc, by have := h.seq; simp [setSpeed]; omega,
      h.onePending, h.repeats, h.opsPacket⟩

theorem setFunction_ok {c : Config} {t : Throttle} (h : ThrottleOk c t) (n : Nat) (on : Bool)
    (hn : n ≤ fmax c.func_cap) : ThrottleOk c (setFunction c n on t) := by
  have hg := grp_lt hn
  have h68 : fmax c.func_cap ≤ 68 := by cases c.func_cap <;> decide
  refine ⟨h.address, h.speed, ?_, h.cachedSpeed, ?_, by simp [setFunction, seqMax]; omega, h.onePending, h.repeats,
      h.opsPacket⟩
  · intro k hk
    by_cases h69 : k < 69
    · simp only [setFunction]; rw [setBit_getLsbD _ _ _ _ h69, if_neg (by omega)]; exact h.functions k hk
    · exact BitVec.getLsbD_of_ge _ _ (by omega)
  · simp only [setFunction, h.cachedFunc]
    exact funcPackets_set c _ _ on hn

theorem setAddr_ok {c : Config} {t : Throttle} (h : ThrottleOk c t) (a : BitVec 14) (ha : 1 ≤ a.toNat ∧
    a.toNat ≤ 10239) : ThrottleOk c (setAddr c a t) := by
  have hg := groupCount_le c.func_cap
  exact ⟨ha, h.speed, h.functions, rfl, rfl, by simp [setAddr, seqMax]; omega, h.onePending, h.repeats, h.opsPacket⟩

theorem opsRequest_ok {c : Config} {t : Throttle} (h : ThrottleOk c t) (hp : opsPending t = false) (k p wr)
    (hok : p.Ok) : ThrottleOk c (opsRequest c k p wr t) := by
  simp [opsPending] at hp
  cases k <;>
  refine ⟨h.address, h.speed, h.functions, h.cachedSpeed, h.cachedFunc, h.seq, ?_, ?_, fun _ => hok⟩ <;>
      simp [opsRequest] <;> omega

theorem addrOk_toNat {a : BitVec 16} (h : addrOk a = true) : (a.setWidth 14).toNat = a.toNat := by
  have := addrOk_iff.1 h; simp; omega

theorem setAddress_inv {s : State} (h : Invariant s) (i) (hi : i < s.thr.length) (hv : (thrAt s i).valid = true)
    (b : BitVec 14) (hb : 1 ≤ b.toNat ∧ b.toNat ≤ 10239)
   (hfree : addrTaken s i b = false) : Invariant { setThr i (setAddr s.cfg b (thrAt s i)) s with
      thr_list := sortSlots (setThr i (setAddr s.cfg b (thrAt s i)) s) s.thr_list, rr_cursor := 0 } := by
  have hfree' : ∀ j, j < s.thr.length → j ≠ i → (thrAt s j).valid = true → (thrAt s j).address ≠ b := by
    intro j hj hne hvj e
    simp only [addrTaken, List.any_eq_false] at hfree
    have hm : (thrAt s j, j) ∈ s.thr.zipIdx := by
      rw [List.mem_zipIdx_iff_getElem?, thrAt_lt hj]; exact List.getElem?_eq_getElem hj
    have := hfree _ hm
    simp [hvj, e, hne] at this
  have hj : ∀ j, thrAt (setThr i (setAddr s.cfg b (thrAt s i)) s) j = if j = i then setAddr s.cfg b
      (thrAt s i) else thrAt s j := by
    intro j; rw [thrAt_set]; simp [hi]
  have hp := sortSlots_perm (setThr i (setAddr s.cfg b (thrAt s i)) s) s.thr_list
  refine Invariant.of_list h rfl rfl rfl (by simp) ?_ ?_ ⟨?_, ?_, by simp⟩ rfl rfl rfl
  · intro j; show _ ≤ (thrAt (setThr i (setAddr s.cfg b (thrAt s i)) s) j).gen
    rw [hj]; split
    · rename_i e; rw [e]; exact Nat.le_refl _
    · exact Nat.le_refl _
  · intro j hvj
    change (thrAt (setThr i (setAddr s.cfg b (thrAt s i)) s) j).valid = true at hvj
    show ThrottleOk s.cfg (thrAt (setThr i (setAddr s.cfg b (thrAt s i)) s) j)
    rw [hj] at hvj ⊢; split at hvj
    · rename_i e; rw [if_pos e]; exact setAddr_ok (throttleOk_at h hv) b hb
    · rename_i e; rw [if_neg e]; exact throttleOk_at h hvj
  · show (sortSlots (setThr i (setAddr s.cfg b (thrAt s i)) s) s.thr_list).Pairwise (fun j k => addrOf (setThr i
        (setAddr s.cfg b (thrAt s i)) s) j < addrOf (setThr i (setAddr s.cfg b (thrAt s i)) s) k)
    apply pairwise_lt_of_le (sortSlots_sorted _ _) (hp.nodup_iff.2 h.list.nodup)
    intro j hjm k hkm e
    have hj1 := (h.list.holds j).1 (hp.mem_iff.1 hjm)
    have hk1 := (h.list.holds k).1 (hp.mem_iff.1 hkm)
    have e := BitVec.eq_of_toNat_eq e
    rw [hj, hj] at e
    split at e <;> split at e
    · rename_i a1 a2; rw [a1, a2]
    · rename_i a1 a2; exact absurd e.symm (hfree' k hk1.1 a2 hk1.2)
    · rename_i a1 a2; exact absurd e (hfree' j hj1.1 a1 hj1.2)
    · exact h.list.address_inj hj1.1 hk1.1 hj1.2 hk1.2 (by simp only [addrOf, e])
  · intro j
    show j ∈ sortSlots _ _ ↔ j < (s.thr.set i _).length ∧ (thrAt (setThr i (setAddr s.cfg b
        (thrAt s i)) s) j).valid = true
    rw [hp.mem_iff, h.list.holds j, hj, List.length_set]
    split
    · rename_i e; rw [e]; simp [setAddr]
    · rfl

theorem create_inv {s : State} (h : Invariant s) (i) (a : BitVec 14) (ha : 1 ≤ a.toNat ∧ a.toNat ≤ 10239)
    (hf : findSlot s a = none) (hs : freeSlot s = some i) (d : Nat) :
    Invariant { { setThr i (newThrottle s.cfg a (thrAt s i) s.draws) s with draws := d } with
      thr_list := insertSlot { setThr i (newThrottle s.cfg a (thrAt s i) s.draws) s with draws := d } i s.thr_list } := by
  obtain ⟨hi, hnv, _⟩ := freeSlot_some hs
  have hj : ∀ j, thrAt (setThr i (newThrottle s.cfg a (thrAt s i) s.draws) s) j = if j = i then newThrottle s.cfg a
      (thrAt s i) s.draws else thrAt s j := by
    intro j; rw [thrAt_set]; simp [hi]
  have hp := insertSlot_perm { setThr i (newThrottle s.cfg a (thrAt s i) s.draws) s with draws := d } i s.thr_list
  have hni : i ∉ s.thr_list := by intro hm; have := (h.list.holds i).1 hm; rw [hnv] at this; simp at this
  have hc : s.rr_cursor < max (i :: s.thr_list).length 1 := by
    have := h.list.cursor
    rw [List.length_cons]
    omega
  refine Invariant.of_list h rfl rfl rfl (by simp) ?_ ?_ ⟨?_, ?_, hp.length_eq ▸ hc⟩ rfl rfl rfl
  · intro j; show _ ≤ (thrAt (setThr i (newThrottle s.cfg a (thrAt s i) s.draws) s) j).gen
    rw [hj]; split
    · rename_i e; rw [e]; exact Nat.le_refl _
    · exact Nat.le_refl _
  · intro j hvj
    change (thrAt (setThr i (newThrottle s.cfg a (thrAt s i) s.draws) s) j).valid = true at hvj
    show ThrottleOk s.cfg (thrAt (setThr i (newThrottle s.cfg a (thrAt s i) s.draws) s) j)
    rw [hj] at hvj ⊢; split at hvj
    · rename_i e; rw [if_pos e]
      have hg := groupCount_le s.cfg.func_cap
      exact ⟨ha, ⟨by simp [newThrottle], by simp [newThrottle]⟩, by simp [newThrottle], rfl, rfl,
          by simp [newThrottle, seqMax]; omega, by simp [newThrottle], by simp [newThrottle],
          by simp [newThrottle, opsPending]⟩
    · rename_i e; rw [if_neg e]; exact throttleOk_at h hvj
  · show (insertSlot { setThr i (newThrottle s.cfg a (thrAt s i) s.draws) s with draws := d } i s.thr_list).Pairwise
        (fun j k => addrOf { setThr i (newThrottle s.cfg a (thrAt s i) s.draws) s with draws := d } j <
          addrOf { setThr i (newThrottle s.cfg a (thrAt s i) s.draws) s with draws := d } k)
    apply pairwise_lt_of_le
    · apply insertSlot_sorted
      refine List.Pairwise.imp_of_mem ?_ h.list.le
      intro x y hx hy hxy
      have hxi : x ≠ i := fun e => hni (e ▸ hx)
      have hyi : y ≠ i := fun e => hni (e ▸ hy)
      show (thrAt (setThr i (newThrottle s.cfg a (thrAt s i) s.draws) s) x).address.toNat ≤ (thrAt (setThr i
          (newThrottle s.cfg a (thrAt s i) s.draws) s) y).address.toNat
      rw [hj, hj, if_neg hxi, if_neg hyi]; exact hxy
    · rw [hp.nodup_iff]; exact List.nodup_cons.2 ⟨hni, h.list.nodup⟩
    · have hn := findSlot_none.1 hf
      intro j hjm k hkm e
      have e : (thrAt (setThr i (newThrottle s.cfg a (thrAt s i) s.draws) s) j).address = (thrAt (setThr i
          (newThrottle s.cfg a (thrAt s i) s.draws) s) k).address := BitVec.eq_of_toNat_eq e
      rw [hj, hj] at e
      have mem : ∀ x,
          x ∈ insertSlot { setThr i (newThrottle s.cfg a (thrAt s i) s.draws) s with draws := d } i s.thr_list → x ≠ i →
          x < s.thr.length ∧ (thrAt s x).valid = true := by
        intro x hx hne
        have := hp.mem_iff.1 hx; simp [hne] at this; exact (h.list.holds x).1 this
      split at e <;> split at e
      · rename_i a1 a2; rw [a1, a2]
      · rename_i a1 a2; have := mem k hkm a2; exact absurd e.symm (hn _ (thrAt_mem this.1) this.2)
      · rename_i a1 a2; have := mem j hjm a1; exact absurd e (hn _ (thrAt_mem this.1) this.2)
      · rename_i a1 a2
        have m1 := mem j hjm a1; have m2 := mem k hkm a2
        exact h.list.address_inj m1.1 m2.1 m1.2 m2.2 (by simp only [addrOf, e])
  · intro j
    show j ∈ insertSlot _ _ _ ↔ j < (s.thr.set i _).length ∧ (thrAt (setThr i (newThrottle s.cfg a
        (thrAt s i) s.draws) s) j).valid = true
    rw [hp.mem_iff, List.mem_cons, h.list.holds j, hj, List.length_set]
    split
    · rename_i e; subst e; simp [newThrottle, hi]
    · rename_i e; simp [e]

theorem opsCommand_inv {s : State} (h : Invariant s) (a cv k pkt wr) (hp : ∀ t, (pkt t).Ok) : Invariant
    (opsCommand a cv k pkt wr s) := by
  unfold opsCommand
  refine withThrottle_inv h _ _ _ ?_
  intro i hf ha ho hi hv
  split
  · exact respond_inv h _
  · rename_i hpe
    refine respond_inv (Invariant.of_setThr h i _ ?_ ?_ ?_ ?_) _
    · cases k <;> rfl
    · cases k <;> rfl
    · cases k <;> rfl
    · intro _; exact opsRequest_ok (throttleOk_at h hv) (by simpa using hpe) k _ wr (hp _)

theorem codecAnswer_inv {s : State} (h : Invariant s) (o) : Invariant (codecAnswer o s) :=
    Invariant.congr_fields h rfl rfl rfl rfl rfl rfl rfl rfl rfl rfl

end Sys2Proof.Machine
end

