-- ==== Sys2Proof/Laws/PerInstr.lean ====
section
/-! SUPPORT. One statement per instruction, as syntax (30_encoding.md R127, R123, R131): a well-formed instruction's word
has a size its place admits, and for a command an operation code of the table. -/

namespace Sys2Proof.Laws.EncodeShape

/-- A packet has 3 to 8 bytes, a RailCom message 1 to 6 raw symbols, a command word an opcode that R131 names. -/
def Shape : InstrWord → Prop
  | .packet _ bytes => 3 ≤ bytes.length ∧ bytes.length ≤ PKT_MAX_LEN
  | .frame raw => 1 ≤ raw.length ∧ raw.length ≤ 6
  | .command w => decodeCommand w ≠ .error .opcode

/-- The word of the instruction, under every choice of the parameters that admits it. -/
def Statement (i : Instr) : Prop := ∀ c : Config, i.wf c = true → Shape (encode c i)

/-! ### The words by kind -/

theorem mfBytes_length (c : Config) (f : MfForm) : 1 ≤ (mfBytes c f).length ∧ (mfBytes c f).length ≤ 3 := by
  cases f <;> simp [mfBytes]

theorem short_shape (c : Config) (a : BitVec 7) (f : MfForm) (x : Byte) : Shape (shortPacket c a f x) := by
  have h := mfBytes_length c f
  simp only [Shape, shortPacket, shortBytes, List.length_append, List.length_cons, List.length_nil, PKT_MAX_LEN]
  omega

theorem long_shape (c : Config) (a : BitVec 14) (f : MfForm) (x : Byte) : Shape (longPacket c a f x) := by
  have h := mfBytes_length c f
  simp only [Shape, longPacket, longBytes, List.length_append, List.length_cons, List.length_nil, PKT_MAX_LEN]
  omega

theorem rest_shape (svc : Bool) (b : Byte) {rest : List Byte} (h : restOk rest = true) : Shape (.packet svc (b :: rest)) := by
  simp only [restOk, Bool.and_eq_true, decide_eq_true_eq] at h
  simp only [Shape, List.length_cons, PKT_MAX_LEN]
  omega

theorem msg_shape (m : RcMsg) : Shape (.frame (msgRaw m)) := by cases m <;> simp [msgRaw, Shape]

theorem command_shape (op : Byte) (a b : BitVec 16) (x : Byte)
    (h : op ∈ [0x01#8, 0x02#8, 0x10#8, 0x11#8, 0x12#8, 0x13#8, 0x14#8, 0x20#8, 0x21#8, 0x22#8, 0x23#8, 0x30#8, 0x31#8,
      0x32#8, 0x33#8, 0x34#8, 0x35#8, 0x36#8, 0x40#8]) : Shape (cmdWord op a b x) := by
  have e : cmdOp (op ++ a ++ b ++ x) = op := by
    simp only [cmdOp]
    ext i hi
    simp only [BitVec.getElem_extractLsb', BitVec.getLsbD_append]
    rw [if_neg (by omega), if_neg (by omega), if_neg (by omega)]
    rw [BitVec.getLsbD_eq_getElem (by omega)]
    congr 1
    omega
  simp only [Shape, cmdWord, decodeCommand, e]
  simp only [List.mem_cons, List.not_mem_nil, or_false] at h
  rcases h with rfl | rfl | rfl | rfl | rfl | rfl | rfl | rfl | rfl | rfl | rfl | rfl | rfl | rfl | rfl | rfl | rfl |
    rfl | rfl <;> exact fun e => nomatch e

/-! ### Instruction by instruction -/

theorem reset : Statement .reset := fun _ _ => ⟨by decide, by decide⟩
theorem idle : Statement .idle := fun _ _ => ⟨by decide, by decide⟩
theorem speed128S (a : BitVec 7) (d : Bool) (m : BitVec 7) (x : Byte) :
    Statement (.speed128S a d m x) := fun _ _ => short_shape _ _ _ _
theorem speed128L (a : BitVec 14) (d : Bool) (m : BitVec 7) (x : Byte) :
    Statement (.speed128L a d m x) := fun _ _ => long_shape _ _ _ _
theorem funcF0S (a : BitVec 7) (f0 : Bool) (f : BitVec 4) (x : Byte) :
    Statement (.funcF0S a f0 f x) := fun _ _ => short_shape _ _ _ _
theorem funcF0L (a : BitVec 14) (f0 : Bool) (f : BitVec 4) (x : Byte) :
    Statement (.funcF0L a f0 f x) := fun _ _ => long_shape _ _ _ _
theorem funcF5S (a : BitVec 7) (f : BitVec 4) (x : Byte) : Statement (.funcF5S a f x) := fun _ _ => short_shape _ _ _ _
theorem funcF5L (a : BitVec 14) (f : BitVec 4) (x : Byte) : Statement (.funcF5L a f x) := fun _ _ => long_shape _ _ _ _
theorem funcF9S (a : BitVec 7) (f : BitVec 4) (x : Byte) : Statement (.funcF9S a f x) := fun _ _ => short_shape _ _ _ _
theorem funcF9L (a : BitVec 14) (f : BitVec 4) (x : Byte) : Statement (.funcF9L a f x) := fun _ _ => long_shape _ _ _ _
theorem funcF13S (a : BitVec 7) (f : Byte) (x : Byte) : Statement (.funcF13S a f x) := fun _ _ => short_shape _ _ _ _
theorem funcF13L (a : BitVec 14) (f : Byte) (x : Byte) : Statement (.funcF13L a f x) := fun _ _ => long_shape _ _ _ _
theorem funcF21S (a : BitVec 7) (f : Byte) (x : Byte) : Statement (.funcF21S a f x) := fun _ _ => short_shape _ _ _ _
theorem funcF21L (a : BitVec 14) (f : Byte) (x : Byte) : Statement (.funcF21L a f x) := fun _ _ => long_shape _ _ _ _
theorem funcF29S (a : BitVec 7) (f : Byte) (x : Byte) : Statement (.funcF29S a f x) := fun _ _ => short_shape _ _ _ _
theorem funcF29L (a : BitVec 14) (f : Byte) (x : Byte) : Statement (.funcF29L a f x) := fun _ _ => long_shape _ _ _ _
theorem funcF37S (a : BitVec 7) (f : Byte) (x : Byte) : Statement (.funcF37S a f x) := fun _ _ => short_shape _ _ _ _
theorem funcF37L (a : BitVec 14) (f : Byte) (x : Byte) : Statement (.funcF37L a f x) := fun _ _ => long_shape _ _ _ _
theorem funcF45S (a : BitVec 7) (f : Byte) (x : Byte) : Statement (.funcF45S a f x) := fun _ _ => short_shape _ _ _ _
theorem funcF45L (a : BitVec 14) (f : Byte) (x : Byte) : Statement (.funcF45L a f x) := fun _ _ => long_shape _ _ _ _
theorem funcF53S (a : BitVec 7) (f : Byte) (x : Byte) : Statement (.funcF53S a f x) := fun _ _ => short_shape _ _ _ _
theorem funcF53L (a : BitVec 14) (f : Byte) (x : Byte) : Statement (.funcF53L a f x) := fun _ _ => long_shape _ _ _ _
theorem funcF61S (a : BitVec 7) (f : Byte) (x : Byte) : Statement (.funcF61S a f x) := fun _ _ => short_shape _ _ _ _
theorem funcF61L (a : BitVec 14) (f : Byte) (x : Byte) : Statement (.funcF61L a f x) := fun _ _ => long_shape _ _ _ _
theorem opsCvVerifyS (a : BitVec 7) (v : BitVec 10) (d : Byte) (x : Byte) :
    Statement (.opsCvVerifyS a v d x) := fun _ _ => short_shape _ _ _ _
theorem opsCvVerifyL (a : BitVec 14) (v : BitVec 10) (d : Byte) (x : Byte) :
    Statement (.opsCvVerifyL a v d x) := fun _ _ => long_shape _ _ _ _
theorem opsCvWriteS (a : BitVec 7) (v : BitVec 10) (d : Byte) (x : Byte) :
    Statement (.opsCvWriteS a v d x) := fun _ _ => short_shape _ _ _ _
theorem opsCvWriteL (a : BitVec 14) (v : BitVec 10) (d : Byte) (x : Byte) :
    Statement (.opsCvWriteL a v d x) := fun _ _ => long_shape _ _ _ _
theorem opsCvBitS (a : BitVec 7) (v : BitVec 10) (k : Bool) (d : Bool) (b : BitVec 3) (x : Byte) :
    Statement (.opsCvBitS a v k d b x) := fun _ _ => short_shape _ _ _ _
theorem opsCvBitL (a : BitVec 14) (v : BitVec 10) (k : Bool) (d : Bool) (b : BitVec 3) (x : Byte) :
    Statement (.opsCvBitL a v k d b x) := fun _ _ => long_shape _ _ _ _
theorem svcVerifyByte (v : BitVec 10) (d : Byte) (x : Byte) :
    Statement (.svcVerifyByte v d x) := fun _ _ => ⟨Nat.le_add_left 3 1, Nat.le_add_left 4 4⟩
theorem svcWriteByte (v : BitVec 10) (d : Byte) (x : Byte) :
    Statement (.svcWriteByte v d x) := fun _ _ => ⟨Nat.le_add_left 3 1, Nat.le_add_left 4 4⟩
theorem svcBit (v : BitVec 10) (k : Bool) (d : Bool) (b : BitVec 3) (x : Byte) :
    Statement (.svcBit v k d b x) := fun _ _ => ⟨Nat.le_add_left 3 1, Nat.le_add_left 4 4⟩
theorem accessory (r : BitVec 6) (rest : List Byte) : Statement (.accessory r rest) := fun _ h => rest_shape _ _ h
theorem reservedE8EF (r : BitVec 3) (rest : List Byte) : Statement (.reservedE8EF r rest) := fun _ h => rest_shape _ _ h
theorem reservedF0FE (r : BitVec 4) (rest : List Byte) :
    Statement (.reservedF0FE r rest) := fun _ h => rest_shape _ _ (Bool.and_eq_true_iff.1 h).2
theorem unclassified00 (rest : List Byte) :
    Statement (.unclassified00 rest) := fun _ h => rest_shape _ _ (Bool.and_eq_true_iff.1 h).1
theorem unclassifiedFF (rest : List Byte) :
    Statement (.unclassifiedFF rest) := fun _ h => rest_shape _ _ (Bool.and_eq_true_iff.1 h).1
theorem rcAck : Statement .rcAck := fun _ _ => msg_shape _
theorem rcAck2021 : Statement .rcAck2021 := fun _ _ => ⟨by decide, by decide⟩
theorem rcNak : Statement .rcNak := fun _ _ => msg_shape _
theorem rcBsy : Statement .rcBsy := fun _ _ => msg_shape _
theorem rcPom (val : Byte) : Statement (.rcPom val) := fun _ _ => msg_shape _
theorem rcAhi (val : Byte) : Statement (.rcAhi val) := fun _ _ => msg_shape _
theorem rcAlo (val : Byte) : Statement (.rcAlo val) := fun _ _ => msg_shape _
theorem rcExt (payload : BitVec 14) : Statement (.rcExt payload) := fun _ _ => msg_shape _
theorem rcDyn (val : Byte) (subidx : BitVec 6) : Statement (.rcDyn val subidx) := fun _ _ => msg_shape _
theorem rcXpom (ss : BitVec 2) (d0 : Byte) (d1 : Byte) (d2 : Byte) (d3 : Byte) :
    Statement (.rcXpom ss d0 d1 d2 d3) := fun _ _ => msg_shape _
theorem setModeOff : Statement .setModeOff := fun _ _ => command_shape _ _ _ _ (by decide)
theorem setModeOps : Statement .setModeOps := fun _ _ => command_shape _ _ _ _ (by decide)
theorem writeCv (cv : BitVec 16) (val : Byte) :
    Statement (.writeCv cv val) := fun _ _ => command_shape _ _ _ _ (by decide)
theorem writeBit (cv : BitVec 16) (bit : BitVec 16) (val : Byte) :
    Statement (.writeBit cv bit val) := fun _ _ => command_shape _ _ _ _ (by decide)
theorem readCv (cv : BitVec 16) : Statement (.readCv cv) := fun _ _ => command_shape _ _ _ _ (by decide)
theorem readBit (cv : BitVec 16) (bit : BitVec 16) :
    Statement (.readBit cv bit) := fun _ _ => command_shape _ _ _ _ (by decide)
theorem svcDone : Statement .svcDone := fun _ _ => command_shape _ _ _ _ (by decide)
theorem createThrottle (a : BitVec 16) : Statement (.createThrottle a) := fun _ _ => command_shape _ _ _ _ (by decide)
theorem deleteThrottle (a : BitVec 16) : Statement (.deleteThrottle a) := fun _ _ => command_shape _ _ _ _ (by decide)
theorem findThrottle (a : BitVec 16) : Statement (.findThrottle a) := fun _ _ => command_shape _ _ _ _ (by decide)
theorem restartThrottles : Statement .restartThrottles := fun _ _ => command_shape _ _ _ _ (by decide)
theorem thrSetSpeed (a : BitVec 16) (speed : Byte) :
    Statement (.thrSetSpeed a speed) := fun _ _ => command_shape _ _ _ _ (by decide)
theorem thrSetFunction (a : BitVec 16) (n : BitVec 16) (on : Bool) :
    Statement (.thrSetFunction a n on) := fun _ _ => command_shape _ _ _ _ (by decide)
theorem thrSetAddress (a : BitVec 16) (new : BitVec 16) :
    Statement (.thrSetAddress a new) := fun _ _ => command_shape _ _ _ _ (by decide)
theorem thrReadCv (a : BitVec 16) (cv : BitVec 16) :
    Statement (.thrReadCv a cv) := fun _ _ => command_shape _ _ _ _ (by decide)
theorem thrWriteCv (a : BitVec 16) (cv : BitVec 16) (val : Byte) :
    Statement (.thrWriteCv a cv val) := fun _ _ => command_shape _ _ _ _ (by decide)
theorem thrWriteBit (a : BitVec 16) (cv : BitVec 16) (val : Bool) (bit : BitVec 3) :
    Statement (.thrWriteBit a cv val bit) := fun _ _ => command_shape _ _ _ _ (by decide)
theorem thrOpsDone (a : BitVec 16) : Statement (.thrOpsDone a) := fun _ _ => command_shape _ _ _ _ (by decide)
theorem setVerbosity (which : BitVec 16) (on : Bool) :
    Statement (.setVerbosity which on) := fun _ _ => command_shape _ _ _ _ (by decide)

end Sys2Proof.Laws.EncodeShape
end

