-- ==== Sys2Proof/Tests/Slice0.lean ====
section
/-! SUPPORT. Tests of the model. The expected results come from spec/: the vectors of 95_test_vectors.md, the encodings of
30_encoding.md, the tables of the rules. A `witness_…` theorem shows that the hypotheses of the obligation of that name can
be met together, at a boundary value where the clause has a range. -/

namespace Sys2Proof.Tests

open Sys2Proof.Machine

/-! ### Small states -/

/-- The other RailCom version, and a block of one throttle slot. -/
def cfg2012 : Config := { Config.standard with railcom_version := .v2012 }
def cfgOne : Config := { Config.standard with max_throttles := 1 }

/-- The throttle of address 3 as `create_throttle(3)` leaves it, with Idle for the unspecified `pkt_ops`. -/
def thr3 : Throttle :=
  { Throttle.reset with valid := true, address := 3#14, pkt_speed := speedPacket 3#14 0,
                        pkt_func := funcPackets Config.standard 3#14 0#69 }

/-- A table of one slot that holds it. -/
def one : State := { State.resetWith cfgOne with thr := [thr3], thr_list := [0] }

/-- The same with an operation pending. -/
def pending : State := { one with thr := [{ thr3 with read_cv_cnt := 4 }] }

/-- The same with the bit engine running in Ops. -/
def running : State := { startOps (adcStart one) with mode := .Ops }

/-- A service operation at a given place of the sequencer. -/
def svcAt (op : SvcOp) (ph : SvcPhase) (cnt step : Nat) (seen : Bool) : State :=
  { State.reset with
    mode := .Service
    svc := { Service.reset with
      svc_op := op, svc_phase := ph, svc_cnt := cnt, svc_step := step, svc_status := .Busy, ack_seen := seen,
      ack_armed := true } }

/-- An event delivered to the block right after reset. -/
def given (e : Event) : State := { State.reset with inputs := [e] }

/-- A frame at the first preamble bit after a cutout. -/
def frameAt (raw : List Byte) : State := placeWord .v2021 (.frame raw) one

/-- The response of a command. -/
def respOf : Out → Option Response
  | .next t => some t.resp
  | .fault _ => none
  | .refused _ => none

/-- One register of the next state. -/
def after {α : Type} (o : Out) (f : State → α) : Option α :=
  match o with
  | .next t => some (f t)
  | .fault _ => none
  | .refused _ => none

/-! ### Well-formedness: an ill-formed term for each check -/

theorem test_wf_refuses_short_address_zero : (Instr.funcF5S 0#7 1#4 0#8).wf Config.standard = false := by decide
theorem test_wf_refuses_long_address_10240 : (Instr.funcF5L 10240#14 1#4 0#8).wf Config.standard = false := by decide
theorem test_wf_admits_long_address_10239 : (Instr.funcF5L 10239#14 1#4 0#8).wf Config.standard = true := by decide
theorem test_wf_refuses_rest_of_one_byte : (Instr.accessory 0#6 [0x00#8]).wf Config.standard = false := by decide
theorem test_wf_refuses_rest_of_eight_bytes :
    (Instr.reservedE8EF 0#3 (List.replicate 8 0x00#8)).wf Config.standard = false := by decide
theorem test_wf_refuses_reserved_FF :
    (Instr.reservedF0FE 15#4 [0x00#8, 0xFF#8]).wf Config.standard = false := by decide
theorem test_wf_refuses_reset_as_unclassified :
    (Instr.unclassified00 [0x00#8, 0x00#8]).wf Config.standard = false := by decide
theorem test_wf_refuses_idle_as_unclassified :
    (Instr.unclassifiedFF [0x00#8, 0xFF#8]).wf Config.standard = false := by decide
theorem test_wf_refuses_bsy_in_2021 : Instr.rcBsy.wf Config.standard = false := by decide
theorem test_wf_refuses_second_ack_in_2012 : Instr.rcAck2021.wf cfg2012 = false := by decide
theorem test_wf_refuses_equal_feature_opcodes :
    Config.wf { Config.standard with feature_exp := { FeatureExp.standard with f21 := 0x1E#5 } } = false := by decide

/-! ### Decoding words written out from the encodings -/

/-- The reading of a packet's bytes, of a frame's raw symbols, of a command word. -/
def pk (bytes : List Byte) : Except Reject Instr := decode Config.standard (.packet false bytes)
def sv (bytes : List Byte) : Except Reject Instr := decode Config.standard (.packet true bytes)
def fr (raw : List Byte) : Except Reject Instr := decode Config.standard (.frame raw)
def cw (w : BitVec 48) : Except Reject Instr := decode Config.standard (.command w)

/-- R104, R105, R99 (95_test_vectors.md 2.1). -/
theorem test_decode_fixed_and_speed :
    pk [0x00, 0x00, 0x00] = .ok .reset ∧ pk [0xFF, 0x00, 0xFF] = .ok .idle ∧
    pk [0x03, 0x3F, 0x88, 0xB4] = .ok (.speed128S 3#7 true 8#7 0xB4#8) ∧
    pk [0x03, 0x3F, 0x08, 0x34] = .ok (.speed128S 3#7 false 8#7 0x34#8) ∧
    pk [0xE7, 0xFF, 0x3F, 0x81, 0xA6] = .ok (.speed128L 10239#14 true 1#7 0xA6#8) := by decide

/-- R100 to R102, one-byte addresses. -/
theorem test_decode_functions_short :
    pk [0x03, 0x90, 0x93] = .ok (.funcF0S 3#7 true 0#4 0x93#8) ∧
    pk [0x03, 0x88, 0x8B] = .ok (.funcF0S 3#7 false 8#4 0x8B#8) ∧
    pk [0x03, 0xB8, 0xBB] = .ok (.funcF5S 3#7 8#4 0xBB#8) ∧
    pk [0x03, 0xA1, 0xA2] = .ok (.funcF9S 3#7 1#4 0xA2#8) ∧
    pk [0x03, 0xDE, 0x81, 0x5C] = .ok (.funcF13S 3#7 0x81#8 0x5C#8) ∧
    pk [0x03, 0xDF, 0x01, 0xDD] = .ok (.funcF21S 3#7 0x01#8 0xDD#8) ∧
    pk [0x03, 0xD8, 0x01, 0xDA] = .ok (.funcF29S 3#7 0x01#8 0xDA#8) ∧
    pk [0x03, 0xD9, 0x01, 0xDB] = .ok (.funcF37S 3#7 0x01#8 0xDB#8) ∧
    pk [0x03, 0xDA, 0x01, 0xD8] = .ok (.funcF45S 3#7 0x01#8 0xD8#8) ∧
    pk [0x03, 0xDB, 0x01, 0xD9] = .ok (.funcF53S 3#7 0x01#8 0xD9#8) ∧
    pk [0x03, 0xDC, 0x80, 0x5F] = .ok (.funcF61S 3#7 0x80#8 0x5F#8) := by decide

/-- R100 to R102, two-byte addresses. -/
theorem test_decode_functions_long :
    pk [0xC3, 0xE8, 0x9F, 0xB4] = .ok (.funcF0L 1000#14 true 15#4 0xB4#8) ∧
    pk [0xC3, 0xE8, 0xB8, 0x93] = .ok (.funcF5L 1000#14 8#4 0x93#8) ∧
    pk [0xC3, 0xE8, 0xA8, 0x83] = .ok (.funcF9L 1000#14 8#4 0x83#8) ∧
    pk [0xC3, 0xE8, 0xDE, 0x81, 0x74] = .ok (.funcF13L 1000#14 0x81#8 0x74#8) ∧
    pk [0xC3, 0xE8, 0xDF, 0x01, 0xF5] = .ok (.funcF21L 1000#14 0x01#8 0xF5#8) ∧
    pk [0xC3, 0xE8, 0xD8, 0x01, 0xF2] = .ok (.funcF29L 1000#14 0x01#8 0xF2#8) ∧
    pk [0xC3, 0xE8, 0xD9, 0x01, 0xF3] = .ok (.funcF37L 1000#14 0x01#8 0xF3#8) ∧
    pk [0xC3, 0xE8, 0xDA, 0x01, 0xF0] = .ok (.funcF45L 1000#14 0x01#8 0xF0#8) ∧
    pk [0xC3, 0xE8, 0xDB, 0x01, 0xF1] = .ok (.funcF53L 1000#14 0x01#8 0xF1#8) ∧
    pk [0xC3, 0xE8, 0xDC, 0x80, 0x77] = .ok (.funcF61L 1000#14 0x80#8 0x77#8) := by decide

/-- R103 and R110. -/
theorem test_decode_cv :
    pk [0x03, 0xE4, 0x06, 0x00, 0xE1] = .ok (.opsCvVerifyS 3#7 6#10 0x00#8 0xE1#8) ∧
    pk [0xC3, 0xE8, 0xE7, 0xFF, 0x00, 0x33] = .ok (.opsCvVerifyL 1000#14 1023#10 0x00#8 0x33#8) ∧
    pk [0x03, 0xEC, 0xFF, 0xFF, 0xEF] = .ok (.opsCvWriteS 3#7 255#10 0xFF#8 0xEF#8) ∧
    pk [0xC3, 0xE8, 0xED, 0x00, 0x01, 0xC7] = .ok (.opsCvWriteL 1000#14 256#10 0x01#8 0xC7#8) ∧
    pk [0x03, 0xE8, 0x1C, 0xFD, 0x0A] = .ok (.opsCvBitS 3#7 28#10 true true 5#3 0x0A#8) ∧
    pk [0xC3, 0xE8, 0xE8, 0x00, 0xE0, 0x23] = .ok (.opsCvBitL 1000#14 0#10 false false 0#3 0x23#8) ∧
    sv [0x74, 0x00, 0x03, 0x77] = .ok (.svcVerifyByte 0#10 0x03#8 0x77#8) ∧
    sv [0x7F, 0xFF, 0xFF, 0x7F] = .ok (.svcWriteByte 1023#10 0xFF#8 0x7F#8) ∧
    sv [0x78, 0x00, 0xFA, 0x82] = .ok (.svcBit 0#10 true true 2#3 0x82#8) := by decide

/-- R127 and R171 to R173: the forms told by the first byte. -/
theorem test_decode_first_byte_forms :
    pk [0x81, 0xF8, 0x79] = .ok (.accessory 1#6 [0xF8, 0x79]) ∧
    pk [0xE8, 0x00, 0xE8] = .ok (.reservedE8EF 0#3 [0x00, 0xE8]) ∧
    pk [0xFD, 0x00, 0xFD] = .ok (.reservedF0FE 13#4 [0x00, 0xFD]) ∧
    pk [0x00, 0x00, 0x00, 0x00] = .ok (.unclassified00 [0x00, 0x00, 0x00]) ∧
    pk [0xFF, 0x00, 0x00, 0xFF] = .ok (.unclassifiedFF [0x00, 0x00, 0xFF]) := by decide

/-- 95_test_vectors.md 2.2: inputs that are no form. -/
theorem test_decode_rejects_by_name :
    pk [0x03, 0x03] = .error .length ∧ pk (List.replicate 9 0x03#8) = .error .length ∧
    pk [0x03, 0x3F, 0x3C] = .error .mfOther ∧ pk [0x03, 0xE0, 0x00, 0x00, 0xE3] = .error .mfOther ∧
    pk [0x03, 0xDD, 0x00, 0xDE] = .error .mfOther ∧ pk [0x03, 0x60, 0x63] = .error .mfOther ∧
    sv [0x78, 0x00, 0x0F, 0x77] = .error .svcBitData ∧ sv [0x70, 0x00, 0x03, 0x73] = .error .mfOther ∧
    fr [0x00] = .error .frame ∧ cw 0xFF0000000000#48 = .error .opcode := by decide

/-- R119 and R120, each symbol read off the table of R245. -/
theorem test_decode_railcom :
    fr [0xF0] = .ok .rcAck ∧ fr [0x0F] = .ok .rcAck2021 ∧ fr [0x3C] = .ok .rcNak ∧
    decode cfg2012 (.frame [0xE1]) = .ok .rcBsy ∧ fr [0xAC, 0xC9] = .ok (.rcPom 0x2A#8) ∧
    fr [0xA3, 0xAC] = .ok (.rcAhi 0x00#8) ∧ fr [0x99, 0xA5] = .ok (.rcAlo 0x03#8) ∧
    fr [0xB8, 0xAA, 0xA9] = .error .frame ∧ fr [0xB2, 0xAC, 0xAA] = .error .frame ∧
    fr [0x63, 0xAA, 0xA9] = .error .frame ∧ fr [0x5A, 0x93, 0xAC] = .ok (.rcDyn 0x0A#8 0#6) := by decide

/-- EXT is packet id 5 (data `010100` to `010111`), XPOM ids 8 to 11 (R120). -/
theorem test_decode_railcom_long :
    fr [codeOf 0x14#6, codeOf 0x01#6, codeOf 0x02#6] = .ok (.rcExt 0x042#14) ∧
    fr [0x72, 0xAA, 0xA9] = .ok (.rcExt 0x042#14) ∧
    fr [codeOf 0x24#6, codeOf 0#6, codeOf 0#6, codeOf 0#6, codeOf 0#6, codeOf 5#6] =
      .ok (.rcXpom 1#2 0#8 0#8 0#8 5#8) := by decide

/-- R131, every opcode. -/
theorem test_decode_commands :
    cw 0x010000000000#48 = .ok .setModeOff ∧ cw 0x020000000000#48 = .ok .setModeOps ∧
    cw 0x100001000003#48 = .ok (.writeCv 1#16 3#8) ∧ cw 0x110001000201#48 = .ok (.writeBit 1#16 2#16 1#8) ∧
    cw 0x120001000000#48 = .ok (.readCv 1#16) ∧ cw 0x130001000200#48 = .ok (.readBit 1#16 2#16) ∧
    cw 0x140000000000#48 = .ok .svcDone ∧ cw 0x200003000000#48 = .ok (.createThrottle 3#16) ∧
    cw 0x210003000000#48 = .ok (.deleteThrottle 3#16) ∧ cw 0x220003000000#48 = .ok (.findThrottle 3#16) ∧
    cw 0x230000000000#48 = .ok .restartThrottles ∧ cw 0x300003000800#48 = .ok (.thrSetSpeed 3#16 8#8) ∧
    cw 0x310003000001#48 = .ok (.thrSetFunction 3#16 0#16 true) ∧
    cw 0x320003000400#48 = .ok (.thrSetAddress 3#16 4#16) ∧
    cw 0x330003000700#48 = .ok (.thrReadCv 3#16 7#16) ∧ cw 0x340003000103#48 = .ok (.thrWriteCv 3#16 1#16 3#8) ∧
    cw 0x350003001C0D#48 = .ok (.thrWriteBit 3#16 28#16 true 5#3) ∧
    cw 0x360003000000#48 = .ok (.thrOpsDone 3#16) ∧ cw 0x400000000301#48 = .ok (.setVerbosity 3#16 true) := by decide

/-- The opcode table's rows: one number, the first byte most significant. -/
theorem test_table_words :
    decodeTableWord 32 0x033F88B4 = some (.speed128S 3#7 true 8#7 0xB4#8) ∧
    decodeTableWord 48 0x300003000800 = some (.thrSetSpeed 3#16 8#8) ∧
    decodeTableWord 8 0xF0 = some .rcAck ∧ decodeTableWord 16 0x2A = some (.rcPom 0x2A#8) := by decide

/-! ### Instructions on small states -/

/-- 95_test_vectors.md 2.2: class, fields and the packet the encoder builds again. -/
theorem test_speed128 : after (exec (.speed128S 3#7 false 8#7 0x34#8) one) State.codec =
    some { cls := .Speed128, fields := .speed 3 (-8), built := some { bytes := [0x03, 0x3F, 0x08, 0x34] } } := by decide

/-- Reverse zero decodes to 0; it is encoded as forward zero. -/
theorem test_speed128_reverse_zero : after (exec (.speed128S 3#7 false 0#7 0x3C#8) one) State.codec =
    some { cls := .Speed128, fields := .speed 3 0, built := some { bytes := [0x03, 0x3F, 0x80, 0xBC] } } := by decide

/-- A wrong checksum is `Invalid` (`03,3F,88,B5`). -/
theorem test_speed128_bad_checksum : after (exec (.speed128S 3#7 true 8#7 0xB5#8) one) State.codec =
    some { cls := .Invalid, fields := .none, built := none } := by decide

/-- F4 is bit 3 of the byte and bit 4 of the bits. -/
theorem test_funcF0_moves_f0 : after (exec (.funcF0S 3#7 false 8#4 0x8B#8) one) State.codec =
    some { cls := .Func0, fields := .func 3 0b10000#8, built := some { bytes := [0x03, 0x88, 0x8B] } } := by decide

theorem test_funcF61 : after (exec (.funcF61S 3#7 0x80#8 0x5F#8) one) (fun t => (t.codec.cls, t.codec.fields)) =
    some (.Func61, .func 3 0x80#8) := by decide

theorem test_opsCvBit : after (exec (.opsCvBitS 3#7 28#10 true true 5#3 0x0A#8) one) (fun t => t.codec.fields) =
    some (.cvBit (some 3) 29 true true 5) := by decide

theorem test_svcWriteByte : after (exec (.svcWriteByte 0#10 3#8 0x7F#8) one) State.codec =
    some { cls := .SvcWriteByte, fields := .cvByte none 1 3#8, built := some { bytes := [0x7C, 0x00, 0x03, 0x7F] } } := by
  decide

theorem test_accessory : after (exec (.accessory 1#6 [0xF8, 0x79]) one) (fun t => t.codec.cls) = some .Accessory := by
  decide

/-- S3: the response and the sequencer's registers of `write_cv(1, 3)`. -/
theorem test_writeCv : after (exec (.writeCv 1#16 3#8) State.reset)
    (fun t => (t.mode, t.svc.svc_op, t.svc.svc_cv, t.svc.svc_val, t.svc.svc_cnt, t.bs.preamble_bits)) =
      some (.Service, .WriteByte, 0#10, 3#8, 20, 20) := by decide

/-- The first block of `read_cv` verifies bit 7. -/
theorem test_readCv : after (exec (.readCv 1#16) State.reset) (fun t => (t.svc.svc_op, t.svc.svc_step)) =
    some (.ReadByte, 7) := by decide

theorem test_writeBit_rejects_value_2 : respOf (exec (.writeBit 1#16 2#16 2#8) State.reset) = some rejected := by decide

theorem test_readBit : after (exec (.readBit 1024#16 7#16) State.reset) (fun t => (t.svc.svc_cv, t.svc.svc_bit_num)) =
    some (1023#10, 7#3) := by decide

/-- A running service operation is cancelled with Error. -/
theorem test_setModeOff_cancels : after (exec .setModeOff (svcAt .WriteByte .Command 3 0 false))
    (fun t => (t.mode, t.svc.svc_status, t.svc.svc_op)) = some (.Off, .Error, .None) := by decide

theorem test_setModeOps : after (exec .setModeOps State.reset) (fun t => (t.mode, t.bs.bs_run, t.bs.pos, t.cs.adc_run)) =
    some (.Ops, true, .preamble 13, true) := by decide

theorem test_svcDone_busy : respOf (exec .svcDone (svcAt .WriteByte .Command 3 0 false)) = some rejected := by decide

theorem test_createThrottle : after (exec (.createThrottle 3#16) State.reset)
    (fun t => (t.resp.val, t.thr_list, (thrAt t 0).pkt_speed)) =
      some (0#16, [0], { bytes := [0x03, 0x3F, 0x80, 0xBC] }) := by decide

theorem test_deleteThrottle : after (exec (.deleteThrottle 3#16) one)
    (fun t => ((thrAt t 0).valid, (thrAt t 0).gen, t.thr_list)) = some (false, 1, []) := by decide

theorem test_findThrottle_unknown : respOf (exec (.findThrottle 4#16) one) = some rejected := by decide

/-- S2: `set_speed(+8)` and `set_function(0, true)`. -/
theorem test_setSpeed : after (exec (.thrSetSpeed 3#16 8#8) one) (fun t => (thrAt t 0).pkt_speed.bytes) =
    some [0x03, 0x3F, 0x88, 0xB4] := by decide

theorem test_setSpeed_minus_127 : after (exec (.thrSetSpeed 3#16 0x81#8) one) (fun t => (thrAt t 0).pkt_speed.bytes) =
    some [0x03, 0x3F, 0x7F, 0x43] := by decide

theorem test_setFunction : after (exec (.thrSetFunction 3#16 0#16 true) one)
    (fun t => ((thrAt t 0).pkt_func.headD IDLE |>.bytes, (thrAt t 0).seq)) = some ([0x03, 0x90, 0x93], 1) := by decide

theorem test_setAddress : after (exec (.thrSetAddress 3#16 1000#16) one) (fun t => (thrAt t 0).pkt_speed.bytes) =
    some [0xC3, 0xE8, 0x3F, 0x80, 0x94] := by decide

/-- S5: the packet of `read_cv(7)`, sent four times. -/
theorem test_thrReadCv : after (exec (.thrReadCv 3#16 7#16) one)
    (fun t => ((thrAt t 0).pkt_ops.bytes, (thrAt t 0).read_cv_cnt)) = some ([0x03, 0xE4, 0x06, 0x00, 0xE1], 4) := by decide

theorem test_thrWriteBit : after (exec (.thrWriteBit 3#16 29#16 true 5#3) one) (fun t => (thrAt t 0).pkt_ops.bytes) =
    some [0x03, 0xE8, 0x1C, 0xFD, 0x0A] := by decide

theorem test_setVerbosity : after (exec (.setVerbosity 2#16 true) one) (fun t => (t.trace.trace_speed, t.trace.trace_dcc)) =
    some (true, false) := by decide

/-- S5: POM reaches the throttle of `last_ref` and ends the operation. -/
theorem test_rcPom : after (exec (.rcPom 0x2A#8) { pending with bs := { pending.bs with last_ref := some ⟨0, 0⟩ } })
    (fun t => ((thrAt t 0).ops_done, (thrAt t 0).ops_ok, (thrAt t 0).ops_val, (thrAt t 0).read_cv_cnt)) =
      some (true, true, 0x2A#8, 0) := by decide

/-- A stale reference hears nothing. -/
theorem test_rcPom_stale : after (exec (.rcPom 0x2A#8) { pending with bs := { pending.bs with last_ref := some ⟨0, 1⟩ } })
    (fun t => ((thrAt t 0).ops_done, t.rc.rc_ch2)) = some (false, [.pom 0x2A#8]) := by decide

/-- S6: an invalid symbol leaves channel 2 empty; both symbols of channel 1 are no AHI and no ALO. -/
theorem test_corrupt_frame :
    rcParse .v2021 [0x33, 0x34, 0xFF, 0x35, 0x36, 0x37, 0x38, 0x39] = (none, []) := by decide

/-- S1 (95_test_vectors.md 2.3): the slots of the Idle packet after its preamble. -/
theorem test_idle_slots : (frameSlots 14 true IDLE).length = 46 := by decide

/-- 43_current_sensor.md R287. -/
theorem test_toMA : toMA 2048 = 1499 ∧ toMA 4095 = 2998 ∧ toMA 1 = 0 := by decide

/-- R290: the comparison is made after each ring write; with no sample there is none. -/
theorem test_ack_needs_a_sample :
    (adcDrain (svcAt .WriteByte .Command 3 0 false)).svc.ack_seen = false ∧
    (adcDrain { svcAt .WriteByte .Command 3 0 false with
      cs := { Sensor.reset Config.standard with adc_fifo := [(0#12, false)] } }).svc.ack_seen = true := by decide

/-- R174: a text that does not fit is cut and reported. -/
theorem test_render : render 2 [1#8, 2#8, 3#8] = { text := [1#8, 2#8], fits := false } ∧
    render 3 [1#8, 2#8, 3#8] = { text := [1#8, 2#8, 3#8], fits := true } := by decide

/-- 60_exceptions.md R417: an unknown opcode. -/
theorem test_unknown_opcode : respOf (step (given (.cmd 0xFF0000000000#48))) = some rejected := by decide

theorem test_tick : after (step (given .tick)) State.now = some 1 := by decide

/-- A table word placed by `withFetchWord` is fetched and run by the next step. -/
theorem test_withFetchWord : after (step (State.reset.withFetchWord 48 0x020000000000)) State.mode = some .Ops ∧
    after (step (State.reset.withFetchWord 16 0x2A)) (fun t => t.rc.rc_ch2) = some [.pom 0x2A#8] := by decide

/-! ### Witnesses -/

/-- The tables of `one` and of reset. -/
theorem thrAt_one (i : Nat) : thrAt one i = if i = 0 then thr3 else Throttle.reset := by
  match i with
  | 0 => rfl
  | i + 1 => exact thrAt_ge (by rw [show one.thr.length = 1 from rfl]; omega)

theorem thrAt_reset (i : Nat) : thrAt State.reset i = Throttle.reset := by
  match i with
  | 0 | 1 | 2 | 3 => rfl
  | i + 4 => exact thrAt_ge (by rw [show State.reset.thr.length = 4 from rfl]; omega)

theorem witness_reset_list : ListOk State.reset where
  sorted := .nil
  holds i := by
    rw [thrAt_reset]
    exact iff_of_false (List.not_mem_nil) (fun h => absurd h.2 (by decide))
  cursor := by decide

theorem witness_one_list : ListOk one where
  sorted := List.pairwise_singleton _ _
  holds i := by
    rw [thrAt_one, show one.thr.length = 1 from rfl, show one.thr_list = [0] from rfl, List.mem_singleton]
    constructor
    · rintro rfl
      exact ⟨by decide, rfl⟩
    · exact fun h => by omega
  cursor := by decide

theorem thr3_ok : ThrottleOk cfgOne thr3 where
  address := by decide
  speed := by decide
  functions n _ := BitVec.getLsbD_zero
  cachedSpeed := by decide
  cachedFunc := by decide
  seq := by decide
  onePending := by decide
  repeats := by decide
  opsPacket h := by cases h

theorem idle_engine {s : State} (h : s.bs = Bitstream.reset s.cfg) (hm : s.mode = .Off) : BitEngineOk s where
  slotA := by rw [h]; exact idle_ok
  slotB := by rw [h]; exact idle_ok
  refA := by rw [h]; intro _ e; cases e
  refB := by rw [h]; intro _ e; cases e
  refLast := by rw [h]; intro _ e; cases e
  preambleOps e := by rw [hm] at e; cases e
  preambleSvc e := by rw [hm] at e; cases e
  railcom := by rw [h]; rfl
  pos e := by rw [h] at e; cases e
  fromCutout e := by rw [h] at e; cases e

theorem idle_service {s : State} (h : s.svc = Service.reset) (hm : s.mode = .Off) : ServiceOk s where
  op := by rw [h, hm]; decide
  busy := by rw [h, hm]; decide
  count e := by rw [hm] at e; cases e
  step := by rw [h]; exact rfl
  armed := by rw [h, hm]; decide
  seen e := by rw [h] at e; cases e
  idle _ := by rw [h]; exact ⟨rfl, rfl⟩

/-- Reset, and a full table of one throttle, meet the invariant. -/
theorem witness_invariant : Invariant State.reset ∧ Invariant one := by
  refine ⟨⟨by decide, by decide, rfl, fun _ => rfl, idle_engine rfl rfl, idle_service rfl rfl, witness_reset_list, ?_,
    ⟨rfl, rfl, by decide, by decide, rfl, by decide⟩⟩,
    ⟨by decide, by decide, rfl, fun _ => rfl, idle_engine rfl rfl, idle_service rfl rfl, witness_one_list, ?_,
    ⟨rfl, rfl, by decide, by decide, rfl, by decide⟩⟩⟩
  · intro t ht hv
    rw [List.eq_of_mem_replicate (show t ∈ List.replicate 4 Throttle.reset from ht)] at hv
    cases hv
  · intro t ht _
    rw [List.mem_singleton.1 (show t ∈ [thr3] from ht)]
    exact thr3_ok

/-- `DecodeInvertsEncode`, `PacketFormsAnswerAsTheDecoder`: the longest address; the symbols of one version each. -/
theorem witness_DecodeInvertsEncode :
    Config.standard.wf = true ∧ (Instr.speed128L 10239#14 true 127#7 0#8).wf Config.standard = true ∧
    Instr.rcAck2021.wf Config.standard = true ∧ cfg2012.wf = true ∧ Instr.rcBsy.wf cfg2012 = true := by decide

theorem witness_PacketFormsAnswerAsTheDecoder : one.cfg.wf = true ∧ (Instr.funcF5S 127#7 15#4 0#8).wf one.cfg = true ∧
    encode one.cfg (.funcF5S 127#7 15#4 0#8) = .packet false [0x7F, 0xBF, 0x00] := by decide

theorem witness_PacketDecodeKeepsEveryBit :
    decode Config.standard (.packet false (0xEF#8 :: List.replicate 7 0xFF#8)) =
      .ok (.reservedE8EF 7#3 (List.replicate 7 0xFF#8)) := by decide

theorem witness_StepRunsTheNextCommand :
    (given (.cmd 0x010000000000#48)).inputs = [.cmd 0x010000000000#48] ∧
    decode State.reset.cfg (.command 0x010000000000#48) = .ok .setModeOff ∧ State.reset.trace.cmd_echo = false ∧
    ({ State.reset with trace := { Trace.reset with cmd_echo := true } } : State).trace.cmd_echo = true := by decide

theorem witness_StepAnswersAsTheDecoder :
    (given (.codec false [0x03, 0x90, 0x93])).cfg.wf = true ∧
    (given (.codec false [0x03, 0x90, 0x93])).inputs = [.codec false [0x03, 0x90, 0x93]] ∧
    pk [0x03, 0x90, 0x93] = .ok (.funcF0S 3#7 true 0#4 0x93#8) := by decide

theorem witness_StepRunsTheRailcomMessage :
    (frameAt [0xAC, 0xC9]).inputs = [.bitEnd] ∧ (frameAt [0xAC, 0xC9]).bs.bs_run = true ∧
    (frameAt [0xAC, 0xC9]).bs.railcom_enabled = true ∧ (frameAt [0xAC, 0xC9]).bs.from_cutout = true ∧
    (frameAt [0xAC, 0xC9]).bs.pos = .preamble (frameAt [0xAC, 0xC9]).bs.preamble_bits ∧
    decode (frameAt [0xAC, 0xC9]).cfg (.frame (frameBytes (frameAt [0xAC, 0xC9]))) = .ok (.rcPom 0x2A#8) := by decide

/-- One state for each event, the bit engine and the ADC stopped and running. -/
theorem witness_EventSteps :
    (given (.uartByte 0xAC#8)).inputs = [.uartByte 0xAC#8] ∧ (given .tick).inputs = [.tick] ∧
    ({ running with inputs := [.bitEnd] } : State).bs.bs_run = true ∧ (given .bitEnd).bs.bs_run = false ∧
    (given (.adcSample 1#12 false)).cs.adc_run = false ∧ State.reset.inputs = [] := by decide

theorem witness_FailedCommandsChangeNothing :
    encode State.reset.cfg (.findThrottle 0#16) = .command 0x220000000000#48 ∧
    after (exec (.findThrottle 0#16) State.reset) (fun t => t.resp.ok) = some false := by decide

/-- The operand just outside each range. -/
theorem witness_CommandsRejectBadOperands :
    (0#16).toNat < 1 ∧ 1024 < (1025#16).toNat ∧ 7 < (8#16).toNat ∧ 1 < (2#8).toNat ∧ 10239 < (10240#16).toNat ∧
    fmax State.reset.cfg.func_cap < (29#16).toNat ∧ 3 < (4#16).toNat := by decide

/-- `one` is full, holds address 3 only and has a slot for it; `pending` has an operation; a neighbour holds address 4. -/
theorem witness_CommandsRejectByPolicy :
    (0xFF0000000000#48).extractLsb' 40 8 ∉ [0x01#8, 0x02#8, 0x10#8, 0x11#8, 0x12#8, 0x13#8, 0x14#8, 0x20#8, 0x21#8, 0x22#8,
      0x23#8, 0x30#8, 0x31#8, 0x32#8, 0x33#8, 0x34#8, 0x35#8, 0x36#8, 0x40#8] ∧ (svcAt .WriteByte .Command 3 0 false).mode = .Service ∧
    one.thr_list.length = one.cfg.max_throttles ∧ (∀ t ∈ one.thr, t.valid = true → t.address ≠ (4#16).setWidth 14) ∧
    findSlot pending ((3#16).setWidth 14) = some 0 ∧ 0 < (thrAt pending 0).read_cv_cnt ∧
    (thrAt { one with thr := [thr3, { thr3 with address := 4#14 }] } 1).valid = true ∧
    (thrAt { one with thr := [thr3, { thr3 with address := 4#14 }] } 1).address = (4#16).setWidth 14 := by decide

/-- `SpeedRoundTrip`, `FunctionRoundTrip`, `CvRoundTrip`, `AddressPart`: the ends of the ranges. -/
theorem witness_round_trips :
    (encSpeed128 1 (-127)).isSome = true ∧ (encSpeed128 10239 127).isSome = true ∧ encSpeed128 1 128 = none ∧
    (encFunc Config.standard 9 10239 0#69).isSome = true ∧ grp 68 = 9 ∧ grp 0 = 0 ∧
    (encOpsCvVerify 10239 1024 0#8).isSome = true ∧ (encSvcBit 1 false false 7).isSome = true ∧
    setAddress 127 = some [0x7F] ∧ setAddress 128 = some [0xC0, 0x80] ∧ setAddress 10240 = none := by decide

theorem witness_EncodedPacketsAreWellFormed : encSpeed128 3 8 = some { bytes := [0x03, 0x3F, 0x88, 0xB4] } := by decide

theorem witness_ChecksumByte : 1 ≤ ({ bytes := [0x00] } : DccPacket).len ∧ ({ bytes := [0x00] } : DccPacket).len = 1 := by
  decide

theorem witness_FrameParsesToItsMessages :
    (∀ m ∈ [RcMsg.bsy, .pom 0#8], m = .bsy → RailcomVersion.v2012 = .v2012) ∧
    [RcMsg.bsy, .pom 0#8].head? ≠ some (.ahi 0#8) := by decide

theorem witness_CorruptFrameDropsChannel2 : 2 < [0xA3#8, 0xAC#8, 0xFF#8].length ∧
    rcClass .v2021 ([0xA3#8, 0xAC#8, 0xFF#8].getD 2 0#8) = .inv ∧ rcClass .v2021 ([0xFF#8].getD 0 0#8) = .inv := by decide

theorem witness_RailcomMessagesWithoutThrottleEffect :
    one.cfg.railcom_version = .v2021 ∧ (State.resetWith cfg2012).cfg.railcom_version = .v2012 ∧
    (one.rc.rc_ch1 = none ∧ one.rc.rc_ch2 = []) ∧
    ({ one with rc := { one.rc with rc_ch2 := [.ack] } } : State).rc.rc_ch2 ≠ [] := by decide

/-- A live reference with and without an operation, an absent one and a stale one; both kinds of subindex. -/
theorem witness_PomAndDynReachTheThrottle :
    (thrAt pending 0).valid = true ∧ (thrAt pending 0).gen = 0 ∧ 0 < (thrAt pending 0).read_cv_cnt ∧
    ((thrAt one 0).read_cv_cnt = 0 ∧ (thrAt one 0).write_cv_cnt = 0 ∧ (thrAt one 0).write_bit_cnt = 0) ∧
    0#6 = one.cfg.dyn_subidx_speed1 ∧ 1#6 ≠ one.cfg.dyn_subidx_speed1 ∧ one.trace.trace_speed = false ∧
    one.bs.last_ref = none ∧ ¬ ((thrAt one 0).valid = true ∧ (thrAt one 0).gen = 1) := by decide

theorem witness_StaleReferenceHearsNothing :
    (frameAt []).bs.bs_run = true ∧ (frameAt []).bs.railcom_enabled = true ∧ (frameAt []).bs.from_cutout = true ∧
    (frameAt []).bs.pos = .preamble (frameAt []).bs.preamble_bits ∧ (frameAt []).bs.last_ref = none := by decide

/-- The last and the last but one byte of the packet on the wire, in the two settings of the cutout. -/
theorem witness_SlotAndSuccessorOfPosition :
    running.bs.curPkt.len = 3 ∧ running.bs.curPkt.bytes[2]? = some 0xFF#8 ∧ running.bs.railcom_enabled = true ∧
    ({ running.bs with railcom_enabled := false } : Bitstream).railcom_enabled = false := by decide

/-- A position of each kind under a running engine, traced and not, the end of a frame, and an engine that the step stops. -/
theorem witness_BitEndEffects :
    running.bs.bs_run = true ∧ running.trace.trace_dcc = false ∧
    ({ running with trace := { running.trace with trace_dcc := true } } : State).trace.trace_dcc = true ∧
    ((frameAt []).bs.bs_run = true ∧ (frameAt []).bs.pos = .preamble (frameAt []).bs.preamble_bits ∧
      (frameAt []).bs.from_cutout = true ∧ (frameAt []).bs.railcom_enabled = true) ∧
    ({ running.bs with pos := .cutout 4 } : Bitstream).pos = .cutout 4 ∧
    ({ running.bs with pos := .trail 2 } : Bitstream).curPkt.len ≤ 2 + 1 ∧
    (bitEnd { running with bs := { running.bs with pos := .preamble 1 } }).bs.bs_run = true ∧
    (bitEnd { startSvc (svcAt .WriteByte .Reset2 0 0 false) with
      bs := { (startSvc State.reset).bs with pos := .preamble 1 } }).bs.bs_run = false := by decide

theorem bitEnds_ops (n : Nat) {s : State} (hm : s.mode = .Ops) (hr : s.bs.bs_run = true) :
    (bitEnds n s).bs.bs_run = true := by
  induction n generalizing s with
  | zero => exact hr
  | succ n ih => exact ih (bitEnd_ops hm hr).1 (bitEnd_ops hm hr).2

/-- In Ops no packet stops the engine: from the first and from the last preamble bit, and from either start. -/
theorem witness_WireCarriesThePacket :
    let at' (r : Nat) : State := { running with bs := { running.bs with pos := .preamble r } }
    (∀ r, (at' r).bs.bs_run = true ∧ 1 ≤ (at' r).bs.preamble_bits ∧ (at' r).bs.pos = .preamble r ∧
      1 ≤ (at' r).bs.curPkt.len ∧ ∀ n, (bitEnds n (at' r)).bs.bs_run = true) ∧
    (∀ n, (bitEnds n (startOps running)).bs.bs_run = true ∧ (bitEnds n (startSvc running)).bs.bs_run = true) :=
  ⟨fun _ => ⟨rfl, (by decide : 1 ≤ 14), rfl, (by decide : 1 ≤ 3), fun n => bitEnds_ops n rfl rfl⟩,
    fun n => ⟨bitEnds_ops n rfl rfl, bitEnds_ops n rfl rfl⟩⟩

theorem witness_StartAndStop : running.bs.bs_run = true ∧ one.bs.bs_run = false := by decide

/-- The FIFO empty, and full with its four entries. -/
theorem witness_AdcSampleQueues :
    running.cs.adc_run = true ∧ running.cs.adc_fifo.length < running.cfg.adc_fifo_depth ∧
    running.cfg.adc_fifo_depth ≤ (List.replicate 3 (0#12, false) ++ [(1#12, false)]).length := by decide

theorem witness_AveragesOfTheLastSamples :
    16 ≤ 16 ∧ ({ Sensor.reset Config.standard with cs_ring := List.replicate 16 0#12 } : Sensor).cs_ring.length = 16 ∧
    (Sensor.reset Config.standard).cs_head < 16 ∧ (List.replicate 16 (4095#12)).length = 16 := by decide

/-- Armed at a threshold that no current reaches, armed at 0, and not armed. -/
theorem witness_AckDetector :
    (svcAt .WriteByte .Command 3 0 false).svc.ack_armed = true ∧
    (svcAt .WriteByte .Command 3 0 false).svc.ack_threshold_mA ≤ toMA (shortAvgRaw 166 (Sensor.reset Config.standard)) ∧
    toMA (shortAvgRaw 166 (Sensor.reset Config.standard)) < 60 ∧ State.reset.svc.ack_armed = false := by decide

theorem witness_PullOpsServesTheCursor :
    State.reset.mode = .Off ∧ running.mode = .Ops ∧ running.thr_list[running.rr_cursor]? = some 0 ∧
    (({ running with thr_list := [] } : State).mode = .Ops ∧ ({ running with thr_list := [] } : State).thr_list = []) := by
  decide

/-- Each phase with its count at the end and before it; the end of a block, terminal and not. -/
theorem witness_PullSvcPhases :
    (svcAt .WriteByte .Reset1 2 0 false).svc.svc_cnt = 0 + 2 ∧ (svcAt .WriteByte .Reset1 1 0 false).svc.svc_cnt = 1 ∧
    (svcAt .WriteByte .Command 2 0 false).svc.ack_seen = false ∧ (svcAt .WriteByte .Command 1 0 true).svc.ack_seen = true ∧
    (svcAt .WriteByte .Reset2 1 0 false).svc.svc_cnt = 0 + 1 ∧
    (blockEnd (svcAt .WriteByte .Reset2 0 0 false)).1 = true ∧
    (blockEnd (svcAt .ReadByte .Reset2 0 7 false)).1 = false := by decide

/-- `SvcCommandPacketBytes` and `BlockEndOutcomes`: each operation at each of its blocks, with and without an ack. -/
theorem witness_BlockEndOutcomes :
    (svcAt .WriteBit .Reset2 0 0 true).svc.svc_op = .WriteBit ∧ (svcAt .ReadByte .Reset2 0 7 true).svc.svc_step ≤ 7 ∧
    (svcAt .ReadByte .Reset2 0 8 false).svc.svc_step = 8 ∧ (svcAt .ReadBit .Reset2 0 0 true).svc.svc_step = 0 ∧
    (svcAt .ReadBit .Reset2 0 1 false).svc.svc_step = 1 := by decide

theorem witness_WriteWithoutAckSequence :
    (svcAt .WriteByte .Reset1 20 0 false).mode = .Service ∧ (svcAt .WriteByte .Reset1 20 0 false).svc.svc_cnt = 20 ∧
    (svcAt .WriteByte .Reset1 20 0 false).svc.svc_phase = .Reset1 := by decide

/-- Its third clause at reset. -/
theorem witness_SetModeOff : Invariant State.reset ∧ State.reset.mode = .Off := ⟨witness_invariant.1, rfl⟩

theorem witness_SetModeOps : running.mode = .Ops ∧ one.mode = .Off ∧ ListOk one := ⟨rfl, rfl, witness_one_list⟩

/-- Both starts, with the operands at the ends of their ranges. -/
theorem witness_ServiceCommandsBegin :
    one.mode ≠ .Service ∧ running.mode = .Ops ∧ 1 ≤ (1#16).toNat ∧ (1024#16).toNat ≤ 1024 ∧ (7#16).toNat ≤ 7 ∧
    (1#8).toNat ≤ 1 := by decide

/-- `PollsOnlyAnswer`, `DeleteAndRestartThrottles`: address 3 is in slot 0, and a reference to it is live. -/
theorem witness_PollsOnlyAnswer : ListOk one ∧ 0 < one.thr.length ∧ (thrAt one 0).valid = true ∧
    (thrAt one 0).address = (3#16).setWidth 14 ∧ live one { slot := 0, gen := 0 } = true :=
  ⟨witness_one_list, by decide, rfl, rfl, rfl⟩

/-- An existing address, a full table, a free slot; the last address. -/
theorem witness_CreateThrottle :
    (Invariant one ∧ (thrAt one 0).address = (3#16).setWidth 14) ∧
    ((∀ t ∈ one.thr, t.valid = true → t.address ≠ (10239#16).setWidth 14) ∧ one.thr_list.length = one.cfg.max_throttles) ∧
    Invariant State.reset ∧ (∀ t ∈ State.reset.thr, t.valid = true → t.address ≠ (10239#16).setWidth 14) ∧
    State.reset.thr_list.length < State.reset.cfg.max_throttles :=
  ⟨⟨witness_invariant.2, rfl⟩, ⟨by decide, rfl⟩, witness_invariant.1, by decide, by decide⟩

/-- Each counter at 1 and at 2, and the rotation at an even and an odd place. -/
theorem witness_RotationAndOverrides :
    ({ thr3 with read_cv_cnt := 1 } : Throttle).read_cv_cnt = 1 ∧ 2 ≤ ({ thr3 with write_cv_cnt := 2 } : Throttle).write_cv_cnt ∧
    ({ thr3 with write_bit_cnt := 1 } : Throttle).write_bit_cnt = 1 ∧ thr3.seq = 2 * 0 ∧
    ({ thr3 with seq := 9 } : Throttle).seq = 2 * 4 + 1 ∧ (thr3.pkt_func[4]?).isSome = true := by decide

/-- `SetSpeed`, `SetFunction`, `SetAddress`, `OpsRequests`: address 3 in slot 0, no operation pending, the largest operands. -/
theorem witness_throttle_commands :
    1 ≤ (3#16).toNat ∧ (3#16).toNat ≤ 10239 ∧ findSlot one ((3#16).setWidth 14) = some 0 ∧ (0x81#8 : Byte) ≠ 0x80#8 ∧
    (28#16).toNat ≤ fmax one.cfg.func_cap ∧ (10239#16).toNat ≤ 10239 ∧ (1024#16).toNat ≤ 1024 ∧
    (thrAt one 0).read_cv_cnt = 0 ∧ (thrAt one 0).write_cv_cnt = 0 ∧ (thrAt one 0).write_bit_cnt = 0 ∧
    (∀ j, j < one.thr.length → j ≠ 0 → (thrAt one j).valid = true → (thrAt one j).address ≠ (10239#16).setWidth 14) := by
  decide

/-- `StepKeepsInvariant`: a state that meets the invariant and its next state. -/
theorem witness_StepKeepsInvariant : Invariant one ∧ ∃ t, step one = .next t := ⟨witness_invariant.2, _, rfl⟩

end Sys2Proof.Tests
end

section
/-! The step, said once for each event of the agents (00_scope.md R2), and the two statements about the events that a step
takes. -/

namespace Sys2Proof.Machine

/-- A step takes the first event of the list and runs it on the state without it. -/
theorem step_cons {s : State} {e : Event} {rest : List Event} (h : s.inputs = e :: rest) :
    step s = runEvent exec e { s with inputs := rest } := by
  rw [step, h]

theorem step_nil {s : State} (h : s.inputs = []) : step s = .next s := by
  rw [step, h]

/-- A command word that decodes to an instruction runs it on the state after the echo (R130, R131). -/
theorem runEvent_cmd_of_decode {w : BitVec 48} {s : State} {i : Instr} (h : decode s.cfg (.command w) = .ok i) :
    runEvent exec (.cmd w) s = exec i (echo w s) := by
  simp only [runEvent, h]

theorem echo_off {s : State} (w : BitVec 48) (h : s.trace.cmd_echo = false) : echo w s = s := by
  simp [echo, logWhen, h]

theorem echo_on {s : State} (w : BitVec 48) (h : s.trace.cmd_echo = true) : echo w s = logLine (.command w) s := by
  simp [echo, logWhen, h]

theorem adcSample_stopped {s : State} (raw : BitVec 12) (err : Bool) (h : s.cs.adc_run = false) :
    adcSample raw err s = s := by
  simp [adcSample, h]

end Sys2Proof.Machine

open Sys2Proof Sys2Proof.Machine

/-- Settles O4: the step runs the event taken, a decoded command runs after its echo, and the echo is one log line or
nothing, as `cmd_echo` says. -/
theorem stepRunsTheNextCommand : Obligations.StepRunsTheNextCommand := by
  intro s w rest i hin hdec
  have hstep : step s = exec i (echo w { s with inputs := rest }) :=
    (step_cons hin).trans (runEvent_cmd_of_decode hdec)
  constructor
  · exact fun hoff => hstep.trans (congrArg (exec i) (echo_off w hoff))
  · exact fun hon => hstep.trans (congrArg (exec i) (echo_on w hon))

/-- Settles O7, event by event: each clause is the step that takes the event, and the events that are not enabled leave the
state as the stopped bit engine and the stopped ADC do. -/
theorem eventSteps : Obligations.EventSteps := by
  intro s rest
  refine ⟨?uart, ?tick, ?bitEnd, ?bitEndStopped, ?adcStopped, ?noEvent⟩
  case uart => exact fun _ hin => step_cons hin
  case tick => exact step_cons
  case bitEnd => exact fun hin _ => step_cons hin
  case bitEndStopped =>
    intro hin hrun
    exact (step_cons hin).trans (congrArg Host.Outcome.next (bitEnd_stopped hrun))
  case adcStopped =>
    intro raw err hin hrun
    exact (step_cons hin).trans (congrArg Host.Outcome.next (adcSample_stopped raw err hrun))
  case noEvent => exact step_nil

end

section
/-! What every event keeps (10_state.md R44, R45): the parameters, and the invariant where it held. One lemma per operation,
one per command, then the bit-end interrupt, and from them the step. -/

namespace Sys2Proof.Machine

/-- The state `t` after `s` has the parameters of `s`, and meets the invariant if `s` did. -/
structure Keeps (s t : State) : Prop where
  cfg : t.cfg = s.cfg
  inv : Invariant s → Invariant t

theorem Keeps.refl (s : State) : Keeps s s := ⟨rfl, id⟩

theorem Keeps.trans {s t u : State} (h1 : Keeps s t) (h2 : Keeps t u) : Keeps s u :=
  ⟨h2.cfg.trans h1.cfg, h2.inv ∘ h1.inv⟩

/-! ### Registers that the invariant does not read -/

theorem inputs_keeps (s : State) (l : List Event) : Keeps s { s with inputs := l } :=
  ⟨rfl, fun h => h.congr_fields rfl rfl rfl rfl rfl rfl rfl rfl rfl rfl⟩

theorem trace_keeps (s : State) (tr : Trace) : Keeps s { s with trace := tr } :=
  ⟨rfl, fun h => h.congr_fields rfl rfl rfl rfl rfl rfl rfl rfl rfl rfl⟩

theorem tick_keeps (s : State) : Keeps s (tick s) :=
  ⟨rfl, fun h => h.congr_fields rfl rfl rfl rfl rfl rfl rfl rfl rfl rfl⟩

theorem uartByte_keeps (b : Byte) (s : State) : Keeps s (uartByte b s) :=
  ⟨rfl, fun h => h.congr_fields rfl rfl rfl rfl rfl rfl rfl rfl rfl rfl⟩

theorem uartReset_keeps (s : State) : Keeps s (uartReset s) :=
  ⟨rfl, fun h => h.congr_fields rfl rfl rfl rfl rfl rfl rfl rfl rfl rfl⟩

theorem clearCh2_keeps (s : State) : Keeps s (clearCh2 s) :=
  ⟨rfl, fun h => h.congr_fields rfl rfl rfl rfl rfl rfl rfl rfl rfl rfl⟩

theorem respond_keeps (r : Response) (s : State) : Keeps s (respond r s) := ⟨rfl, fun h => respond_inv h r⟩

theorem respondOk_keeps (s : State) : Keeps s (respondOk s) := respond_keeps _ s

theorem raiseError_keeps (k : CmdError) (s : State) : Keeps s (raiseError k s) := respond_keeps _ s

theorem codecAnswer_keeps (o : CodecOut) (s : State) : Keeps s (codecAnswer o s) := ⟨rfl, fun h => codecAnswer_inv h o⟩

theorem echo_keeps (w : BitVec 48) (s : State) : Keeps s (echo w s) := ⟨logWhen_cfg .., fun h => logWhen_inv h _ _⟩

/-! ### RailCom messages -/

theorem recordMsg_cfg (m : RcMsg) (s : State) : (recordMsg m s).cfg = s.cfg := by
  cases m with
  | ahi | alo =>
    simp only [recordMsg]
    split <;> rfl
  | _ => rfl

theorem runMsg_keeps (m : RcMsg) (s : State) : Keeps s (runMsg m s) :=
  ⟨(deliverLast_kept ..).1.trans (recordMsg_cfg m s), fun h => runMsg_inv h m⟩

theorem execRcAck2021_keeps (s : State) : ∃ t, execRcAck2021 s = .next t ∧ Keeps s t := by
  refine ⟨_, rfl, ?_⟩
  split
  · exact runMsg_keeps ..
  · exact clearCh2_keeps s

theorem execRcBsy_keeps (s : State) : ∃ t, execRcBsy s = .next t ∧ Keeps s t := by
  refine ⟨_, rfl, ?_⟩
  split
  · exact runMsg_keeps ..
  · exact clearCh2_keeps s

/-! ### The sample FIFO (R41, R281) -/

theorem flagNewest_length (l : List (BitVec 12 × Bool)) : (flagNewest l).length = l.length := by
  unfold flagNewest
  split
  · rename_i h
    rw [List.getLast?_eq_none_iff.1 h]
  · rename_i e h
    have hne : l ≠ [] := fun hl => by simp [hl] at h
    simp [Nat.sub_add_cancel (List.length_pos_of_ne_nil hne)]

/-- Another sample FIFO of admissible size, under a running ADC. -/
theorem Invariant.of_adcFifo {s : State} (h : Invariant s) (hr : s.cs.adc_run = true) {l : List (BitVec 12 × Bool)}
    (hl : l.length ≤ s.cfg.adc_fifo_depth) : Invariant { s with cs := { s.cs with adc_fifo := l } } := by
  have hoff : s.mode ≠ .Off := fun hm => by
    rw [h.adc, h.run.1 hm] at hr
    cases hr
  obtain ⟨slotA, slotB, refA, refB, refLast, preOps, preSvc, railcom, pos, fromCutout⟩ := h.engine
  obtain ⟨op, busy, count, step, armed, seen, idle⟩ := h.service
  obtain ⟨thr, ring, head, -, raw, cnt⟩ := h.sizes
  exact ⟨h.cfg, h.run, h.adc, fun hm => absurd hm hoff,
    ⟨slotA, slotB, refA, refB, refLast, preOps, preSvc, railcom, pos, fromCutout⟩,
    ⟨op, busy, count, step, armed, seen, idle⟩, ⟨h.list.sorted, h.list.holds, h.list.cursor⟩, h.throttles,
    ⟨thr, ring, head, hl, raw, cnt⟩⟩

theorem adcSample_keeps (raw : BitVec 12) (err : Bool) (s : State) : Keeps s (adcSample raw err s) := by
  unfold adcSample
  split
  · rename_i hr
    split
    · rename_i hroom
      exact ⟨rfl, fun h => h.of_adcFifo hr (by simpa using hroom)⟩
    · exact ⟨rfl, fun h => h.of_adcFifo hr ((flagNewest_length _).trans_le h.sizes.fifo)⟩
  · exact .refl s

/-! ### Mode commands (R323 to R325) -/

theorem execSetModeOff_keeps (s : State) : ∃ t, execSetModeOff s = .next t ∧ Keeps s t := by
  refine ⟨_, rfl, .trans ?_ (respondOk_keeps _)⟩
  split
  · exact ⟨modeOffEffects_cfg _, fun h => terminal_inv h .Error 0#8 s.svc.svc_val (by decide)⟩
  · rename_i hm
    exact ⟨modeOffEffects_cfg s, fun h => modeOffEffects_inv h (by simp [hm])⟩
  · rename_i hm
    exact ⟨modeOffEffects_cfg s, fun h => modeOffEffects_inv h (by simp [hm])⟩

/-- A sequencer at rest in Off is at rest in Ops (R45 clause 3). -/
theorem ServiceOk.off_ops {s : State} (h : ServiceOk s) (hm : s.mode = .Off) : ServiceOk { s with mode := .Ops } := by
  have hns : s.mode ≠ .Service := by simp [hm]
  have hop := mt h.op.2 hns
  have hbusy := mt h.busy.2 hns
  have harmed := mt h.armed.1 fun ha => hns ha.1
  exact ⟨by simpa using hop, by simpa using hbusy, nofun, h.step, by simpa using harmed, h.seen, fun _ => h.idle hns⟩

theorem startOps_inv {s : State} (h : Invariant s) (hm : s.mode = .Off) :
    Invariant { startOps (adcStart s) with mode := .Ops } :=
  start_inv h OPS_PREAMBLE_BITS IDLE idle_ok .Ops s.svc (by decide) (fun _ => rfl) nofun (by decide)
    (h.service.off_ops hm)

theorem execSetModeOps_keeps (s : State) : ∃ t, execSetModeOps s = .next t ∧ Keeps s t := by
  refine ⟨_, rfl, ?_⟩
  split
  · exact respondOk_keeps s
  · exact raiseError_keeps _ s
  · rename_i hm
    exact ⟨rfl, fun h => respond_inv (startOps_inv (restartEffects_inv h) hm) _⟩

/-! ### Service CV commands (R326 to R330) -/

theorem svcBegin_cfg (op : SvcOp) (cv : BitVec 16) (bit : BitVec 3) (bv : Bool) (val : Byte) (n : Nat) (s : State) :
    (svcBegin op cv bit bv val n s).cfg = s.cfg := by
  simp only [svcBegin, startSvc, start_cfg, adcStart_cfg]
  split
  · exact modeOffEffects_cfg s
  · rfl

theorem svcCommand_cfg {ok : Bool} {f : State → State} {s : State} (hf : (f s).cfg = s.cfg) :
    (svcCommand ok f s).cfg = s.cfg := by
  unfold svcCommand
  split
  · split
    · rfl
    · exact hf
    · exact hf
  · rfl

/-- A service command that begins an operation at one of its blocks. -/
theorem svcCommand_svcBegin_keeps (ok : Bool) (op : SvcOp) (cv : BitVec 16) (bit : BitVec 3) (bv : Bool) (val : Byte)
    {n : Nat} (s : State) (hop : op ≠ .None) (hn : StepOk op n) :
    Keeps s (svcCommand ok (svcBegin op cv bit bv val n) s) :=
  ⟨svcCommand_cfg (svcBegin_cfg ..), fun h => svcCommand_inv h _ _ fun hm => svcBegin_inv h hm _ _ _ _ _ _ hop hn⟩

/-! ### Throttle management (R340 to R343) and verbosity (R345) -/

theorem withThrottle_cfg {a : BitVec 16} {ok : Bool} {f : Nat → Throttle → State → State} {s : State}
    (hf : ∀ i t, (f i t s).cfg = s.cfg) : (withThrottle a ok f s).cfg = s.cfg := by
  unfold withThrottle
  split
  · split
    · rfl
    · exact hf ..
  · rfl

theorem execCreateThrottle_keeps (a : BitVec 16) (s : State) : ∃ t, execCreateThrottle a s = .next t ∧ Keeps s t := by
  refine ⟨_, rfl, ?_⟩
  split
  · rename_i ha
    have ha' : 1 ≤ (a.setWidth 14).toNat ∧ (a.setWidth 14).toNat ≤ 10239 := by
      rw [addrOk_toNat ha]
      exact addrOk_iff.1 ha
    dsimp only
    split
    · exact respond_keeps ..
    · rename_i hunknown
      split
      · exact raiseError_keeps ..
      · split
        · exact raiseError_keeps ..
        · rename_i i hfree
          exact ⟨rfl, fun h => respond_inv (restartEffects_inv (create_inv h i _ ha' hunknown hfree (s.draws + 1))) _⟩
  · exact raiseError_keeps ..

theorem execDeleteThrottle_keeps (a : BitVec 16) (s : State) : ∃ t, execDeleteThrottle a s = .next t ∧ Keeps s t :=
  ⟨_, rfl, withThrottle_cfg fun _ _ => rfl, fun h =>
    withThrottle_inv h _ _ _ fun i _ _ _ hi _ => respond_inv (delete_inv h i hi) _⟩

theorem execFindThrottle_keeps (a : BitVec 16) (s : State) : ∃ t, execFindThrottle a s = .next t ∧ Keeps s t :=
  ⟨_, rfl, withThrottle_cfg fun _ _ => rfl, fun h => withThrottle_inv h _ _ _ fun _ _ _ _ _ _ => respond_inv h _⟩

theorem execRestartThrottles_keeps (s : State) : ∃ t, execRestartThrottles s = .next t ∧ Keeps s t :=
  ⟨_, rfl, rfl, fun h => respond_inv (restartEffects_inv h) _⟩

theorem execSetVerbosity_keeps (which : BitVec 16) (on : Bool) (s : State) :
    ∃ t, execSetVerbosity which on s = .next t ∧ Keeps s t := by
  refine ⟨_, rfl, ?_⟩
  split
  · exact (trace_keeps s _).trans (respondOk_keeps _)
  · exact raiseError_keeps ..

/-! ### Throttle commands (R375 to R386) -/

theorem execThrSetSpeed_keeps (a : BitVec 16) (v : Byte) (s : State) :
    ∃ t, execThrSetSpeed a v s = .next t ∧ Keeps s t := by
  refine ⟨_, rfl, withThrottle_cfg fun _ _ => rfl, fun h => withThrottle_inv h _ _ _ fun i _ _ hv _ _ => ?_⟩
  refine respond_inv (h.of_setThr i (setSpeed (speedArg v) (thrAt s i)) rfl rfl rfl fun hvalid => ?_) _
  exact setSpeed_ok (throttleOk_at h hvalid) v (by simpa using hv)

theorem execThrSetFunction_keeps (a n : BitVec 16) (on : Bool) (s : State) :
    ∃ t, execThrSetFunction a n on s = .next t ∧ Keeps s t := by
  refine ⟨_, rfl, withThrottle_cfg fun _ _ => rfl, fun h => withThrottle_inv h _ _ _ fun i _ _ hn _ _ => ?_⟩
  refine respond_inv (h.of_setThr i (setFunction s.cfg n.toNat on (thrAt s i)) rfl rfl rfl fun hvalid => ?_) _
  exact setFunction_ok (throttleOk_at h hvalid) n.toNat on (by simpa using hn)

theorem execThrSetAddress_keeps (a new : BitVec 16) (s : State) :
    ∃ t, execThrSetAddress a new s = .next t ∧ Keeps s t := by
  refine ⟨_, rfl, withThrottle_cfg fun i t => ?_, fun h => withThrottle_inv h _ _ _ fun i _ _ hnew hi hvalid => ?_⟩
  · split <;> rfl
  · split
    · exact respond_inv h _
    · rename_i hrefused
      obtain ⟨-, hfree⟩ := Bool.or_eq_false_iff.1 (Bool.eq_false_iff.2 hrefused)
      have hrange : 1 ≤ (new.setWidth 14).toNat ∧ (new.setWidth 14).toNat ≤ 10239 := by
        rw [addrOk_toNat hnew]
        exact addrOk_iff.1 hnew
      exact respond_inv (setAddress_inv h i hi hvalid _ hrange hfree) _

theorem opsCommand_keeps (a cv : BitVec 16) (k : OpsCounter) {pkt : Throttle → DccPacket} (wr : Byte) (s : State)
    (hp : ∀ t, (pkt t).Ok) : Keeps s (opsCommand a cv k pkt wr s) := by
  refine ⟨withThrottle_cfg fun i t => ?_, fun h => opsCommand_inv h _ _ _ _ _ hp⟩
  split <;> rfl

theorem execThrOpsDone_keeps (a : BitVec 16) (s : State) : ∃ t, execThrOpsDone a s = .next t ∧ Keeps s t :=
  ⟨_, rfl, withThrottle_cfg fun _ _ => rfl, fun h => withThrottle_inv h _ _ _ fun _ _ _ _ _ _ => respond_inv h _⟩

/-! ### Every instruction -/

/-- Every instruction goes on in every state (R410), and keeps the parameters and the invariant. A packet form, the last
case, answers in the codec's return port only (R140). -/
theorem exec_keeps (i : Instr) (s : State) : ∃ t, exec i s = .next t ∧ Keeps s t := by
  cases i with
  | rcAck | rcNak | rcPom _ | rcAhi _ | rcAlo _ | rcExt _ | rcDyn _ _ | rcXpom _ _ _ _ _ =>
    exact ⟨_, rfl, runMsg_keeps ..⟩
  | rcAck2021 => exact execRcAck2021_keeps s
  | rcBsy => exact execRcBsy_keeps s
  | setModeOff => exact execSetModeOff_keeps s
  | setModeOps => exact execSetModeOps_keeps s
  | writeCv cv v => exact ⟨_, rfl, svcCommand_svcBegin_keeps _ _ _ _ _ _ _ (by decide) rfl⟩
  | writeBit cv b v => exact ⟨_, rfl, svcCommand_svcBegin_keeps _ _ _ _ _ _ _ (by decide) rfl⟩
  | readCv cv => exact ⟨_, rfl, svcCommand_svcBegin_keeps _ _ _ _ _ _ _ (by decide) (by decide : 7 ≤ 8)⟩
  | readBit cv b => exact ⟨_, rfl, svcCommand_svcBegin_keeps _ _ _ _ _ _ _ (by decide) (by decide : 0 ≤ 1)⟩
  | svcDone => exact ⟨_, rfl, respond_keeps ..⟩
  | createThrottle a => exact execCreateThrottle_keeps a s
  | deleteThrottle a => exact execDeleteThrottle_keeps a s
  | findThrottle a => exact execFindThrottle_keeps a s
  | restartThrottles => exact execRestartThrottles_keeps s
  | thrSetSpeed a v => exact execThrSetSpeed_keeps a v s
  | thrSetFunction a n on => exact execThrSetFunction_keeps a n on s
  | thrSetAddress a new => exact execThrSetAddress_keeps a new s
  | thrReadCv a cv => exact ⟨_, rfl, opsCommand_keeps _ _ _ _ _ fun _ => opsVerifyPacket_ok ..⟩
  | thrWriteCv a cv v => exact ⟨_, rfl, opsCommand_keeps _ _ _ _ _ fun _ => opsWritePacket_ok ..⟩
  | thrWriteBit a cv v b => exact ⟨_, rfl, opsCommand_keeps _ _ _ _ _ fun _ => opsBitPacket_ok ..⟩
  | thrOpsDone a => exact execThrOpsDone_keeps a s
  | setVerbosity which on => exact execSetVerbosity_keeps which on s
  | _ => exact ⟨_, rfl, codecAnswer_keeps ..⟩

/-! ### The bit-end interrupt (R205 to R209) -/

theorem railcomDeliver_cfg (s : State) : (railcomDeliver s).cfg = s.cfg := by
  obtain ⟨_, _, _, he, -⟩ := railcomDeliver_frame s
  rw [he]

theorem railcomDeliver_bs (s : State) : (railcomDeliver s).bs = s.bs := by
  obtain ⟨_, _, _, he, -⟩ := railcomDeliver_frame s
  rw [he]

theorem pullNext_cfg (s : State) : (pullNext s).cfg = s.cfg := by
  rw [(pullNext_frame s).1]
  exact (pullPacket_kept s).1

theorem effects_cfg (s : State) : (effects s).cfg = s.cfg := by
  unfold effects
  split
  · rfl
  split
  · exact railcomDeliver_cfg s
  split
  · exact pullNext_cfg s
  split <;> rfl

theorem bitEnd_cfg (s : State) : (bitEnd s).cfg = s.cfg := by
  cases hr : s.bs.bs_run with
  | false => rw [bitEnd_stopped hr]
  | true =>
    rw [bitEnd_running hr, drawLatency_cfg, (advanceFrom_frame ..).1]
    exact (effects_cfg _).trans (adcDrain_kept s).1

/-- The advance after an effect that keeps the invariant, the preamble, the cutout bit and the packet on the wire. -/
theorem advanceFrom_inv_of_curPkt {s t : State} (h : Invariant s) (hr : s.bs.bs_run = true) (ht : Invariant t)
    (hc : t.cfg = s.cfg) (hp : t.bs.preamble_bits = s.bs.preamble_bits)
    (he : t.bs.railcom_enabled = s.bs.railcom_enabled) (hpkt : t.bs.curPkt = s.bs.curPkt) :
    Invariant (advanceFrom s.bs t) :=
  advanceFrom_inv h ht.upToPos (fun _ => ht) hr fun _ => ⟨hp, he, hc, .inl hpkt⟩

/-- The effect of a bit end and the advance after it, by the five cases of R205. -/
theorem advanceFrom_effects_inv {s : State} (h : Invariant s) (hr : s.bs.bs_run = true) :
    Invariant (advanceFrom s.bs (effects s)) := by
  unfold effects
  split
  · exact advanceFrom_inv_of_curPkt h hr ((uartReset_keeps s).inv h) rfl rfl rfl rfl
  split
  · have hbs := railcomDeliver_bs s
    exact advanceFrom_inv_of_curPkt h hr (railcomDeliver_inv h) (railcomDeliver_cfg s) (by rw [hbs]) (by rw [hbs])
      (by rw [hbs])
  split
  · obtain ⟨-, hslot, hcur, -, -, -, -, hp, he, -⟩ := pullNext_engine hr
    have hpkt : (pullNext s).bs.curPkt = s.bs.curPkt := by simp only [Bitstream.curPkt, hcur, hslot]
    exact advanceFrom_inv_of_curPkt h hr (pullNext_inv h) (pullNext_cfg s) hp he hpkt
  split
  · rename_i hstop
    obtain ⟨i, hpos, hlast⟩ : ∃ i, s.bs.pos = .trail i ∧ s.bs.curPkt.len ≤ i + 1 := by
      unfold atStopBit at hstop
      split at hstop
      · exact ⟨_, ‹_›, of_decide_eq_true hstop⟩
      all_goals cases hstop
    refine advanceFrom_inv h (handOver_upToPos h) (fun hb => ?_) hr fun _ => ⟨rfl, rfl, rfl, .inr ⟨i, hpos, hlast⟩⟩
    rw [handOver_bs] at hb
    exact absurd (hr.symm.trans hb) (by decide)
  · exact advanceFrom_inv_of_curPkt h hr h rfl rfl rfl rfl

theorem bitEnd_inv {s : State} (h : Invariant s) : Invariant (bitEnd s) := by
  cases hr : s.bs.bs_run with
  | false =>
    rw [bitEnd_stopped hr]
    exact h
  | true =>
    have hbs := (adcDrain_kept s).2.2.1
    rw [bitEnd_running hr, ← hbs]
    exact drawLatency_inv (advanceFrom_effects_inv (adcDrain_inv h) (by rw [hbs, hr]))

theorem bitEnd_keeps (s : State) : Keeps s (bitEnd s) := ⟨bitEnd_cfg s, bitEnd_inv⟩

/-! ### Every event, and the step -/

theorem runEvent_keeps (e : Event) (s : State) : ∃ t, runEvent exec e s = .next t ∧ Keeps s t := by
  cases e with
  | cmd w =>
    simp only [runEvent]
    split
    · rename_i i _
      obtain ⟨t, hexec, hk⟩ := exec_keeps i (echo w s)
      exact ⟨t, hexec, (echo_keeps w s).trans hk⟩
    · exact ⟨_, rfl, (echo_keeps w s).trans (raiseError_keeps ..)⟩
  | bitEnd => exact ⟨_, rfl, bitEnd_keeps s⟩
  | adcSample raw err => exact ⟨_, rfl, adcSample_keeps raw err s⟩
  | uartByte b => exact ⟨_, rfl, uartByte_keeps b s⟩
  | tick => exact ⟨_, rfl, tick_keeps s⟩
  | codec svc bytes =>
    simp only [runEvent]
    split
    · exact exec_keeps _ s
    · exact ⟨_, rfl, codecAnswer_keeps ..⟩

/-- What one step can do: it goes on, and keeps the parameters and the invariant. -/
theorem step_keeps (s : State) : ∃ t, step s = .next t ∧ Keeps s t := by
  cases hin : s.inputs with
  | nil => exact ⟨s, step_nil hin, .refl s⟩
  | cons e rest =>
    obtain ⟨t, hrun, hk⟩ := runEvent_keeps e { s with inputs := rest }
    exact ⟨t, (step_cons hin).trans hrun, (inputs_keeps s rest).trans hk⟩

end Sys2Proof.Machine

open Sys2Proof Sys2Proof.Machine

/-- Settles O59: `step_keeps`, for the one state that the step answers. -/
theorem stepKeepsInvariant : Obligations.StepKeepsInvariant := by
  intro s t h hstep
  obtain ⟨u, hu, hk⟩ := step_keeps s
  obtain rfl : u = t := by
    rw [hu] at hstep
    exact Host.Outcome.next.inj hstep
  exact hk.inv h

/-- Settles O8: `step_keeps`, whose premise-free half is the parameters. -/
theorem stepGoesOnAndKeepsTheParameters : Obligations.StepGoesOnAndKeepsTheParameters := by
  intro s
  obtain ⟨t, hstep, hk⟩ := step_keeps s
  exact ⟨t, hstep, hk.cfg⟩

end

section
/-! The end of a cutout in the whole bit-end step (42_railcom.md R242, R249; 41_bitstream.md R206). -/

namespace Sys2Proof.Machine

/-- The frame registers after the delivery hold the frame and its parse (R37, R242, R249). -/
theorem railcomDeliver_rc (s : State) : (railcomDeliver s).rc =
    { (frameStart s).rc with
      rc_ch1 := (rcParse s.cfg.railcom_version (frameBytes s)).1
      rc_ch2 := (rcParse s.cfg.railcom_version (frameBytes s)).2 } := by
  simp only [railcomDeliver, logWhen_rc]
  exact (deliverLast_kept ..).2.2

/-- With no live reference the delivery leaves every throttle alone (R206). -/
theorem railcomDeliver_thr_of_dead {s : State} (h : ∀ r, s.bs.last_ref = some r → live s r = false) :
    (railcomDeliver s).thr = s.thr := by
  simp only [railcomDeliver, logWhen_thr]
  rw [deliverLast_dead]
  · exact frameStart_thr s
  · exact fun r hr => (live_congr (frameStart_thr s) r).trans (h r hr)

/-- The bit end after a cutout leaves the frame registers and the table as the delivery does (R205, R206). -/
theorem bitEnd_frameEnd {s : State} (hrun : s.bs.bs_run = true) (hrc : s.bs.railcom_enabled = true)
    (hf : s.bs.from_cutout = true) (hp : s.bs.pos = .preamble s.bs.preamble_bits) :
    (bitEnd s).rc = (railcomDeliver (adcDrain s)).rc ∧ (bitEnd s).thr = (railcomDeliver (adcDrain s)).thr := by
  have hbs := (adcDrain_kept s).2.2.1
  have heff : effects (adcDrain s) = railcomDeliver (adcDrain s) := by
    apply effects_frameEnd <;> rw [hbs] <;> assumption
  rw [bitEnd_running hrun, heff, drawLatency_rc, drawLatency_thr, (advanceFrom_frame ..).1]
  exact ⟨rfl, rfl⟩

end Sys2Proof.Machine

open Sys2Proof Sys2Proof.Machine

/-- Settles O29: the step is the delivery between the drain of the samples and the advance, and neither of these touches the
registers of the claim. -/
theorem staleReferenceHearsNothing : Obligations.StaleReferenceHearsNothing := by
  intro s hrun hrc hf hp
  obtain ⟨hcfg, -, hbs, hthr, -, -, hrcKept, -⟩ := adcDrain_kept s
  obtain ⟨hrcEnd, hthrEnd⟩ := bitEnd_frameEnd hrun hrc hf hp
  constructor
  · rw [hrcEnd, railcomDeliver_rc]
    simp only [frameStart, frameBytes, hrcKept, hcfg, RC_MAX_BYTES]
  · intro hstale
    rw [hthrEnd, railcomDeliver_thr_of_dead, hthr]
    intro r hr
    rw [hbs] at hr
    rw [live_congr hthr]
    simpa [live] using hstale r hr

end

section
/-! The drain of the sample FIFO (43_current_sensor.md R283 to R290), as a fold over its entries. -/

namespace Sys2Proof.Machine

/-- The ring and its head after the entries of `l`, oldest first (R284). -/
def ringAfter (n : Nat) (l : List (BitVec 12 × Bool)) (q : List (BitVec 12) × Nat) : List (BitVec 12) × Nat :=
  l.foldl (fun q e => (q.1.set q.2 e.1, (q.2 + 1) % n)) q

/-- The short average in milliamps after the entries of `l` have been written (R285, R287). -/
def shortMAAfter (n : Nat) (cs : Sensor) (l : List (BitVec 12 × Bool)) : Nat :=
  toMA (shortAvgRaw n { cs with
    cs_ring := (ringAfter n l (cs.cs_ring, cs.cs_head)).1, cs_head := (ringAfter n l (cs.cs_ring, cs.cs_head)).2 })

/-- What holds after one or more of the entries `e :: l` holds after the first, or after `e` and one or more of `l`. -/
theorem exists_take_cons {α : Type} (P : List α → Prop) (e : α) (l : List α) :
    (∃ k, 1 ≤ k ∧ k ≤ (e :: l).length ∧ P ((e :: l).take k)) ↔
      P [e] ∨ ∃ k, 1 ≤ k ∧ k ≤ l.length ∧ P (e :: l.take k) := by
  constructor
  · rintro ⟨k, h1, hk, hP⟩
    match k, h1 with
    | 1, _ => exact .inl hP
    | k + 2, _ => exact .inr ⟨k + 1, by omega, by simpa using hk, hP⟩
  · rintro (hP | ⟨k, -, hk, hP⟩)
    · exact ⟨1, Nat.le_refl 1, by simp, hP⟩
    · exact ⟨k + 1, by omega, by simpa using hk, hP⟩

/-- What one drained entry leaves of the registers that the next comparison reads (R283, R284). -/
theorem drainOne_kept (s : State) (e : BitVec 12 × Bool) : (drainOne s e).cfg = s.cfg ∧
    (drainOne s e).svc.ack_armed = s.svc.ack_armed ∧ (drainOne s e).svc.ack_threshold_mA = s.svc.ack_threshold_mA ∧
    (drainOne s e).cs.cs_ring = s.cs.cs_ring.set s.cs.cs_head e.1 ∧
    (drainOne s e).cs.cs_head = (s.cs.cs_head + 1) % s.cfg.long_avg_n := by
  obtain ⟨b, c, d, he, -⟩ := drainOne_frame s e
  rw [he]
  exact ⟨rfl, rfl, rfl, rfl, rfl⟩

/-- The drain of the entries `l` as one update: the ring, the count of flagged entries, and of the rest only `ack_seen`, the
capture log and the draws, the last two by an active capture log only (R283, R284, R292). -/
theorem foldl_drainOne_frame (l : List (BitVec 12 × Bool)) (s : State) : ∃ b c d,
    l.foldl drainOne s = { s with
      cs := { s.cs with
        cs_ring := (ringAfter s.cfg.long_avg_n l (s.cs.cs_ring, s.cs.cs_head)).1
        cs_head := (ringAfter s.cfg.long_avg_n l (s.cs.cs_ring, s.cs.cs_head)).2
        adc_err_cnt := s.cs.adc_err_cnt + (l.filter (fun e => e.2)).length, cap_log := c }
      svc := { s.svc with ack_seen := b }
      draws := d } ∧
    (s.cfg.caplog_active = false → c = s.cs.cap_log ∧ d = s.draws) := by
  induction l generalizing s with
  | nil => exact ⟨s.svc.ack_seen, s.cs.cap_log, s.draws, rfl, fun _ => ⟨rfl, rfl⟩⟩
  | cons e l ih =>
    obtain ⟨b, c, d, hone, -, -, hcap⟩ := drainOne_frame s e
    obtain ⟨b', c', d', hrest, hcap'⟩ := ih (drainOne s e)
    have hcount : s.cs.adc_err_cnt + (if e.2 then 1 else 0) + (l.filter (fun e => e.2)).length =
        s.cs.adc_err_cnt + ((e :: l).filter (fun e => e.2)).length := by
      rw [List.filter_cons]
      split
      · rw [List.length_cons]
        omega
      · rfl
    rw [hone] at hrest hcap'
    refine ⟨b', c', d', ?_, fun hoff => ?_⟩
    · rw [List.foldl_cons, hone, hrest, ← hcount]
      rfl
    · obtain ⟨hc, hd⟩ := hcap hoff
      obtain ⟨hc', hd'⟩ := hcap' hoff
      exact ⟨hc'.trans hc, hd'.trans hd⟩

/-- When the drain of the entries `l` leaves `ack_seen` set (R283, R290). -/
theorem foldl_drainOne_seen (l : List (BitVec 12 × Bool)) (s : State) : (l.foldl drainOne s).svc.ack_seen = true ↔
    s.svc.ack_seen = true ∨ (s.svc.ack_armed = true ∧ ∃ k, 1 ≤ k ∧ k ≤ l.length ∧
      s.svc.ack_threshold_mA ≤ shortMAAfter s.cfg.long_avg_n s.cs (l.take k)) := by
  induction l generalizing s with
  | nil =>
    refine ⟨.inl, fun h => h.resolve_right ?_⟩
    rintro ⟨-, k, h1, h0, -⟩
    exact absurd (h1.trans h0) (by decide)
  | cons e l ih =>
    obtain ⟨hcfg, harmed, hthreshold, hring, hhead⟩ := drainOne_kept s e
    have hfirst : toMA (shortAvgRaw s.cfg.long_avg_n (ringWrite s.cfg.long_avg_n e.1 s.cs)) =
        shortMAAfter s.cfg.long_avg_n s.cs [e] := congrArg toMA (shortAvgRaw_congr _ rfl rfl)
    have hlater : ∀ m, shortMAAfter s.cfg.long_avg_n (drainOne s e).cs m =
        shortMAAfter s.cfg.long_avg_n s.cs (e :: m) := fun m => by
      simp only [shortMAAfter, ringAfter, List.foldl_cons, hring, hhead]
      exact congrArg toMA (shortAvgRaw_congr _ rfl rfl)
    rw [List.foldl_cons, ih, drainOne_seen, hcfg, harmed, hthreshold, hfirst]
    simp only [hlater]
    rw [exists_take_cons (fun m => s.svc.ack_threshold_mA ≤ shortMAAfter s.cfg.long_avg_n s.cs m), or_assoc,
      ← and_or_left]

end Sys2Proof.Machine

open Sys2Proof Sys2Proof.Machine

/-- Settles O36, by induction on the entries of the FIFO: the drain is the fold over them, and then the FIFO is empty. -/
theorem drainWritesTheRing : Obligations.DrainWritesTheRing := by
  intro s
  have hseen := foldl_drainOne_seen s.cs.adc_fifo s
  obtain ⟨b, c, d, hfold, hcap⟩ := foldl_drainOne_frame s.cs.adc_fifo s
  rw [hfold] at hseen
  dsimp only
  rw [List.take_length, adcDrain, hfold]
  exact ⟨rfl, hseen, hcap⟩

end

section
/-! The invariant at reset (10_state.md R45, 70_reset_and_hazards.md R451). -/

namespace Sys2Proof.Machine

theorem thrAt_resetWith (c : Config) (i : Nat) : thrAt (State.resetWith c) i = Throttle.reset := by
  by_cases h : i < (State.resetWith c).thr.length
  · exact List.eq_of_mem_replicate (thrAt_mem h)
  · exact thrAt_ge (Nat.le_of_not_lt h)

theorem resetWith_engine (c : Config) : BitEngineOk (State.resetWith c) where
  slotA := idle_ok
  slotB := idle_ok
  refA := nofun
  refB := nofun
  refLast := nofun
  preambleOps := nofun
  preambleSvc := nofun
  railcom := rfl
  pos := nofun
  fromCutout := nofun

theorem resetWith_service (c : Config) : ServiceOk (State.resetWith c) where
  op := iff_of_false nofun (· rfl)
  busy := iff_of_false nofun nofun
  count := nofun
  step := rfl
  armed := iff_of_false nofun nofun
  seen := nofun
  idle _ := ⟨rfl, rfl⟩

/-- No slot is valid at reset, and the list is empty. -/
theorem resetWith_list (c : Config) : ListOk (State.resetWith c) where
  sorted := .nil
  holds i := by
    rw [thrAt_resetWith]
    exact iff_of_false List.not_mem_nil nofun
  cursor := Nat.zero_lt_one

theorem resetWith_sizes {c : Config} (h : c.wf = true) : SizesOk (State.resetWith c) where
  thr := List.length_replicate
  ring := List.length_replicate
  head := (configWf_pos h).1
  fifo := Nat.zero_le _
  raw := List.length_replicate
  count := Nat.zero_le _

end Sys2Proof.Machine

open Sys2Proof Sys2Proof.Machine

/-- Settles O58: the parts of the invariant one by one; no throttle is valid at reset. -/
theorem invariantAtReset : Obligations.InvariantAtReset := by
  intro c hwf
  refine ⟨hwf, iff_of_true rfl rfl, rfl, fun _ => rfl, resetWith_engine c, resetWith_service c, resetWith_list c, ?_,
    resetWith_sizes hwf⟩
  intro t ht hvalid
  obtain ⟨i, -, rfl⟩ := mem_thr.1 ht
  rw [thrAt_resetWith] at hvalid
  cases hvalid

end

section
/-! Function packets there and back (40_packet_codec.md R151, R167, R180 clauses 3 and 4). -/

namespace Sys2Proof.Machine

/-! ### The functions of a group (R62) -/

/-- The lowest function of group `g`. -/
def groupLow (g : Nat) : Nat := [0, 5, 9, 13, 21, 29, 37, 45, 53, 61].getD g 0

/-- How many functions group `g` has. -/
def groupWidth (g : Nat) : Nat := [5, 4, 4, 8, 8, 8, 8, 8, 8, 8].getD g 0

/-- The functions of a group are a run from its lowest one. -/
theorem grp_range {n : Nat} (h : n ≤ 68) : groupLow (grp n) ≤ n ∧ n - groupLow (grp n) < groupWidth (grp n) := by
  have hall : ∀ k < 69, groupLow (grp k) ≤ k ∧ k - groupLow (grp k) < groupWidth (grp k) := by decide
  exact hall n (by omega)

theorem groupWidth_le {g : Nat} (hg : g ≤ 9) : groupWidth g ≤ 8 := by
  have hall : ∀ k < 10, groupWidth k ≤ 8 := by decide
  exact hall g (by omega)

theorem groupBits_eq_extract (f : BitVec 69) : ∀ {g : Nat}, g ≤ 9 →
    groupBits g f = (f.extractLsb' (groupLow g) (groupWidth g)).setWidth 8
  | 0, _ | 1, _ | 2, _ => rfl
  | 3, _ | 4, _ | 5, _ | 6, _ | 7, _ | 8, _ | 9, _ => (BitVec.setWidth_eq _).symm

/-- Bit `n - groupLow g` of a group's byte is function `n` (R62, R167). -/
theorem groupBits_getLsbD (f : BitVec 69) {g n : Nat} (hg : g ≤ 9) (hn : n ≤ 68) (hgrp : grp n = g) :
    (groupBits g f).getLsbD (n - groupLow g) = f.getLsbD n := by
  subst hgrp
  obtain ⟨hlow, hwidth⟩ := grp_range hn
  have hbyte : n - groupLow (grp n) < 8 := hwidth.trans_le (groupWidth_le hg)
  simp only [groupBits_eq_extract f hg, BitVec.getLsbD_setWidth, BitVec.getLsbD_extractLsb', hwidth, hbyte, decide_true,
    Bool.true_and, Nat.add_sub_cancel' hlow]

/-! ### The decoder on the packet of a group -/

/-- The fields of the form of a group are the group's bits: what the narrow forms cut off is zero (R100, R101, R167). -/
theorem mfFields_funcForm (a : Nat) (f : BitVec 69) : ∀ g : Nat,
    mfFields a (funcForm g (groupBits g f)) = .func a (groupBits g f)
  | 0 =>
    have hbits : ∀ x : BitVec 5, (((x.setWidth 8).extractLsb' 1 4 : BitVec 4) ++
        BitVec.ofBool ((x.setWidth 8).getLsbD 0)).setWidth 8 = x.setWidth 8 := by decide
    congrArg (DccFields.func a) (hbits _)
  | 1 | 2 =>
    have hbits : ∀ x : BitVec 4, ((x.setWidth 8).extractLsb' 0 4 : BitVec 4).setWidth 8 = x.setWidth 8 := by decide
    congrArg (DccFields.func a) (hbits _)
  | 3 | 4 | 5 | 6 | 7 | 8 | _ + 9 => rfl

/-- The fields of a function class are those that the decoder of the group answers (R167). -/
theorem decodeFunc_of_decodeFields {c : Config} {p : DccPacket} {g a : Nat} {b : Byte} (hg : g ≤ 9)
    (h : decodeFields c p (funcClass g) = .func a b) : decodeFunc c g p = some (a, b) := by
  have hfields : decodeFields c p (funcClass g) = (decodeFunc c g p).elim .none fun r => .func r.1 r.2 := by
    interval_cases g <;> simp only [decodeFields, funcClass] <;> split <;> simp only [*, Option.elim]
  rw [hfields] at h
  cases hd : decodeFunc c g p with
  | none => simp [hd] at h
  | some r => simpa [hd, Prod.ext_iff] using h

/-- The groups have classes of their own. -/
theorem funcClass_inj {g h : Nat} (hg : g ≤ 9) (hh : h ≤ 9) (he : funcClass g = funcClass h) : g = h := by
  have hall : ∀ i < 10, ∀ j < 10, funcClass i = funcClass j → i = j := by decide
  exact hall g (by omega) h (by omega) he

theorem decodeFunc_of_otherClass {c : Config} {p : DccPacket} {h : Nat} (ht : decodeType c p false ≠ funcClass h) :
    decodeFunc c h p = none := if_neg ht

/-- The class and the fields of the packet that the encoder of group `g` builds (R151, R165, R167). -/
theorem decode_funcPacket {c : Config} (hc : c.wf = true) (g : Nat) {a : Nat} (h1 : 1 ≤ a) (h2 : a ≤ 10239)
    (f : BitVec 69) :
    decodeType c (funcPacket c g (BitVec.ofNat 14 a) f) false = funcClass g ∧
    decodeFields c (funcPacket c g (BitVec.ofNat 14 a) f) (funcClass g) = .func a (groupBits g f) := by
  have hpart := addressPart_ofNat h1 h2
  have hxor := buildPacket_xor (BitVec.ofNat 14 a) (funcInstr c g (groupBits g f))
  rw [← mfFields_funcForm, ← mfClass_funcForm g (groupBits g f), funcPacket]
  rw [funcInstr_form] at hxor ⊢
  exact ⟨(decodeType_form hc hpart _ _ false rfl).trans (if_pos hxor), decodeFields_form hc hpart _ _ hxor⟩

end Sys2Proof.Machine

open Sys2Proof Sys2Proof.Machine

/-- Settles O19: the packet has the class of its group and of no other, and its fields are exactly the bits of the group. -/
theorem functionRoundTrip : Obligations.FunctionRoundTrip := by
  intro c g a f hc hg h1 h2
  obtain ⟨htype, hfields⟩ := decode_funcPacket hc g h1 h2 f
  refine ⟨_, groupBits g f, build_inRange h1 h2 _, decodeFunc_of_decodeFields hg hfields, ?bits, ?others⟩
  case bits => exact fun n hn hgrp => groupBits_getLsbD f hg hn hgrp
  case others =>
    intro h hh hne
    exact decodeFunc_of_otherClass fun he => hne (funcClass_inj hh hg (he.symm.trans htype))

end

section
/-! The words of the instructions read back (30_encoding.md R95 to R131): packets told by their first byte, service-mode
packets, and from them every family. -/

namespace Sys2Proof

/-! ### Packets told by their first byte (R111, R127) -/

/-- The length check of the decoder, for a packet taken apart at its first byte. -/
theorem packetLength_cons (b : Byte) (t : List Byte) :
    ((b :: t).length < 3 ∨ PKT_MAX_LEN < (b :: t).length) ↔ ¬ restOk t = true := by
  simp only [restOk, PKT_MAX_LEN, List.length_cons, Bool.and_eq_true, decide_eq_true_eq]
  omega

theorem accessoryByte_fields (r : BitVec 6) :
    0b10#2 ++ r ≠ 0x00#8 ∧ 0b10#2 ++ r ≠ 0xFF#8 ∧ (0b10#2 ++ r).extractLsb' 6 2 = 0b10#2 ∧
    (0b10#2 ++ r).extractLsb' 0 6 = r := by revert r; decide

theorem reservedE8Byte_fields (r : BitVec 3) :
    0b11101#5 ++ r ≠ 0x00#8 ∧ 0b11101#5 ++ r ≠ 0xFF#8 ∧ (0b11101#5 ++ r).extractLsb' 6 2 ≠ 0b10#2 ∧
    (0b11101#5 ++ r).extractLsb' 3 5 = 0b11101#5 ∧ (0b11101#5 ++ r).extractLsb' 0 3 = r := by revert r; decide

theorem reservedF0Byte_fields (r : BitVec 4) :
    0b1111#4 ++ r ≠ 0x00#8 ∧ (r ≠ 15#4 ↔ 0b1111#4 ++ r ≠ 0xFF#8) ∧ (0b1111#4 ++ r).extractLsb' 6 2 ≠ 0b10#2 ∧
    (0b1111#4 ++ r).extractLsb' 3 5 ≠ 0b11101#5 ∧ (0b1111#4 ++ r).extractLsb' 4 4 = 0b1111#4 ∧
    (0b1111#4 ++ r).extractLsb' 0 4 = r := by revert r; decide

theorem decodePacket_unclassified00 (c : Config) {t : List Byte} (h : restOk t = true) (hreset : t ≠ [0x00#8, 0x00#8]) :
    decodePacket c false (0x00#8 :: t) = .ok (.unclassified00 t) := by
  rw [decodePacket, if_neg (mt (packetLength_cons _ _).1 (not_not_intro h))]
  simp [hreset]

theorem decodePacket_unclassifiedFF (c : Config) {t : List Byte} (h : restOk t = true) (hidle : t ≠ [0x00#8, 0xFF#8]) :
    decodePacket c false (0xFF#8 :: t) = .ok (.unclassifiedFF t) := by
  rw [decodePacket, if_neg (mt (packetLength_cons _ _).1 (not_not_intro h))]
  simp [hidle]

theorem decodePacket_accessory (c : Config) (r : BitVec 6) {t : List Byte} (h : restOk t = true) :
    decodePacket c false ((0b10#2 ++ r) :: t) = .ok (.accessory r t) := by
  obtain ⟨h0, hff, hclass, hr⟩ := accessoryByte_fields r
  simp only [decodePacket, packetLength_cons, h, List.cons.injEq, h0, hff, hclass, hr]
  simp

theorem decodePacket_reservedE8EF (c : Config) (r : BitVec 3) {t : List Byte} (h : restOk t = true) :
    decodePacket c false ((0b11101#5 ++ r) :: t) = .ok (.reservedE8EF r t) := by
  obtain ⟨h0, hff, hacc, hclass, hr⟩ := reservedE8Byte_fields r
  simp only [decodePacket, packetLength_cons, h, List.cons.injEq, h0, hff, hacc, hclass, hr]
  simp

theorem decodePacket_reservedF0FE (c : Config) {r : BitVec 4} (hne : r ≠ 15#4) {t : List Byte} (h : restOk t = true) :
    decodePacket c false ((0b1111#4 ++ r) :: t) = .ok (.reservedF0FE r t) := by
  obtain ⟨h0, hff, hacc, he8, hclass, hr⟩ := reservedF0Byte_fields r
  simp only [decodePacket, packetLength_cons, h, List.cons.injEq, h0, hff.1 hne, hacc, he8, hclass, hr]
  simp

/-! ### Service-mode packets and command words (R110, R130) -/

theorem decode_encode_svcBit (c : Config) (v : BitVec 10) (k d : Bool) (b : BitVec 3) (x : Byte) :
    decode c (encode c (.svcBit v k d b x)) = .ok (.svcBit v k d b x) := by
  rw [encode, decodePacket_svc _ _ _ _ _ _ (by decide)]
  simp only [decodeSvc, cvByte0_operation, cvOf_cvBytes, bitByte_prefix, bitByte_write, bitByte_value, bitByte_index]
  rfl

/-- A command word is decoded by its four fields. -/
theorem decode_cmdWord {c : Config} {op : Byte} {a b : BitVec 16} {x : Byte} {i : Instr}
    (h : ∀ w, cmdOp w = op → cmdA w = a → cmdB w = b → cmdC w = x → decodeCommand w = .ok i) :
    decode c (cmdWord op a b x) = .ok i := by
  obtain ⟨hop, ha, hb, hx⟩ := commandWord_fields op a b x
  exact h _ hop ha hb hx

end Sys2Proof

open Sys2Proof

/-- Settles O2, family by family: the packets behind an address part, the service-mode packets, the packets told by
their first byte, the RailCom messages and last the command words, each by the lemma that reads its word back. -/
theorem decodeInvertsEncode : Obligations.DecodeInvertsEncode := by
  intro c i hc hi
  cases i with
  | reset | idle => rfl
  | speed128S | funcF0S | funcF5S | funcF9S | funcF13S | funcF21S | funcF29S | funcF37S | funcF45S | funcF53S | funcF61S
  | opsCvVerifyS | opsCvWriteS | opsCvBitS => exact decodePacket_short hc hi _ _
  | speed128L | funcF0L | funcF5L | funcF9L | funcF13L | funcF21L | funcF29L | funcF37L | funcF45L | funcF53L | funcF61L
  | opsCvVerifyL | opsCvWriteL | opsCvBitL => exact decodePacket_long hc hi _ _
  | svcVerifyByte | svcWriteByte => simp [encode, decodePacket_svc, decodeSvc]
  | svcBit => exact decode_encode_svcBit ..
  | accessory r rest => exact decodePacket_accessory c r hi
  | reservedE8EF r rest => exact decodePacket_reservedE8EF c r hi
  | reservedF0FE r rest =>
    obtain ⟨hne, hrest⟩ := Bool.and_eq_true_iff.1 hi
    exact decodePacket_reservedF0FE c (bne_iff_ne.1 hne) hrest
  | unclassified00 rest =>
    obtain ⟨hrest, hne⟩ := Bool.and_eq_true_iff.1 hi
    exact decodePacket_unclassified00 c hrest (bne_iff_ne.1 hne)
  | unclassifiedFF rest =>
    obtain ⟨hrest, hne⟩ := Bool.and_eq_true_iff.1 hi
    exact decodePacket_unclassifiedFF c hrest (bne_iff_ne.1 hne)
  | rcAck2021 => exact if_pos ⟨rfl, beq_iff_eq.1 hi⟩
  | rcBsy => exact decodeFrame_msgRaw c .bsy fun _ => beq_iff_eq.1 hi
  | rcAck | rcNak | rcPom | rcAhi | rcAlo | rcExt | rcDyn | rcXpom => exact decodeFrame_msgRaw c _ nofun
  | _ =>
    -- the host commands (R131)
    refine decode_cmdWord fun w hop ha hb hx => ?_
    simp only [decodeCommand, hop, ha, hb, hx, flagByte_bit, bitArg_fields, speedArg_low]
    rfl

end

section
/-! The bytes of a decoded packet from its fields (30_encoding.md R95 to R111, R127): the decoder's branches inverted one
by one. -/

namespace Sys2Proof

/-- The instruction `i` is well-formed, and its word has exactly these bytes. -/
def ReadFrom (c : Config) (bytes : List Byte) (i : Instr) : Prop :=
  Machine.wordBytes (encode c i) = bytes ∧ i.wf c = true

/-! ### Behind an address part (R97) -/

/-- The address that an address part holds. -/
def AddrPart.addr : AddrPart → Nat
  | .short a => a.toNat
  | .long a => a.toNat

/-- The bytes of an address part. -/
def AddrPart.bytes : AddrPart → List Byte
  | .short a => shortBytes a
  | .long a => longBytes a

/-- The address parts in range. -/
def AddrPart.ok : AddrPart → Bool
  | .short a => shortOk a
  | .long a => longOk a

/-- The row of a form behind an address part. -/
def AddrPart.instr : AddrPart → Byte → MfForm → Instr
  | .short a => shortInstr a
  | .long a => longInstr a

theorem AddrPart.encode_instr (c : Config) (p : AddrPart) (x : Byte) (f : MfForm) :
    encode c (p.instr x f) = .packet false (p.bytes ++ mfBytes c f ++ [x]) := by
  cases p <;> cases f <;> rfl

theorem AddrPart.wf_instr (c : Config) (p : AddrPart) (x : Byte) (f : MfForm) : (p.instr x f).wf c = p.ok := by
  cases p <;> cases f <;> rfl

/-- The other direction of `splitAddr_short` and `splitAddr_long`. -/
theorem splitAddr_eq_some {bytes t : List Byte} {p : AddrPart} (h : splitAddr bytes = some (p, t)) :
    bytes = p.bytes ++ t ∧ p.ok = true := by
  unfold splitAddr at h
  split at h
  · cases h
  next b0 t0 =>
    split at h
    next hb =>
      cases h
      obtain ⟨hclass, hne⟩ := hb
      have hbyte := byte_split_17 b0
      rw [hclass] at hbyte
      refine ⟨congrArg (· :: t) hbyte.symm, bne_iff_ne.2 fun h0 => hne ?_⟩
      rw [← hbyte, h0]
      rfl
    split at h
    next hb =>
      split at h
      · cases h
      next b1 t1 =>
        cases h
        obtain ⟨hclass, hrange⟩ := hb
        have hhigh : (b0.extractLsb' 0 6 ++ b1).extractLsb' 8 6 = b0.extractLsb' 0 6 :=
          BitVec.extractLsb'_append_eq_left
        have hlow : (b0.extractLsb' 0 6 ++ b1).extractLsb' 0 8 = b1 := BitVec.extractLsb'_append_eq_right
        have hbyte := byte_split_26 b0
        rw [hclass] at hbyte
        refine ⟨?_, decide_eq_true ((longByte_range _).1 ?_)⟩
        · rw [AddrPart.bytes, longBytes, hhigh, hlow, hbyte]
          rfl
        · rw [hhigh, hbyte]
          exact hrange
    · cases h

theorem decodeMultifunction_eq_ok {c : Config} {bytes : List Byte} {i : Instr}
    (h : decodeMultifunction c bytes = .ok i) :
    ∃ p t f, splitAddr bytes = some (p, t) ∧ decodeMf c t.dropLast = some f ∧ i = p.instr (t.getLastD 0#8) f := by
  unfold decodeMultifunction at h
  split at h
  · cases h
  next p t hsplit =>
    split at h
    · cases h
    next f hf =>
      refine ⟨p, t, f, hsplit, hf, ?_⟩
      cases p <;> cases h <;> rfl

theorem readFrom_of_decodeMultifunction {c : Config} {bytes : List Byte} {i : Instr}
    (h : decodeMultifunction c bytes = .ok i) : ReadFrom c bytes i := by
  obtain ⟨p, t, f, hsplit, hf, rfl⟩ := decodeMultifunction_eq_ok h
  obtain ⟨hbytes, hok⟩ := splitAddr_eq_some hsplit
  have hform := mfBytes_of_decodeMf c _ f hf
  have hne : t ≠ [] := by
    rintro rfl
    exact absurd (mfBytes_length c f).1 (by rw [hform]; decide)
  have hlast : t.dropLast ++ [t.getLastD 0#8] = t := by
    rw [List.getLastD_eq_getLast?, List.getLast?_eq_some_getLast hne]
    exact List.dropLast_append_getLast hne
  refine ⟨?_, (AddrPart.wf_instr ..).trans hok⟩
  rw [AddrPart.encode_instr, Machine.wordBytes, hform, hbytes, List.append_assoc, hlast]

/-! ### Service-mode packets (R110) -/

theorem readFrom_of_decodeSvc (c : Config) {bytes : List Byte} {i : Instr} (hdirect : isSvcDirect bytes = true)
    (h : decodeSvc bytes = .ok i) : ReadFrom c bytes i := by
  unfold decodeSvc at h
  split at h
  next b0 b1 b2 x =>
    obtain ⟨hpre, hop⟩ : b0.extractLsb' 4 4 = 0b0111#4 ∧ b0.extractLsb' 2 2 ≠ 0b00#2 := by
      simpa [isSvcDirect] using hdirect
    have hword {g : BitVec 2} (hg : b0.extractLsb' 2 2 = g) :
        [cvByte0 0b0111#4 g (cvOf b0 b1), cvByte1 (cvOf b0 b1), b2, x] = [b0, b1, b2, x] := by
      rw [cvByte0_cvOf _ _ _ _ hpre hg, (cvBytes_cvOf b0 b1).1]
    split at h
    next hverify =>
      cases h
      exact ⟨hword hverify, rfl⟩
    next hverify =>
    split at h
    next hwrite =>
      cases h
      exact ⟨hword hwrite, rfl⟩
    next hwrite =>
    split at h
    next hbit =>
      cases h
      have hop2 : b0.extractLsb' 2 2 = 0b10#2 := by
        have hall : ∀ z : BitVec 2, z ≠ 0b00#2 → z ≠ 0b01#2 → z ≠ 0b11#2 → z = 0b10#2 := by decide
        exact hall _ hop hverify hwrite
      have hdata : bitByte (b2.getLsbD 4) (b2.getLsbD 3) (b2.extractLsb' 0 3) = b2 := by
        rw [bitByte, ← hbit, byte_split_3113]
      refine ⟨?_, rfl⟩
      rw [encode, Machine.wordBytes, hdata, hword hop2]
    · cases h
  · cases h

/-! ### Every packet -/

/-- Only the byte `FFh` of those that begin `1111` has the field `1111`. -/
theorem reservedF0_field (b : Byte) (hff : b ≠ 0xFF#8) (hb : b.extractLsb' 4 4 = 0b1111#4) :
    b.extractLsb' 0 4 ≠ 15#4 := by
  revert b; decide

theorem readFrom_of_decodePacket {c : Config} {svc : Bool} {bytes : List Byte} {i : Instr}
    (h : decodePacket c svc bytes = .ok i) : ReadFrom c bytes i := by
  unfold decodePacket at h
  split at h
  · cases h
  next hlen =>
  split at h
  next hreset =>
    cases h
    exact ⟨hreset.symm, rfl⟩
  next hreset =>
  split at h
  next hidle =>
    cases h
    exact ⟨hidle.symm, rfl⟩
  next hidle =>
  split at h
  next hsvc => exact readFrom_of_decodeSvc c (Bool.and_eq_true_iff.1 hsvc).2 h
  cases bytes with
  | nil => cases h
  | cons b t =>
  dsimp only at h
  have hrest : restOk t = true := not_not.1 (mt (packetLength_cons b t).2 hlen)
  split at h
  next hb =>
    cases h
    subst hb
    exact ⟨rfl, Bool.and_eq_true_iff.2 ⟨hrest, bne_iff_ne.2 fun ht => hreset (congrArg _ ht)⟩⟩
  split at h
  next hb =>
    cases h
    subst hb
    exact ⟨rfl, Bool.and_eq_true_iff.2 ⟨hrest, bne_iff_ne.2 fun ht => hidle (congrArg _ ht)⟩⟩
  next hff =>
  split at h
  next hb =>
    cases h
    exact ⟨congrArg (· :: t) (hb ▸ byte_split_26 b), hrest⟩
  split at h
  next hb =>
    cases h
    exact ⟨congrArg (· :: t) (hb ▸ byte_split_53 b), hrest⟩
  split at h
  next hb =>
    cases h
    have hfield := bne_iff_ne.2 (reservedF0_field b hff hb)
    exact ⟨congrArg (· :: t) (hb ▸ byte_split_44 b), Bool.and_eq_true_iff.2 ⟨hfield, hrest⟩⟩
  · exact readFrom_of_decodeMultifunction h

end Sys2Proof

open Sys2Proof

/-- Settles O3: each branch of the packet decoder answers an instruction that holds all of the branch's bytes. -/
theorem packetDecodeKeepsEveryBit : Obligations.PacketDecodeKeepsEveryBit :=
  fun _ _ _ _ h => readFrom_of_decodePacket h

end

section
/-! What the codec answers for a packet form (40_packet_codec.md R146 to R180), as a class, fields, a built packet and
the checksum's verdict: one lemma for all forms behind an address part, one for the forms without. -/

namespace Sys2Proof.Machine

/-- A form's answer is the answer for its bytes (R165, R413). -/
theorem formAnswer_eq_answer (c : Config) {w : InstrWord} {bytes : List Byte} (hw : wordBytes w = bytes)
    (hne : bytes ≠ []) (k : DccClass) (f : DccFields) : formAnswer c w k f = answer bytes k f (encodeFields c k f) := by
  subst hw
  have hlen : 1 ≤ (wordBytes w).length := List.length_pos_iff.2 hne
  simp only [formAnswer, answer, absent, checkXor, DccPacket.len, hlen, decide_true, Bool.true_and, beq_iff_eq]

/-- A form behind an address part: its class, its operands, and what the encoder builds from them. -/
theorem exec_form (p : AddrPart) (x : Byte) (f : MfForm) (s : State) {ib : List Byte} (hib : mfBytes s.cfg f = ib) :
    exec (p.instr x f) s = .next { s with
      codec := answer (p.bytes ++ ib ++ [x]) (mfClass f) (mfFields p.addr f)
        (encodeFields s.cfg (mfClass f) (mfFields p.addr f)) } := by
  have hexec : exec (p.instr x f) s =
      .next (codecAnswer (formAnswer s.cfg (encode s.cfg (p.instr x f)) (mfClass f) (mfFields p.addr f)) s) := by
    cases p <;> cases f <;> rfl
  have hbytes : wordBytes (encode s.cfg (p.instr x f)) = p.bytes ++ ib ++ [x] := by
    rw [AddrPart.encode_instr, wordBytes, hib]
  rw [hexec, formAnswer_eq_answer s.cfg hbytes (by simp)]
  rfl

/-- A speed form: the signed speed, and the packet that `enc_speed128` builds (R166). -/
theorem exec_speed (p : AddrPart) (d : Bool) (m : BitVec 7) (x : Byte) (s : State) :
    exec (p.instr x (.speed128 d m)) s = .next { s with
      codec := answer (p.bytes ++ [0x3F#8, BitVec.ofBool d ++ m] ++ [x]) .Speed128 (.speed p.addr (signedSpeed d m))
        (encSpeed128 p.addr (signedSpeed d m)) } :=
  exec_form p x (.speed128 d m) s rfl

/-- The encoder of a function class builds the packet of the form that carries the bits (R151 to R160). -/
theorem encodeFields_function (c : Config) {a : Nat} {f : MfForm} {bits : Byte} (h : mfFields a f = .func a bits) :
    encodeFields c (mfClass f) (.func a bits) = build a (mfBytes c f) := by
  have hbuild {g : Nat} (hform : funcForm g bits = f) : build a (funcInstr c g bits) = build a (mfBytes c f) := by
    rw [funcInstr_form, hform]
  cases f with
  | speed128 | opsCvVerify | opsCvWrite | opsCvBit => cases h
  | funcF0 f0 f =>
    cases h
    have hform : ∀ f0 f, funcForm 0 ((f ++ BitVec.ofBool f0).setWidth 8) = .funcF0 f0 f := by decide
    exact hbuild (hform f0 f)
  | funcF5 f =>
    cases h
    have hform : ∀ f : BitVec 4, funcForm 1 (f.setWidth 8) = .funcF5 f := by decide
    exact hbuild (hform f)
  | funcF9 f =>
    cases h
    have hform : ∀ f : BitVec 4, funcForm 2 (f.setWidth 8) = .funcF9 f := by decide
    exact hbuild (hform f)
  | _ =>
    cases h
    rfl

/-- A function form: the group's bits, and the packet with the same instruction bytes (R167). -/
theorem exec_function (p : AddrPart) (x : Byte) (f : MfForm) (s : State) {bits : Byte}
    (h : mfFields p.addr f = .func p.addr bits) :
    exec (p.instr x f) s = .next { s with
      codec := answer (p.bytes ++ mfBytes s.cfg f ++ [x]) (mfClass f) (.func p.addr bits)
        (build p.addr (mfBytes s.cfg f)) } := by
  rw [exec_form p x f s rfl, h, encodeFields_function s.cfg h]

/-- The instruction bytes of a CV form as numbers (R103, R110). -/
theorem cvInstr_eq (p : BitVec 4) (g : BitVec 2) (v : BitVec 10) (d : Byte) :
    cvInstr p g v d = [(p ++ g ++ 0#2) ||| (v >>> 8).setWidth 8, v.setWidth 8, d] := by
  rw [cvInstr, cvByte0_eq, cvByte1_eq]

theorem cvInstr_bitByte_eq (p : BitVec 4) (g : BitVec 2) (v : BitVec 10) (k d : Bool) (b : BitVec 3) :
    cvInstr p g v (bitByte k d b) = [(p ++ g ++ 0#2) ||| (v >>> 8).setWidth 8, v.setWidth 8,
      0xE0#8 ||| ((BitVec.ofBool k).setWidth 8 <<< 4) ||| ((BitVec.ofBool d).setWidth 8 <<< 3) ||| b.setWidth 8] := by
  rw [cvInstr_eq, bitByte_eq]

/-! ### Forms without an address part -/

/-- A service-mode form (R110, R168). -/
theorem exec_svc {i : Instr} {k : DccClass} {f : DccFields} {s : State} (hexec : exec i s = .next (runSvc i k f s))
    {bytes : List Byte} (hne : bytes ≠ []) (hbytes : wordBytes (encode s.cfg i) = bytes) :
    exec i s = .next { s with codec := answer bytes k f (encodeFields s.cfg k f) } := by
  rw [hexec, runSvc, formAnswer_eq_answer s.cfg hbytes hne]
  rfl

/-- A form with no operand to extract (R171 to R173): its meaning is that of a service-mode form with no field. -/
theorem exec_plain {i : Instr} {k : DccClass} {s : State} (hexec : exec i s = .next (runPlain i k s))
    {b : Byte} {t : List Byte} (hbytes : wordBytes (encode s.cfg i) = b :: t) :
    exec i s = .next { s with codec := answer (b :: t) k .none (encodeFields s.cfg k .none) } :=
  exec_svc hexec (List.cons_ne_nil b t) hbytes

end Sys2Proof.Machine

open Sys2Proof Sys2Proof.Machine

/-- Settles O13: `exec_speed` behind each address part. -/
theorem speedFormsAnswer : Obligations.SpeedFormsAnswer := by
  intro s d m x
  exact ⟨fun a => exec_speed (.short a) d m x s, fun a => exec_speed (.long a) d m x s⟩

/-- Settles O14: `exec_function` at each form; the narrow groups fill the byte of the answer with zeros. -/
theorem functionFormsAnswer : Obligations.FunctionFormsAnswer := by
  intro s f0 f g x
  have hF0 (n : Nat) : mfFields n (.funcF0 f0 f) = .func n (0#3 ++ f ++ BitVec.ofBool f0) := by
    have hbits : ∀ f0 (f : BitVec 4), (f ++ BitVec.ofBool f0).setWidth 8 = 0#3 ++ f ++ BitVec.ofBool f0 := by decide
    exact congrArg (DccFields.func n) (hbits f0 f)
  have hbits : ∀ f : BitVec 4, f.setWidth 8 = 0#4 ++ f := by decide
  have hF5 (n : Nat) : mfFields n (.funcF5 f) = .func n (0#4 ++ f) := congrArg (DccFields.func n) (hbits f)
  have hF9 (n : Nat) : mfFields n (.funcF9 f) = .func n (0#4 ++ f) := congrArg (DccFields.func n) (hbits f)
  constructor
  · intro a
    have h (form : MfForm) {bits : Byte} := exec_function (bits := bits) (.short a) x form s
    exact ⟨h _ (hF0 _), h _ (hF5 _), h _ (hF9 _), h (.funcF13 g) rfl, h (.funcF21 g) rfl, h (.funcF29 g) rfl,
      h (.funcF37 g) rfl, h (.funcF45 g) rfl, h (.funcF53 g) rfl, h (.funcF61 g) rfl⟩
  · intro a
    have h (form : MfForm) {bits : Byte} := exec_function (bits := bits) (.long a) x form s
    exact ⟨h _ (hF0 _), h _ (hF5 _), h _ (hF9 _), h (.funcF13 g) rfl, h (.funcF21 g) rfl, h (.funcF29 g) rfl,
      h (.funcF37 g) rfl, h (.funcF45 g) rfl, h (.funcF53 g) rfl, h (.funcF61 g) rfl⟩

/-- Settles O15: `exec_form` and `exec_svc` at each form, with the instruction bytes as numbers. -/
theorem cvFormsAnswer : Obligations.CvFormsAnswer := by
  intro s v d x k b n
  have hverify := cvInstr_eq 0b1110#4 0b01#2 v d
  have hwrite := cvInstr_eq 0b1110#4 0b11#2 v d
  have hbit := cvInstr_bitByte_eq 0b1110#4 0b10#2 v k b n
  refine ⟨fun a => ⟨?_, ?_, ?_⟩, fun a => ⟨?_, ?_, ?_⟩, ?_, ?_, ?_⟩
  · exact exec_form (.short a) x (.opsCvVerify v d) s hverify
  · exact exec_form (.short a) x (.opsCvWrite v d) s hwrite
  · exact exec_form (.short a) x (.opsCvBit v k b n) s hbit
  · exact exec_form (.long a) x (.opsCvVerify v d) s hverify
  · exact exec_form (.long a) x (.opsCvWrite v d) s hwrite
  · exact exec_form (.long a) x (.opsCvBit v k b n) s hbit
  · exact exec_svc rfl (by simp) (congrArg (· ++ [x]) (cvInstr_eq 0b0111#4 0b01#2 v d))
  · exact exec_svc rfl (by simp) (congrArg (· ++ [x]) (cvInstr_eq 0b0111#4 0b11#2 v d))
  · exact exec_svc rfl (by simp) (congrArg (· ++ [x]) (cvInstr_bitByte_eq 0b0111#4 0b10#2 v k b n))

/-- Settles O16: `exec_plain` at each form told by its first byte; the checksums of Reset and Idle are computed. -/
theorem fixedAndDecodeOnlyFormsAnswer : Obligations.FixedAndDecodeOnlyFormsAnswer := by
  intro s r6 r3 r4 rest
  exact ⟨rfl, rfl, exec_plain rfl rfl, exec_plain rfl rfl, exec_plain rfl rfl, exec_plain rfl rfl, exec_plain rfl rfl⟩

/-- Settles O1: the decoder computed on each of the nine words. -/
theorem handEncodedWordsDecode : Obligations.HandEncodedWordsDecode :=
  ⟨rfl, rfl, rfl, rfl, rfl, rfl, rfl, rfl, rfl⟩

end

section
/-! The raw bytes of a list of messages parsed back to the list (42_railcom.md R248 to R252). -/

namespace Sys2Proof.Machine

/-! ### Channel 1 is the message at the head (R250) -/

/-- A channel-1 message is also what `rc_msg` reads at the head of the symbols, and leaves the same symbols. -/
theorem rcMsg_of_rcCh1 {t r : List Sym} {m : RcMsg} (h : rcCh1 t = (some m, r)) : rcMsg t = some (m, r) := by
  unfold rcCh1 at h
  split at h
  · split at h
    next hid =>
      cases h
      simp [rcMsg, hid, rcLen, takeData, buildMsg]
    split at h
    next hid =>
      cases h
      simp [rcMsg, hid, rcLen, takeData, buildMsg]
    · cases h
  · cases h

/-- AHI and ALO at the head of the symbols are channel 1's. -/
theorem rcCh1_of_rcMsg {t r : List Sym} {m : RcMsg} (hm : (∃ v, m = .ahi v) ∨ (∃ v, m = .alo v))
    (h : rcMsg t = some (m, r)) : rcCh1 t = (some m, r) := by
  obtain ⟨m', hm'⟩ := Option.ne_none_iff_exists'.1 (rcMsg_head h hm)
  have hhead : rcCh1 t = (some m', (rcCh1 t).2) := Prod.ext hm' rfl
  obtain ⟨hmsg, hrest⟩ := Prod.ext_iff.1 (Option.some.inj ((rcMsg_of_rcCh1 hhead).symm.trans h))
  rw [hhead, hrest, show m' = m from hmsg]

/-- Any other message at the head leaves channel 1 empty and all the symbols (R251). -/
theorem rcCh1_of_rcMsg_other {t r : List Sym} {m : RcMsg} (hm : ∀ v, m ≠ .ahi v ∧ m ≠ .alo v)
    (h : rcMsg t = some (m, r)) : rcCh1 t = (none, t) := by
  cases hch1 : (rcCh1 t).1 with
  | none => exact Prod.ext hch1 (rcCh1_none hch1)
  | some m' =>
    have hhead : rcCh1 t = (some m', (rcCh1 t).2) := Prod.ext hch1 rfl
    obtain ⟨hmsg, -⟩ := Prod.ext_iff.1 (Option.some.inj ((rcMsg_of_rcCh1 hhead).symm.trans h))
    obtain ⟨v, rfl⟩ | ⟨v, rfl⟩ := rcCh1_some hhead
    · exact absurd hmsg.symm (hm v).1
    · exact absurd hmsg.symm (hm v).2

/-! ### Channel 2 is the messages one after the other (R252) -/

theorem rcCh2Loop_of_rcMsg {t r : List Sym} {m : RcMsg} (n : Nat) (h : rcMsg t = some (m, r)) :
    rcCh2Loop (n + 1) t = (rcCh2Loop n r).map (m :: ·) := by
  cases t with
  | nil => cases h
  | cons a t => simp only [rcCh2Loop, h]

theorem rcCh2Loop_flatMap {v : RailcomVersion} {ms : List RcMsg} (h : ∀ m ∈ ms, m = .bsy → v = .v2012) :
    ∀ n, (ms.flatMap msgRaw).length ≤ n → rcCh2Loop n ((ms.flatMap msgRaw).map (rcClass v)) = some ms := by
  induction ms with
  | nil => exact fun n _ => by cases n <;> rfl
  | cons m ms ih =>
    obtain ⟨hm, hms⟩ := List.forall_mem_cons.1 h
    intro n hn
    have hraw : 1 ≤ (msgRaw m).length := (Laws.EncodeShape.msg_shape m).1
    rw [List.flatMap_cons, List.length_append] at hn
    obtain ⟨n, rfl⟩ : ∃ k, n = k + 1 := ⟨n - 1, by omega⟩
    rw [List.flatMap_cons, List.map_append, rcCh2Loop_of_rcMsg n (rcMsg_msgRaw hm _), ih hms n (by omega)]
    rfl

theorem rcCh2_flatMap {v : RailcomVersion} {ms : List RcMsg} (h : ∀ m ∈ ms, m = .bsy → v = .v2012) :
    rcCh2 ((ms.flatMap msgRaw).map (rcClass v)) = ms := by
  rw [rcCh2, rcCh2Loop_flatMap h _ (by rw [List.length_map]), Option.getD_some]

end Sys2Proof.Machine

open Sys2Proof Sys2Proof.Machine

/-- Settles O24: the message at the head decides channel 1, and the symbols it leaves are channel 2's messages. -/
theorem frameParsesToItsMessages : Obligations.FrameParsesToItsMessages := by
  intro v ms hbsy
  have hlead (m : RcMsg) (hm : (∃ val, m = .ahi val) ∨ (∃ val, m = .alo val)) (hne : m ≠ .bsy) :
      rcParse v (msgRaw m ++ ms.flatMap msgRaw) = (some m, ms) := by
    rw [rcParse, List.map_append, rcCh1_of_rcMsg hm (rcMsg_msgRaw (absurd · hne) _)]
    exact congrArg _ (rcCh2_flatMap hbsy)
  refine ⟨fun hhead => ?_, fun val => hlead _ (.inl ⟨val, rfl⟩) nofun, fun val => hlead _ (.inr ⟨val, rfl⟩) nofun⟩
  have hch1 : rcCh1 ((ms.flatMap msgRaw).map (rcClass v)) = (none, (ms.flatMap msgRaw).map (rcClass v)) := by
    cases ms with
    | nil => rfl
    | cons m ms =>
      have hm : ∀ val, m ≠ .ahi val ∧ m ≠ .alo val := by simpa using hhead
      rw [List.flatMap_cons, List.map_append]
      exact rcCh1_of_rcMsg_other hm (rcMsg_msgRaw (hbsy m List.mem_cons_self) _)
  rw [rcParse, hch1]
  exact congrArg _ (rcCh2_flatMap hbsy)

end

section
/-! What a codec event answers (40_packet_codec.md R140, R165 to R170): the meaning of a decoded packet form is the
decoder's report for the form's bytes, in the context that the form was decoded in. -/

namespace Sys2Proof

/-! ### The word of a decoded form -/

theorem encode_of_decodeSvc (c : Config) {bytes : List Byte} {i : Instr} (h : decodeSvc bytes = .ok i) :
    ∃ z, encode c i = .packet true z := by
  unfold decodeSvc at h
  split at h
  · repeat' split at h
    all_goals cases h
    all_goals exact ⟨_, rfl⟩
  · cases h

theorem encode_of_decodeMultifunction {c : Config} {bytes : List Byte} {i : Instr}
    (h : decodeMultifunction c bytes = .ok i) : ∃ z, encode c i = .packet false z := by
  obtain ⟨p, t, f, -, -, rfl⟩ := decodeMultifunction_eq_ok h
  exact ⟨_, AddrPart.encode_instr c p _ f⟩

/-- The word of a decoded form is a service-mode packet exactly where the decoder took the bytes for one (R165). -/
theorem encode_of_decodePacket {c : Config} {svc : Bool} {bytes : List Byte} {i : Instr}
    (h : decodePacket c svc bytes = .ok i) : ∃ z, encode c i = .packet (svc && isSvcDirect bytes) z := by
  unfold decodePacket at h
  split at h
  · cases h
  split at h
  next hreset =>
    cases h
    subst hreset
    exact ⟨_, congrArg (InstrWord.packet · _) (Bool.and_false svc).symm⟩
  split at h
  next hidle =>
    cases h
    subst hidle
    exact ⟨_, congrArg (InstrWord.packet · _) (Bool.and_false svc).symm⟩
  split at h
  next hsvc => exact hsvc ▸ encode_of_decodeSvc c h
  next hsvc =>
  rw [Bool.eq_false_of_not_eq_true hsvc]
  split at h
  · cases h
  iterate 5
    split at h
    · cases h
      exact ⟨_, rfl⟩
  exact encode_of_decodeMultifunction h

theorem svc_of_decodePacket {c : Config} {svc svcForm : Bool} {bytes z : List Byte} {i : Instr}
    (h : decodePacket c svc bytes = .ok i) (hword : encode c i = .packet svcForm z) :
    (svc && isSvcDirect bytes) = svcForm := by
  obtain ⟨_, hdec⟩ := encode_of_decodePacket h
  exact (InstrWord.packet.inj (hdec.symm.trans hword)).1

end Sys2Proof

namespace Sys2Proof.Machine

theorem length_of_restOk {t : List Byte} (h : restOk t = true) : 2 ≤ t.length ∧ t.length ≤ 7 := by
  simpa [restOk] using h

/-! ### Packets told by their first byte (R171 to R173) -/

/-- No first byte from `80h` on begins a service-mode packet (R110). -/
theorem firstByte_not_svc (b : Byte) (hb : 0x80 ≤ b.toNat) : ¬ b.extractLsb' 4 4 = 0b0111#4 := by
  revert b; decide

theorem codecReport_accessory (c : Config) (svc : Bool) {b : Byte} {t : List Byte} (ht : restOk t = true)
    (hlow : 0x80 ≤ b.toNat) (hhigh : b.toNat ≤ 0xBF) :
    codecReport c svc { bytes := b :: t } = formAnswer c (.packet false (b :: t)) .Accessory .none := by
  have h0 : b ≠ 0x00#8 := by rintro rfl; simp at hlow
  have hff : b ≠ 0xFF#8 := by rintro rfl; simp at hhigh
  have hsvc := firstByte_not_svc b hlow
  refine codecReport_firstByte c svc b t _ _ (length_of_restOk ht) hsvc (h0 ·.1) (hff ·.1) ?_ nofun
  rw [if_neg (not_or.2 ⟨h0, hff⟩), if_pos ⟨hlow, hhigh⟩]

theorem codecReport_reserved (c : Config) (svc : Bool) {b : Byte} {t : List Byte} (ht : restOk t = true)
    (hlow : 0xE8 ≤ b.toNat) (hhigh : b.toNat ≤ 0xFE) :
    codecReport c svc { bytes := b :: t } = formAnswer c (.packet false (b :: t)) .Reserved .none := by
  have h0 : b ≠ 0x00#8 := by rintro rfl; simp at hlow
  have hff : b ≠ 0xFF#8 := by rintro rfl; simp at hhigh
  have hsvc := firstByte_not_svc b (by omega)
  refine codecReport_firstByte c svc b t _ _ (length_of_restOk ht) hsvc (h0 ·.1) (hff ·.1) ?_ nofun
  rw [if_neg (not_or.2 ⟨h0, hff⟩), if_neg (by omega), if_pos ⟨hlow, hhigh⟩]

/-- The first bytes `00h` and `FFh` of what is neither Reset nor Idle. -/
theorem codecReport_unclassified (c : Config) (svc : Bool) {b : Byte} {t : List Byte} (ht : restOk t = true)
    (hb : b = 0x00#8 ∨ b = 0xFF#8) (hreset : b :: t ≠ [0x00#8, 0x00#8, 0x00#8])
    (hidle : b :: t ≠ [0xFF#8, 0x00#8, 0xFF#8]) :
    codecReport c svc { bytes := b :: t } = formAnswer c (.packet false (b :: t)) .Unclassified .none := by
  have hsvc : ¬ b.extractLsb' 4 4 = 0b0111#4 := by rcases hb with rfl | rfl <;> decide
  refine codecReport_firstByte c svc b t _ _ (length_of_restOk ht) hsvc ?_ ?_ (if_pos hb) nofun
  · rintro ⟨rfl, rfl⟩
    exact hreset rfl
  · rintro ⟨rfl, rfl⟩
    exact hidle rfl

/-! ### Service-mode packets (R110, R168) -/

theorem cvFields_svcByte (g : BitVec 2) (v : BitVec 10) (d x : Byte) :
    cvFields none { bytes := [cvByte0 0b0111#4 g v, cvByte1 v, d, x] } 0 false = .cvByte none (v.toNat + 1) d := by
  simp [cvFields]

theorem cvFields_svcBit (g : BitVec 2) (v : BitVec 10) (k d : Bool) (b : BitVec 3) (x : Byte) :
    cvFields none { bytes := [cvByte0 0b0111#4 g v, cvByte1 v, bitByte k d b, x] } 0 true =
      .cvBit none (v.toNat + 1) k d b.toNat := by
  simp only [cvFields, List.getD_cons_zero, List.getD_cons_succ, cvOf_cvBytes, bitByte_write, bitByte_value,
    bitByte_index, if_true]

theorem codecReport_svcVerifyByte (c : Config) (v : BitVec 10) (d x : Byte) :
    codecReport c true { bytes := [cvByte0 0b0111#4 0b01#2 v, cvByte1 v, d, x] } =
      formAnswer c (encode c (.svcVerifyByte v d x)) .SvcVerifyByte (.cvByte none (v.toNat + 1) d) :=
  codecReport_svc c _ v d x (by decide) _ _ rfl (cvFields_svcByte ..)

theorem codecReport_svcWriteByte (c : Config) (v : BitVec 10) (d x : Byte) :
    codecReport c true { bytes := [cvByte0 0b0111#4 0b11#2 v, cvByte1 v, d, x] } =
      formAnswer c (encode c (.svcWriteByte v d x)) .SvcWriteByte (.cvByte none (v.toNat + 1) d) :=
  codecReport_svc c _ v d x (by decide) _ _ rfl (cvFields_svcByte ..)

theorem codecReport_svcBit (c : Config) (v : BitVec 10) (k d : Bool) (b : BitVec 3) (x : Byte) :
    codecReport c true { bytes := [cvByte0 0b0111#4 0b10#2 v, cvByte1 v, bitByte k d b, x] } =
      formAnswer c (encode c (.svcBit v k d b x)) .SvcBit (.cvBit none (v.toNat + 1) k d b.toNat) :=
  codecReport_svc c _ v _ x (by decide) _ _ (by simp) (cvFields_svcBit ..)

/-! ### Every form -/

/-- The meaning of a form is the decoder's report where the report is the form's own answer. -/
theorem exec_of_codecReport {i : Instr} {k : DccClass} {f : DccFields} {s : State} {svc : Bool}
    (hreport : codecReport s.cfg svc { bytes := wordBytes (encode s.cfg i) } = formAnswer s.cfg (encode s.cfg i) k f)
    (hexec : exec i s = .next (codecAnswer (formAnswer s.cfg (encode s.cfg i) k f) s)) :
    exec i s = .next (codecAnswer (codecReport s.cfg svc { bytes := wordBytes (encode s.cfg i) }) s) := by
  rw [hexec, hreport]

/-- Every packet form answers what the decoder reports for the bytes that it was decoded from. -/
theorem exec_of_decodePacket {s : State} {svc : Bool} {bytes : List Byte} {i : Instr} (hc : s.cfg.wf = true)
    (h : decodePacket s.cfg svc bytes = .ok i) :
    exec i s = .next (codecAnswer (codecReport s.cfg svc { bytes := bytes }) s) := by
  obtain ⟨rfl, hwf⟩ := readFrom_of_decodePacket h
  cases i with
  | reset | idle => exact exec_of_codecReport rfl rfl
  | speed128S | funcF0S | funcF5S | funcF9S | funcF13S | funcF21S | funcF29S | funcF37S | funcF45S | funcF53S | funcF61S
  | opsCvVerifyS | opsCvWriteS | opsCvBitS =>
    exact exec_of_codecReport (codecReport_short hc hwf _ _ svc (svc_of_decodePacket h rfl)) rfl
  | speed128L | funcF0L | funcF5L | funcF9L | funcF13L | funcF21L | funcF29L | funcF37L | funcF45L | funcF53L | funcF61L
  | opsCvVerifyL | opsCvWriteL | opsCvBitL =>
    exact exec_of_codecReport (codecReport_long hc hwf _ _ svc (svc_of_decodePacket h rfl)) rfl
  | svcVerifyByte =>
    obtain ⟨rfl, -⟩ := Bool.and_eq_true_iff.1 (svc_of_decodePacket h rfl)
    exact exec_of_codecReport (codecReport_svcVerifyByte ..) rfl
  | svcWriteByte =>
    obtain ⟨rfl, -⟩ := Bool.and_eq_true_iff.1 (svc_of_decodePacket h rfl)
    exact exec_of_codecReport (codecReport_svcWriteByte ..) rfl
  | svcBit =>
    obtain ⟨rfl, -⟩ := Bool.and_eq_true_iff.1 (svc_of_decodePacket h rfl)
    exact exec_of_codecReport (codecReport_svcBit ..) rfl
  | accessory r =>
    have hrange : ∀ r : BitVec 6, 0x80 ≤ (0b10#2 ++ r).toNat ∧ (0b10#2 ++ r).toNat ≤ 0xBF := by decide
    exact exec_of_codecReport (codecReport_accessory _ svc hwf (hrange r).1 (hrange r).2) rfl
  | reservedE8EF r =>
    have hrange : ∀ r : BitVec 3, 0xE8 ≤ (0b11101#5 ++ r).toNat ∧ (0b11101#5 ++ r).toNat ≤ 0xFE := by decide
    exact exec_of_codecReport (codecReport_reserved _ svc hwf (hrange r).1 (hrange r).2) rfl
  | reservedF0FE r =>
    have hrange : ∀ r : BitVec 4, r ≠ 15#4 → 0xE8 ≤ (0b1111#4 ++ r).toNat ∧ (0b1111#4 ++ r).toNat ≤ 0xFE := by
      decide
    obtain ⟨hne, hrest⟩ := Bool.and_eq_true_iff.1 hwf
    obtain ⟨hlow, hhigh⟩ := hrange r (bne_iff_ne.1 hne)
    exact exec_of_codecReport (codecReport_reserved _ svc hrest hlow hhigh) rfl
  | unclassified00 =>
    obtain ⟨hrest, hne⟩ := Bool.and_eq_true_iff.1 hwf
    have hreset := bne_iff_ne.1 hne
    exact exec_of_codecReport (codecReport_unclassified _ svc hrest (.inl rfl) (by simpa using hreset) (by simp)) rfl
  | unclassifiedFF =>
    obtain ⟨hrest, hne⟩ := Bool.and_eq_true_iff.1 hwf
    have hidle := bne_iff_ne.1 hne
    exact exec_of_codecReport (codecReport_unclassified _ svc hrest (.inr rfl) (by simp) (by simpa using hidle)) rfl
  | _ =>
    -- the word of a RailCom message and of a command is no packet
    obtain ⟨_, hword⟩ := encode_of_decodePacket h
    cases hword

/-- A codec event whose packet decodes to an instruction runs it (R165, R170). -/
theorem runEvent_codec_of_decode {svc : Bool} {bytes : List Byte} {s : State} {i : Instr}
    (h : decode s.cfg (.packet svc bytes) = .ok i) : runEvent exec (.codec svc bytes) s = exec i s := by
  simp only [runEvent, h]

/-- A codec event answers the decoder's report, whether the packet is an instruction or not. -/
theorem runEvent_codec (svc : Bool) (bytes : List Byte) {s : State} (hc : s.cfg.wf = true) :
    runEvent exec (.codec svc bytes) s = .next (codecAnswer (codecReport s.cfg svc { bytes := bytes }) s) := by
  cases h : decode s.cfg (.packet svc bytes) with
  | ok i => exact (runEvent_codec_of_decode h).trans (exec_of_decodePacket hc h)
  | error => simp only [runEvent, h, classifyOnly]

end Sys2Proof.Machine

open Sys2Proof Sys2Proof.Machine

/-- Settles O5: a decoded form answers the decoder's report, and a packet of no form is only classified. -/
theorem stepAnswersAsTheDecoder : Obligations.StepAnswersAsTheDecoder := by
  intro s svc bytes rest hc hin
  constructor
  · exact (step_cons hin).trans (runEvent_codec svc bytes hc)
  · exact fun i hdec => (step_cons hin).trans (runEvent_codec_of_decode hdec)

/-- Settles O12: a well-formed form is decoded from its own word (O2), and a decoded form answers the decoder's
report. -/
theorem packetFormsAnswerAsTheDecoder : Obligations.PacketFormsAnswerAsTheDecoder := by
  intro s i svc bytes hc hwf henc
  have hdec := decodeInvertsEncode s.cfg i hc hwf
  rw [henc] at hdec
  exact exec_of_decodePacket hc hdec

end

section
/-! What the encoders build and what the decoder reads back from it (40_packet_codec.md R141 to R180): the checksum, the
address part, and the speed and CV packets there and back. -/

namespace Sys2Proof.Machine

/-! ### Every packet of an encoder (R145, R180 clauses 1 and 2) -/

/-- A zero XOR and 3 to 6 bytes. -/
def EncodedOk (p : DccPacket) : Prop := xorBytes p.bytes = 0#8 ∧ 3 ≤ p.len ∧ p.len ≤ 6

theorem build_encodedOk {a : Nat} {l : List Byte} {p : DccPacket} (h : build a l = some p)
    (hl : 1 ≤ l.length ∧ l.length ≤ 3) : EncodedOk p := by
  obtain ⟨-, ⟨⟩⟩ := Option.ite_none_left_eq_some.1 h
  exact ⟨buildPacket_xor _ l, buildPacket_len _ hl⟩

theorem cvInstr_length (pre : BitVec 4) (op : BitVec 2) (v : BitVec 10) (d : Byte) :
    1 ≤ (cvInstr pre op v d).length ∧ (cvInstr pre op v d).length ≤ 3 := by
  simp [cvInstr]

/-- The three operations-mode CV encoders differ in the operation and in the data byte. -/
theorem opsCv_encodedOk {a cv : Nat} {op : BitVec 2} {d : Byte} {p : DccPacket}
    (h : (cvArg cv).bind (fun v => build a (cvInstr 0b1110#4 op v d)) = some p) : EncodedOk p := by
  obtain ⟨v, -, hbuild⟩ := Option.bind_eq_some_iff.1 h
  exact build_encodedOk hbuild (cvInstr_length ..)

theorem svcCv_encodedOk {cv : Nat} {op : BitVec 2} {d : Byte} {p : DccPacket}
    (h : (cvArg cv).map (fun v => plainPacket (cvInstr 0b0111#4 op v d)) = some p) : EncodedOk p := by
  obtain ⟨v, -, rfl⟩ := Option.map_eq_some_iff.1 h
  exact ⟨xorBytes_checksum _, (by decide : 3 ≤ 4), (by decide : 4 ≤ 6)⟩

/-! ### The address part (R97, R141) -/

theorem addrBytes_short {a : Nat} (h : a ≤ 127) : addrBytes (BitVec.ofNat 14 a) = [BitVec.ofNat 8 a] := by
  have hshort : (BitVec.ofNat 14 a).toNat ≤ ADDR_SHORT_MAX := by simp only [BitVec.toNat_ofNat, ADDR_SHORT_MAX]; omega
  rw [addrBytes, if_pos hshort, BitVec.setWidth_ofNat_of_le (by decide)]

theorem addrBytes_long {a : Nat} (h1 : 128 ≤ a) (h2 : a ≤ 10239) : addrBytes (BitVec.ofNat 14 a) =
    [BitVec.ofNat 8 (0xC0 ||| ((a >>> 8) &&& 0x3F)), BitVec.ofNat 8 (a &&& 0xFF)] := by
  have ha : (BitVec.ofNat 14 a).toNat = a := by simp only [BitVec.toNat_ofNat]; omega
  have hhigh : 0b11#2 ++ (BitVec.ofNat 14 a).extractLsb' 8 6 = BitVec.ofNat 8 (0xC0 ||| ((a >>> 8) &&& 0x3F)) := by
    have hor : ∀ y < 64, 0xC0 ||| (y &&& 0x3F) = 0xC0 + y := by decide
    obtain ⟨-, -, -, hbyte, -⟩ := longByte_fields ((BitVec.ofNat 14 a).extractLsb' 8 6)
    apply BitVec.eq_of_toNat_eq
    rw [hbyte, address_high, ha, Nat.shiftRight_eq_div_pow, hor _ (by omega), BitVec.toNat_ofNat]
    omega
  have hlow : (BitVec.ofNat 14 a).extractLsb' 0 8 = BitVec.ofNat 8 (a &&& 0xFF) := by
    apply BitVec.eq_of_toNat_eq
    rw [BitVec.extractLsb'_toNat, ha, BitVec.toNat_ofNat, Nat.and_two_pow_sub_one_eq_mod a 8]
    simp
  have hlong : ¬ (BitVec.ofNat 14 a).toNat ≤ ADDR_SHORT_MAX := by simp only [ha, ADDR_SHORT_MAX]; omega
  rw [addrBytes, if_neg hlong, longBytes, hhigh, hlow]

theorem setAddress_inRange {a : Nat} (h1 : 1 ≤ a) (h2 : a ≤ 10239) :
    setAddress a = some (addrBytes (BitVec.ofNat 14 a)) :=
  if_neg (by simp only [ADDR_MIN, ADDR_MAX]; omega)

theorem build_outOfRange {a : Nat} (h : a < 1 ∨ 10239 < a) (l : List Byte) : build a l = none := if_pos h

/-! ### The decoder on the packet of a form -/

/-- The packet with the instruction bytes of a form has the form's class and gives its operands back (R165 to R168). -/
theorem build_mfBytes_decodes {c : Config} (hc : c.wf = true) {a : Nat} (h1 : 1 ≤ a) (h2 : a ≤ 10239) (f : MfForm) :
    ∃ p, build a (mfBytes c f) = some p ∧ decodeType c p false = mfClass f ∧
      decodeFields c p (mfClass f) = mfFields a f := by
  have hpart := addressPart_ofNat h1 h2
  have hxor := buildPacket_xor (BitVec.ofNat 14 a) (mfBytes c f)
  refine ⟨_, build_inRange h1 h2 _, ?_, decodeFields_form hc hpart f _ hxor⟩
  exact (decodeType_form hc hpart f _ false rfl).trans (if_pos hxor)

/-- The speed of a packet, whatever the feature-expansion opcodes: `3Fh` is told before them (R165, R166). -/
theorem decodeSpeed128_form (c : Config) {l : List Byte} {a : Nat} (h : AddressPart l a) (d : Bool) (m : BitVec 7)
    (x : Byte) (hx : xorBytes (l ++ [0x3F#8, BitVec.ofBool d ++ m] ++ [x]) = 0#8) :
    decodeSpeed128 c { bytes := l ++ [0x3F#8, BitVec.ofBool d ++ m] ++ [x] } = some (a, signedSpeed d m) := by
  have htype := decodeType_multifunction c h [0x3F#8, BitVec.ofBool d ++ m] (by simp) x false rfl
  rw [if_pos hx] at htype
  have haddr := getAddress_part h ([0x3F#8, BitVec.ofBool d ++ m] ++ [x])
  have hdata : (l ++ ([0x3F#8, BitVec.ofBool d ++ m] ++ [x])).getD (l.length + 1) 0#8 = BitVec.ofBool d ++ m := by
    rw [List.getD_append_right _ _ _ _ (by omega), Nat.add_sub_cancel_left]
    rfl
  rw [decodeSpeed128, if_pos (htype.trans (by simp [mfClassOf])), List.append_assoc]
  simp only [haddr, Option.map_some, hdata, speedByte_fields, signedSpeed]

theorem signedSpeed_speed {s : Int} (h1 : -127 ≤ s) (h2 : s ≤ 127) :
    signedSpeed (decide (0 ≤ s)) (BitVec.ofNat 7 s.natAbs) = s := by
  have hm : (BitVec.ofNat 7 s.natAbs).toNat = s.natAbs := by simp; omega
  simp only [signedSpeed, hm, decide_eq_true_eq]
  split <;> omega

/-- A service-mode packet with its checksum has the class and the fields that the decoder reports for its word. -/
theorem decode_plainPacket {c : Config} {body : List Byte} {w : InstrWord} {k : DccClass} {f : DccFields}
    (hreport : codecReport c true (plainPacket body) = formAnswer c w k f)
    (hword : wordBytes w = body ++ [xorBytes body]) :
    decodeType c (plainPacket body) true = k ∧ decodeFields c (plainPacket body) k = f := by
  have hcheck : checkXor { bytes := wordBytes w } = true := by
    simp [hword, checkXor, DccPacket.len, xorBytes_checksum]
  rw [formAnswer, if_pos hcheck] at hreport
  have hk : decodeType c (plainPacket body) true = k := congrArg CodecOut.cls hreport
  exact ⟨hk, hk ▸ congrArg CodecOut.fields hreport⟩

end Sys2Proof.Machine

open Sys2Proof Sys2Proof.Machine

/-- Settles O22: the bytes before the last and their XOR have XOR zero together. -/
theorem checksumByte : Obligations.ChecksumByte := by
  intro p hp
  have hbytes : (setXor p).bytes = p.bytes.take (p.len - 1) ++ [xorBytes (p.bytes.take (p.len - 1))] := by
    rw [setXor, List.dropLast_eq_take]
  refine ⟨hbytes, fun hone => ?_, ?_⟩
  · rw [hbytes, hone]
    rfl
  · rw [checkXor, DccPacket.len, hbytes, xorBytes_checksum]
    simp

/-- Settles O21: the two sizes of the address part, and `get_address` on each. -/
theorem addressPart : Obligations.AddressPart := by
  intro a
  refine ⟨fun h => if_pos h, fun h1 h2 => ?_, fun h1 h2 => ?_, fun h1 h2 rest => ?_⟩
  · rw [setAddress_inRange h1 (by omega), addrBytes_short h2]
  · rw [setAddress_inRange (by omega) h2, addrBytes_long h1 h2]
  · exact ⟨_, setAddress_inRange h1 h2, getAddress_part (addressPart_ofNat h1 h2) rest⟩

/-- Settles O17: reset and idle are computed, every other encoder builds its packet with `build` or as a service-mode
packet of three bytes and their XOR. -/
theorem encodedPacketsAreWellFormed : Obligations.EncodedPacketsAreWellFormed := by
  intro c a cv g bit sp f d k b p h
  rcases h with rfl | rfl | h | h | h | h | h | h | h | h
  · decide
  · decide
  · exact build_encodedOk (Option.ite_none_left_eq_some.1 h).2 (by simp [speedInstr])
  · exact build_encodedOk h (funcInstr_length c g _)
  · exact opsCv_encodedOk h
  · exact opsCv_encodedOk h
  · exact opsCv_encodedOk (Option.ite_none_left_eq_some.1 h).2
  · exact svcCv_encodedOk h
  · exact svcCv_encodedOk h
  · exact svcCv_encodedOk (Option.ite_none_left_eq_some.1 h).2

/-- Settles O18: the packet of a legal speed holds its sign and magnitude, and the encoder checks both operands. -/
theorem speedRoundTrip : Obligations.SpeedRoundTrip := by
  intro c a sp
  constructor
  · rintro ⟨h1, h2, hlow, hhigh⟩
    refine ⟨_, (if_neg (by omega)).trans (build_inRange h1 h2 (speedInstr sp)), ?_⟩
    refine (decodeSpeed128_form c (addressPart_ofNat h1 h2) _ _ _ (xorBytes_checksum _)).trans ?_
    rw [signedSpeed_speed hlow hhigh]
  · intro h
    rw [encSpeed128]
    split
    · rfl
    · exact build_outOfRange (by omega) _

/-- Settles O20: the packet of an operations-mode encoder carries a CV form behind the address part, that of a
service-mode encoder is a CV form of its own, and `v + 1` is the CV number. -/
theorem cvRoundTrip : Obligations.CvRoundTrip := by
  intro c a cv bit d k b hc h1 h2 hcv1 hcv2 hbit
  obtain ⟨v, hv, rfl⟩ := cvArg_inRange hcv1 hcv2
  obtain ⟨n, hn, rfl⟩ : ∃ n : BitVec 3, BitVec.ofNat 3 bit = n ∧ n.toNat = bit := ⟨_, rfl, by simp; omega⟩
  have hops (f : MfForm) := build_mfBytes_decodes hc h1 h2 f
  refine ⟨?opsVerify, ?opsWrite, ?opsBit, ?svcVerify, ?svcWrite, ?svcBit⟩
  case opsVerify =>
    rw [encOpsCvVerify, hv]
    exact hops (.opsCvVerify v d)
  case opsWrite =>
    rw [encOpsCvWrite, hv]
    exact hops (.opsCvWrite v d)
  case opsBit =>
    rw [encOpsCvBit, if_neg (by omega), hv, hn]
    exact hops (.opsCvBit v k b n)
  case svcVerify =>
    rw [encSvcVerifyByte, hv]
    exact ⟨_, rfl, decode_plainPacket (codecReport_svcVerifyByte c v d _) rfl⟩
  case svcWrite =>
    rw [encSvcWriteByte, hv]
    exact ⟨_, rfl, decode_plainPacket (codecReport_svcWriteByte c v d _) rfl⟩
  case svcBit =>
    rw [encSvcBit, if_neg (by omega), hv, hn]
    exact ⟨_, rfl, decode_plainPacket (codecReport_svcBit c v k b n _) rfl⟩

end

section
/-! Bitstream's own operations: the slot and the successor of each kind of position, the waves of a slot, and the starts
and the stop (41_bitstream.md R201, R203, R204, R210, R211). -/

namespace Sys2Proof.Machine

/-! ### The slot of a position (R203) -/

theorem slotOf_preamble (b : Bitstream) {r : Nat} (h : 1 ≤ r) : slotOf b (.preamble r) = .One :=
  if_neg (by omega)

theorem slotOf_data {b : Bitstream} {i : Nat} {x : Byte} (h : b.curPkt.bytes[i]? = some x) (k : Nat) :
    slotOf b (.data i k) = bitSlot (x.getLsbD k) := by
  rw [slotOf, List.getD, h, Option.getD_some]

theorem slotOf_separator {b : Bitstream} {i : Nat} (h : i + 1 < b.curPkt.len) : slotOf b (.trail i) = .Zero := if_pos h

theorem slotOf_stopBit {b : Bitstream} {i : Nat} (h : b.curPkt.len ≤ i + 1) : slotOf b (.trail i) = .One :=
  if_neg (by omega)

theorem slotOf_cutout (b : Bitstream) {c : Nat} (h : c ≤ 3) : slotOf b (.cutout c) = .CutoutN :=
  if_neg (by rw [CUTOUT_BITS]; omega)

/-! ### The successor of a position (R204) -/

theorem succPos_preamble (b : Bitstream) {r : Nat} (h : 1 ≤ r) : succPos b (.preamble r) = .preamble (r - 1) :=
  if_neg (by omega)

theorem succPos_data (b : Bitstream) (i : Nat) {k : Nat} (h : 1 ≤ k) : succPos b (.data i k) = .data i (k - 1) :=
  if_neg (by omega)

theorem succPos_separator {b : Bitstream} {i : Nat} (h : i + 1 < b.curPkt.len) :
    succPos b (.trail i) = .data (i + 1) 7 := if_pos h

theorem succPos_stopBit {b : Bitstream} {i : Nat} (h : b.curPkt.len ≤ i + 1) :
    succPos b (.trail i) = if b.railcom_enabled then .cutout CUTOUT_BITS else .preamble b.preamble_bits :=
  if_neg (by omega)

theorem succPos_cutout (b : Bitstream) {c : Nat} (h : 2 ≤ c) : succPos b (.cutout c) = .cutout (c - 1) :=
  if_neg (by omega)

/-! ### A start (R210) -/

/-- A start programs two ones, and its second slot is the successor of its first: a preamble bit too. -/
theorem start_eq {p0 : Nat} (h : 1 ≤ p0) (tmpl : DccPacket) (s : State) : start p0 tmpl s = { s with
    rc := { s.rc with uart_fifo := [] }
    bs := { s.bs with
      preamble_bits := p0, railcom_enabled := s.cfg.railcom_enabled, slotA := { pkt := tmpl, ref := none },
      slotB := { pkt := tmpl, ref := none }, cur := .A, last_ref := none, from_cutout := false, bs_run := true,
      pos := .preamble (p0 + s.cfg.start_extra_ones - 1), wire := .One :: .One :: s.bs.wire,
      dcc_sig := sigWave .One, dcc_pwr := pwrWave .One } } := by
  have hsucc (b : Bitstream) : succPos b (.preamble (p0 + s.cfg.start_extra_ones)) =
      .preamble (p0 + s.cfg.start_extra_ones - 1) := succPos_preamble b (Nat.le_add_right_of_le h)
  simp only [start, emitSlot, hsucc]
  rfl

end Sys2Proof.Machine

open Sys2Proof Sys2Proof.Machine

/-- Settles O30: each clause is the equation of one kind of position; a `start`, a byte's last bit and the ends of the
cutout are computed. -/
theorem slotAndSuccessorOfPosition : Obligations.SlotAndSuccessorOfPosition := by
  intro b i k r c
  refine ⟨slotOf_preamble b, rfl, fun _ hx _ => slotOf_data hx k, slotOf_separator, fun h => slotOf_stopBit h.ge, rfl,
    fun _ => slotOf_cutout b, fun h => succPos_preamble b (Nat.le_of_succ_le h), rfl, rfl,
    fun h _ => succPos_data b i h, rfl, succPos_separator, fun h hrc => ?_, fun h hrc => ?_,
    fun h _ => succPos_cutout b h, rfl⟩
  all_goals
    rw [succPos_stopBit h.ge, hrc]
    rfl

/-- Settles O31: the table of R201, kind by kind. -/
theorem slotWaveforms : Obligations.SlotWaveforms := by
  intro k b
  cases k <;> rfl

/-- Settles O34: both starts are the one start, and a stop acts on a running engine only. -/
theorem startAndStop : Obligations.StartAndStop :=
  fun s => ⟨start_eq (by decide) IDLE s, start_eq (by decide) RESET s, fun hrun => if_pos hrun,
    fun hrun => if_neg (by rw [hrun]; decide)⟩

end

section
/-! A frame's delivery as the effect of its messages one after the other, and the step that runs the one message of a
frame (41_bitstream.md R206; 42_railcom.md R242, R249 to R254). -/

namespace Sys2Proof.Machine

/-! ### One message after the other (R206, R387) -/

theorem deliverLast_nil (s : State) : deliverLast [] s = s := by
  unfold deliverLast
  split
  · split <;> rfl
  · rfl

/-- Messages that do not begin a frame with AHI or ALO are appended to channel 2, and reach the throttle in their
order. -/
theorem foldl_runMsg {ms : List RcMsg} {s : State}
    (h : (∀ v, ms.head? ≠ some (.ahi v) ∧ ms.head? ≠ some (.alo v)) ∨ s.rc.rc_ch1 ≠ none) :
    ms.foldl (fun s m => runMsg m s) s =
      deliverLast ms { s with rc := { s.rc with rc_ch2 := s.rc.rc_ch2 ++ ms } } := by
  induction ms using List.reverseRecOn with
  | nil =>
    rw [List.append_nil]
    exact (deliverLast_nil s).symm
  | append_singleton ms m ih =>
    have hms : (∀ v, ms.head? ≠ some (.ahi v) ∧ ms.head? ≠ some (.alo v)) ∨ s.rc.rc_ch1 ≠ none :=
      h.imp_left fun hv v => by
        cases ms with
        | nil => exact ⟨nofun, nofun⟩
        | cons => exact hv v
    have hkept := (deliverLast_kept ms { s with rc := { s.rc with rc_ch2 := s.rc.rc_ch2 ++ ms } }).2.2
    have hnext : (∀ v, m ≠ .ahi v ∧ m ≠ .alo v) ∨ s.rc.rc_ch1 ≠ none ∨ s.rc.rc_ch2 ++ ms ≠ [] := by
      cases ms with
      | nil => exact h.imp (fun hv v => by simpa using hv v) .inl
      | cons => exact .inr (.inr (by simp))
    rw [List.foldl_append, ih hms, List.foldl_cons, List.foldl_nil, runMsg,
      recordMsg_ch2 m _ (by rw [hkept]; exact hnext), hkept, ← deliverLast_rc, ← deliverLast_append, List.append_assoc]

/-- AHI and ALO as the first message are channel 1's, and reach no throttle (R250, R253). -/
theorem runMsg_channel1 {m : RcMsg} (hm : (∃ v, m = .ahi v) ∨ ∃ v, m = .alo v) {s : State}
    (h : s.rc.rc_ch1 = none ∧ s.rc.rc_ch2 = []) : runMsg m s = { s with rc := { s.rc with rc_ch1 := some m } } := by
  obtain ⟨v, rfl⟩ | ⟨v, rfl⟩ := hm
  all_goals
    rw [runMsg, deliverLast_none _ fun _ _ => rfl]
    exact if_pos h

/-! ### The messages of a frame (R249 to R252) -/

theorem rcParse_channel1 {v : RailcomVersion} {raw : List Byte} {m : RcMsg} (h : (rcParse v raw).1 = some m) :
    (∃ v, m = .ahi v) ∨ ∃ v, m = .alo v :=
  rcCh1_some (Prod.ext h rfl)

theorem rcParse_channel2 {v : RailcomVersion} {raw : List Byte} (h : (rcParse v raw).1 = none) :
    (rcParse v raw).2 = rcCh2 (raw.map (rcClass v)) :=
  congrArg rcCh2 (rcCh1_none h)

/-- The effects of the messages of a parse, one after the other, are the two channels and one delivery of channel 2. -/
theorem foldl_runMsg_rcParse (v : RailcomVersion) (raw : List Byte) {s : State}
    (h : s.rc.rc_ch1 = none ∧ s.rc.rc_ch2 = []) :
    ((rcParse v raw).1.toList ++ (rcParse v raw).2).foldl (fun s m => runMsg m s) s =
      deliverLast (rcParse v raw).2
        { s with rc := { s.rc with rc_ch1 := (rcParse v raw).1, rc_ch2 := (rcParse v raw).2 } } := by
  cases hch1 : (rcParse v raw).1 with
  | none =>
    have hhead := fun x => rcCh2_head (t := raw.map (rcClass v)) (v := x) hch1
    rw [← rcParse_channel2 hch1] at hhead
    rw [Option.toList_none, List.nil_append, foldl_runMsg (.inl hhead), h.2, List.nil_append, ← h.1]
  | some m =>
    rw [Option.toList_some, List.singleton_append, List.foldl_cons, runMsg_channel1 (rcParse_channel1 hch1) h,
      foldl_runMsg (.inr (Option.some_ne_none m)), h.2, List.nil_append]

/-- The delivery is the effect of the messages one after the other, and the line is read off the frame registers. -/
theorem railcomDeliver_eq_foldl (s : State) :
    railcomDeliver s = logWhen s.trace.trace_railcom
      (.frame (frameBytes s) (rcParse s.cfg.railcom_version (frameBytes s)).1
        (rcParse s.cfg.railcom_version (frameBytes s)).2 (render Config.lineSize (Config.dumpText (frameBytes s)))
        (render Config.lineSize (Config.messageText (rcParse s.cfg.railcom_version (frameBytes s)).1
          (rcParse s.cfg.railcom_version (frameBytes s)).2)))
      (((rcParse s.cfg.railcom_version (frameBytes s)).1.toList ++
        (rcParse s.cfg.railcom_version (frameBytes s)).2).foldl (fun s m => runMsg m s) (frameStart s)) := by
  rw [foldl_runMsg_rcParse _ _ ⟨rfl, rfl⟩]
  simp only [railcomDeliver, frameLine, dumpFrame, showFrame, (deliverLast_kept ..).2.2]
  rw [frameStart_raw]

/-! ### A frame that is one message (R119, R246) -/

theorem rcClass_bsy {v : RailcomVersion} {b : Byte} (h : rcClass v b = .bsy) : v = .v2012 := by
  unfold rcClass at h
  split at h
  · cases h
  · split at h
    · cases h
    split at h
    · cases h
    split at h
    next hbsy => exact hbsy.2
    · cases h

theorem buildMsg_ne_bsy (s0 : BitVec 6) (ds : List (BitVec 6)) : buildMsg s0 ds ≠ some .bsy := by
  unfold buildMsg
  dsimp only
  repeat' split
  all_goals nofun

/-- Only the symbol BSY makes the message BSY. -/
theorem rcMsg_bsy {a : Sym} {t r : List Sym} (h : rcMsg (a :: t) = some (.bsy, r)) : a = .bsy := by
  cases a with
  | bsy => rfl
  | ack | nak | inv => cases h
  | data s0 =>
    simp only [rcMsg] at h
    split at h
    · cases h
    split at h
    · cases h
    · obtain ⟨m, hm, he⟩ := Option.map_eq_some_iff.1 h
      cases he
      exact absurd hm (buildMsg_ne_bsy s0 _)

/-- Channel 2 begins with BSY in version 2012 only. -/
theorem version_of_rcCh2_bsy {v : RailcomVersion} {raw : List Byte} {ms : List RcMsg}
    (h : rcCh2 (raw.map (rcClass v)) = .bsy :: ms) : v = .v2012 := by
  cases raw with
  | nil => cases h
  | cons b raw =>
    simp only [rcCh2, List.map_cons, List.length_cons, rcCh2Loop] at h
    split at h
    · cases h
    next m r hmsg =>
      cases hrest : rcCh2Loop (raw.map (rcClass v)).length r with
      | none =>
        rw [hrest] at h
        cases h
      | some l =>
        rw [hrest] at h
        cases h
        exact rcClass_bsy (rcMsg_bsy hmsg)

theorem exec_msgInstr {m : RcMsg} {s : State} (h : m = .bsy → s.cfg.railcom_version = .v2012) :
    exec (msgInstr m) s = .next (runMsg m s) := by
  cases m with
  | bsy =>
    show execRcBsy s = _
    rw [execRcBsy, h rfl]
  | _ => rfl

/-- A frame that decodes to an instruction parses to one message, and the instruction is that message's effect. -/
theorem exec_of_decodeFrame {c : Config} {raw : List Byte} {i : Instr} (h : decode c (.frame raw) = .ok i) :
    ∃ m, (rcParse c.railcom_version raw).1.toList ++ (rcParse c.railcom_version raw).2 = [m] ∧
      ∀ s : State, s.cfg.railcom_version = c.railcom_version → exec i s = .next (runMsg m s) := by
  simp only [decode, decodeFrame] at h
  split at h
  next hack =>
    obtain ⟨rfl, hv⟩ := hack
    cases h
    refine ⟨.ack, by rw [hv]; rfl, fun s hs => ?_⟩
    show execRcAck2021 s = _
    rw [execRcAck2021, hs, hv]
  · split at h
    next m hparse =>
      split at h
      · cases h
        refine ⟨m, by rw [hparse]; rfl, fun s _ => exec_msgInstr fun hbsy => ?_⟩
        obtain ⟨v, hm⟩ | ⟨v, hm⟩ := rcParse_channel1 (congrArg Prod.fst hparse)
        · exact absurd (hbsy.symm.trans hm) nofun
        · exact absurd (hbsy.symm.trans hm) nofun
      · cases h
    next m hparse =>
      cases h
      refine ⟨m, by rw [hparse]; rfl, fun s hs => exec_msgInstr fun hbsy => ?_⟩
      have hch2 := rcParse_channel2 (congrArg Prod.fst hparse)
      rw [hparse, hbsy] at hch2
      exact hs.trans (version_of_rcCh2_bsy hch2.symm)
    · cases h

/-- The delivery of a frame that decodes to an instruction: the instruction on the drained frame, then the line with the
frame registers it leaves. -/
theorem railcomDeliver_of_decode {s : State} {i : Instr} (h : decode s.cfg (.frame (frameBytes s)) = .ok i) :
    ∃ t, exec i (frameStart s) = .next t ∧ railcomDeliver s =
      logWhen s.trace.trace_railcom (.frame (frameBytes s) t.rc.rc_ch1 t.rc.rc_ch2
        (render Config.lineSize (Config.dumpText (frameBytes s)))
        (render Config.lineSize (Config.messageText t.rc.rc_ch1 t.rc.rc_ch2))) t := by
  obtain ⟨m, hone, hexec⟩ := exec_of_decodeFrame h
  refine ⟨_, hexec _ rfl, ?_⟩
  have hdeliver := railcomDeliver_eq_foldl s
  rw [hone, List.foldl_cons, List.foldl_nil] at hdeliver
  have hrc := railcomDeliver_rc s
  rw [hdeliver, logWhen_rc] at hrc
  rw [hdeliver, hrc]

/-- The bit end after a cutout runs the message that the frame decodes to: the drain of the samples before it leaves all
that the delivery reads. -/
theorem bitEnd_of_decode {s : State} {i : Instr} (hrun : s.bs.bs_run = true) (hrc : s.bs.railcom_enabled = true)
    (hf : s.bs.from_cutout = true) (hp : s.bs.pos = .preamble s.bs.preamble_bits)
    (hdec : decode s.cfg (.frame (frameBytes s)) = .ok i) :
    ∃ t, exec i (frameStart (adcDrain s)) = .next t ∧ bitEnd s = drawLatency (advanceFrom s.bs
      (logWhen s.trace.trace_railcom (.frame (frameBytes s) t.rc.rc_ch1 t.rc.rc_ch2
        (render Config.lineSize (Config.dumpText (frameBytes s)))
        (render Config.lineSize (Config.messageText t.rc.rc_ch1 t.rc.rc_ch2))) t)) := by
  obtain ⟨hcfg, -, hbs, -, -, -, hrcKept, htrace, -⟩ := adcDrain_kept s
  have hbytes : frameBytes (adcDrain s) = frameBytes s := by rw [frameBytes, hrcKept, frameBytes]
  have heff : effects (adcDrain s) = railcomDeliver (adcDrain s) := by
    apply effects_frameEnd <;> rw [hbs] <;> assumption
  obtain ⟨t, hexec, hdeliver⟩ := railcomDeliver_of_decode (s := adcDrain s) (by rw [hcfg, hbytes, hdec])
  exact ⟨t, hexec, by rw [bitEnd_running hrun, heff, hdeliver, htrace, hbytes]⟩

end Sys2Proof.Machine

open Sys2Proof Sys2Proof.Machine

/-- Settles O28: the messages of the parse make one delivery of channel 2, which leaves the frame registers alone. -/
theorem frameDeliveryIsItsMessages : Obligations.FrameDeliveryIsItsMessages := railcomDeliver_eq_foldl

/-- Settles O6: the step is the bit end, and the bit end runs the message. -/
theorem stepRunsTheRailcomMessage : Obligations.StepRunsTheRailcomMessage := by
  intro s rest i hin hrun hrc hf hp hdec
  obtain ⟨t, hexec, hend⟩ := bitEnd_of_decode (s := { s with inputs := rest }) hrun hrc hf hp hdec
  exact ⟨t, hexec, (step_cons hin).trans (congrArg Host.Outcome.next hend)⟩

end

section
/-! The bit-end step register by register: what the effect of each position writes and leaves, and the advance after it
(41_bitstream.md R205 to R209). -/

namespace Sys2Proof.Machine

/-- The slot of a position depends on the packet on the wire only. -/
theorem slotOf_congr {b c : Bitstream} (h : b.curPkt = c.curPkt) (p : Pos) : slotOf b p = slotOf c p := by
  cases p with
  | preamble | cutout => rfl
  | data | trail => simp only [slotOf, h]

/-! ### Which effect applies (R205 step 2) -/

/-- The first preamble bit after a cutout (R206). -/
def FrameEnd (b : Bitstream) : Prop :=
  b.pos = .preamble b.preamble_bits ∧ b.from_cutout = true ∧ b.railcom_enabled = true

/-- The message-stop bit of the packet on the wire (R209). -/
def StopBit (b : Bitstream) : Prop := ∃ i, b.pos = .trail i ∧ b.curPkt.len ≤ i + 1

theorem effects_of_frameEnd {s : State} (h : FrameEnd s.bs) : effects s = railcomDeliver s := by
  obtain ⟨hp, hf, hrc⟩ := h
  exact effects_frameEnd hrc hf hp

/-- The five cases of R205 step 2, with the position that each stands for. -/
theorem effects_cases (s : State) :
    (s.bs.pos = .cutout CUTOUT_BITS ∧ effects s = uartReset s) ∨
    (FrameEnd s.bs ∧ effects s = railcomDeliver s) ∨
    (s.bs.pos = .preamble 1 ∧ ¬ FrameEnd s.bs ∧ effects s = pullNext s) ∨
    (StopBit s.bs ∧ effects s = handOver s) ∨
    effects s = s := by
  by_cases hcut : s.bs.pos = .cutout CUTOUT_BITS
  · exact .inl ⟨hcut, effects_cutout hcut⟩
  by_cases hend : FrameEnd s.bs
  · exact .inr (.inl ⟨hend, effects_of_frameEnd hend⟩)
  by_cases hpull : s.bs.pos = .preamble 1
  · exact .inr (.inr (.inl ⟨hpull, hend, effects_pull hpull hend⟩))
  by_cases hstop : StopBit s.bs
  · obtain ⟨i, hp, hl⟩ := hstop
    exact .inr (.inr (.inr (.inl ⟨⟨i, hp, hl⟩, effects_stopBit hp hl⟩)))
  · exact .inr (.inr (.inr (.inr (effects_none hcut hpull hend hstop))))

/-! ### What an effect leaves -/

/-- The registers that no effect writes. -/
theorem effects_kept (s : State) : (effects s).cfg = s.cfg ∧ (effects s).thr_list = s.thr_list ∧
    (effects s).now = s.now ∧ (effects s).resp = s.resp ∧ (effects s).codec = s.codec ∧
    (effects s).inputs = s.inputs := by
  obtain ⟨-, he⟩ | ⟨-, he⟩ | ⟨-, -, he⟩ | ⟨-, he⟩ | he := effects_cases s
  case inr.inl =>
    obtain ⟨_, _, _, hd, -⟩ := railcomDeliver_frame s
    rw [he, hd]
    exact ⟨rfl, rfl, rfl, rfl, rfl, rfl⟩
  case inr.inr.inl =>
    obtain ⟨hcfg, hlist, -, -, hnow, hresp, hcodec, hinputs, -⟩ := pullPacket_kept s
    rw [he, (pullNext_frame s).1]
    exact ⟨hcfg, hlist, hnow, hresp, hcodec, hinputs⟩
  all_goals
    rw [he]
    exact ⟨rfl, rfl, rfl, rfl, rfl, rfl⟩

/-- What every effect leaves of a running engine's registers. -/
theorem effects_engine {s : State} (hrun : s.bs.bs_run = true) :
    (effects s).bs.slot s.bs.cur = s.bs.slot s.bs.cur ∧ (effects s).bs.pos = s.bs.pos ∧
    (effects s).bs.from_cutout = s.bs.from_cutout ∧ (effects s).bs.wire = s.bs.wire ∧
    (effects s).bs.preamble_bits = s.bs.preamble_bits ∧ (effects s).bs.railcom_enabled = s.bs.railcom_enabled := by
  obtain ⟨-, he⟩ | ⟨-, he⟩ | ⟨-, -, he⟩ | ⟨-, he⟩ | he := effects_cases s
  case inr.inl =>
    rw [he, railcomDeliver_bs]
    exact ⟨rfl, rfl, rfl, rfl, rfl, rfl⟩
  case inr.inr.inl =>
    obtain ⟨-, hslot, -, -, hpos, hcut, hwire, hbits, hrc, -⟩ := pullNext_engine hrun
    rw [he]
    exact ⟨hslot, hpos, hcut, hwire, hbits, hrc⟩
  all_goals
    rw [he]
    exact ⟨rfl, rfl, rfl, rfl, rfl, rfl⟩

/-- Only the hand-over changes the packet on the wire and the reference (R209). -/
theorem effects_cur {s : State} (hrun : s.bs.bs_run = true) (h : ¬ StopBit s.bs) :
    (effects s).bs.last_ref = s.bs.last_ref ∧ (effects s).bs.cur = s.bs.cur := by
  obtain ⟨-, he⟩ | ⟨-, he⟩ | ⟨-, -, he⟩ | ⟨hstop, -⟩ | he := effects_cases s
  case inr.inl =>
    rw [he, railcomDeliver_bs]
    exact ⟨rfl, rfl⟩
  case inr.inr.inl =>
    obtain ⟨-, -, hcur, href, -⟩ := pullNext_engine hrun
    rw [he]
    exact ⟨href, hcur⟩
  case inr.inr.inr.inl => exact absurd hstop h
  all_goals
    rw [he]
    exact ⟨rfl, rfl⟩

/-- Only the pull writes a packet slot, the mode, the cursor, the sequencer and the sensor, or stops the engine
(R207). -/
theorem effects_of_no_pull {s : State} (h : s.bs.pos ≠ .preamble 1) :
    (effects s).bs.slotA = s.bs.slotA ∧ (effects s).bs.slotB = s.bs.slotB ∧ (effects s).mode = s.mode ∧
    (effects s).rr_cursor = s.rr_cursor ∧ (effects s).svc = s.svc ∧ (effects s).cs = s.cs ∧
    (effects s).bs.bs_run = s.bs.bs_run := by
  obtain ⟨-, he⟩ | ⟨-, he⟩ | ⟨hpull, -⟩ | ⟨-, he⟩ | he := effects_cases s
  case inr.inl =>
    obtain ⟨_, _, _, hd, -⟩ := railcomDeliver_frame s
    rw [he, hd]
    exact ⟨rfl, rfl, rfl, rfl, rfl, rfl, rfl⟩
  case inr.inr.inl => exact absurd hpull h
  all_goals
    rw [he]
    exact ⟨rfl, rfl, rfl, rfl, rfl, rfl, rfl⟩

/-- Only the pull and the delivery write the throttles and the log. -/
theorem effects_thr_trace {s : State} (hpull : s.bs.pos ≠ .preamble 1) (hend : ¬ FrameEnd s.bs) :
    (effects s).thr = s.thr ∧ (effects s).trace = s.trace := by
  obtain ⟨-, he⟩ | ⟨h, -⟩ | ⟨h, -⟩ | ⟨-, he⟩ | he := effects_cases s
  case inr.inl => exact absurd h hend
  case inr.inr.inl => exact absurd h hpull
  all_goals
    rw [he]
    exact ⟨rfl, rfl⟩

/-- Only the UART reset and the delivery write the RailCom registers. -/
theorem effects_rc {s : State} (hcut : s.bs.pos ≠ .cutout CUTOUT_BITS) (hend : ¬ FrameEnd s.bs) :
    (effects s).rc = s.rc := by
  obtain ⟨h, -⟩ | ⟨h, -⟩ | ⟨-, -, he⟩ | ⟨-, he⟩ | he := effects_cases s
  · exact absurd h hcut
  · exact absurd h hend
  · rw [he, (pullNext_frame s).1]
    exact (pullPacket_kept s).2.2.1
  · rw [he]
    rfl
  · rw [he]

/-- An engine that an effect stops was stopped by the pull, with both signals constant (R207, R211, R320). -/
theorem effects_stopped {s : State} (hrun : s.bs.bs_run = true) (hstop : (effects s).bs.bs_run = false) :
    s.bs.pos = .preamble 1 ∧ (effects s).bs.dcc_sig = .const false ∧ (effects s).bs.dcc_pwr = .const false := by
  have hpull : s.bs.pos = .preamble 1 := by
    by_contra h
    obtain ⟨-, -, -, -, -, -, hkept⟩ := effects_of_no_pull h
    exact absurd (hstop.symm.trans (hkept.trans hrun)) (by decide)
  have hend : ¬ FrameEnd s.bs := fun h => by
    rw [effects_of_frameEnd h, railcomDeliver_bs, hrun] at hstop
    exact absurd hstop (by decide)
  obtain ⟨-, -, -, -, -, -, -, -, -, -, hwaves⟩ := pullNext_engine hrun
  rw [effects_pull hpull hend] at hstop ⊢
  exact ⟨hpull, hwaves hstop⟩

/-- The pull of the bit engine leaves the scheduler's registers as the scheduler's pull does (R207). -/
theorem pullNext_registers (s : State) : (pullNext s).thr = (pullPacket s).2.thr ∧
    (pullNext s).rr_cursor = (pullPacket s).2.rr_cursor ∧ (pullNext s).svc = (pullPacket s).2.svc ∧
    (pullNext s).mode = (pullPacket s).2.mode ∧ (pullNext s).cs = (pullPacket s).2.cs := by
  rw [(pullNext_frame s).1]
  exact ⟨rfl, rfl, rfl, rfl, rfl⟩

/-- A traced packet's line is all that the pull leaves in the log (R436). -/
theorem pullNext_trace (s : State) : (pullNext s).trace = (logWhen s.trace.trace_dcc (.packet (pullPacket s).1.pkt
    (codecReport s.cfg (s.mode == .Service) (pullPacket s).1.pkt)) s).trace := by
  obtain ⟨-, -, -, htrace, -⟩ := pullPacket_kept s
  unfold pullNext
  cases s.trace.trace_dcc with
  | false => exact htrace
  | true => simp only [logWhen, logLine, if_true, htrace]

/-! ### The advance (R205 steps 3 to 5) -/

/-- The bit-end step after the drain of the samples. -/
def turn (s : State) : State := drawLatency (advanceFrom s.bs (effects s))

theorem bitEnd_eq_turn {s : State} (hrun : s.bs.bs_run = true) : bitEnd s = turn (adcDrain s) := if_pos hrun

/-- `t` has the registers of `s` but those that the advance and the latency draws write. -/
structure AdvancedFrom (s t : State) : Prop where
  cfg : t.cfg = s.cfg
  mode : t.mode = s.mode
  thr : t.thr = s.thr
  thr_list : t.thr_list = s.thr_list
  rr_cursor : t.rr_cursor = s.rr_cursor
  svc : t.svc = s.svc
  cs : t.cs = s.cs
  rc : t.rc = s.rc
  trace : t.trace = s.trace
  now : t.now = s.now
  resp : t.resp = s.resp
  codec : t.codec = s.codec
  inputs : t.inputs = s.inputs
  slot : t.bs.slot = s.bs.slot
  cur : t.bs.cur = s.bs.cur
  last_ref : t.bs.last_ref = s.bs.last_ref
  bs_run : t.bs.bs_run = s.bs.bs_run
  preamble_bits : t.bs.preamble_bits = s.bs.preamble_bits
  railcom_enabled : t.bs.railcom_enabled = s.bs.railcom_enabled

theorem turn_advancedFrom (s : State) : AdvancedFrom (effects s) (turn s) := by
  unfold turn advanceFrom
  split <;> constructor <;> rfl

/-- A running engine goes on to the successor and emits its slot (R203, R204, R201). -/
theorem turn_running {s : State} (hrun : (turn s).bs.bs_run = true) :
    (turn s).bs.pos = succPos s.bs s.bs.pos ∧
    (turn s).bs.wire = slotOf (turn s).bs (turn s).bs.pos :: (effects s).bs.wire ∧
    (turn s).bs.from_cutout = (s.bs.pos == .cutout 1) ∧
    (turn s).bs.dcc_sig = sigWave (slotOf (turn s).bs (turn s).bs.pos) ∧
    (turn s).bs.dcc_pwr = pwrWave (slotOf (turn s).bs (turn s).bs.pos) := by
  have he : (effects s).bs.bs_run = true := (turn_advancedFrom s).bs_run.symm.trans hrun
  have hslot : slotOf (turn s).bs (succPos s.bs s.bs.pos) = slotOf (effects s).bs (succPos s.bs s.bs.pos) :=
    slotOf_congr (by rw [Bitstream.curPkt, Bitstream.curPkt, (turn_advancedFrom s).slot, (turn_advancedFrom s).cur]) _
  have hbs := (advanceFrom_frame s.bs (effects s)).2.2 he
  rw [show (turn s).bs.pos = succPos s.bs s.bs.pos from congrArg Bitstream.pos hbs, hslot]
  exact ⟨rfl, congrArg Bitstream.wire hbs, congrArg Bitstream.from_cutout hbs, congrArg Bitstream.dcc_sig hbs,
    congrArg Bitstream.dcc_pwr hbs⟩

/-- An engine stopped by the pull makes no advance. -/
theorem turn_stopped {s : State} (hrun : s.bs.bs_run = true) (hstop : (turn s).bs.bs_run = false) :
    s.bs.pos = .preamble 1 ∧ (turn s).bs.pos = s.bs.pos ∧ (turn s).bs.wire = s.bs.wire ∧
    (turn s).bs.from_cutout = s.bs.from_cutout ∧ (turn s).bs.dcc_sig = .const false ∧
    (turn s).bs.dcc_pwr = .const false := by
  have he : (effects s).bs.bs_run = false := (turn_advancedFrom s).bs_run.symm.trans hstop
  have hbs := (advanceFrom_frame s.bs (effects s)).2.1 he
  obtain ⟨hpull, hsig, hpwr⟩ := effects_stopped hrun he
  obtain ⟨-, hpos, hcut, hwire, -⟩ := effects_engine hrun
  exact ⟨hpull, (congrArg Bitstream.pos hbs).trans hpos, (congrArg Bitstream.wire hbs).trans hwire,
    (congrArg Bitstream.from_cutout hbs).trans hcut, (congrArg Bitstream.dcc_sig hbs).trans hsig,
    (congrArg Bitstream.dcc_pwr hbs).trans hpwr⟩

/-- The step at the last preamble bit: the packet pulled, and the state that the pull leaves (R207, R436). -/
theorem turn_pull {s : State} (hrun : s.bs.bs_run = true) (hpos : s.bs.pos = .preamble 1) (hend : ¬ FrameEnd s.bs) :
    (turn s).bs.slot s.bs.cur.other = (pullPacket s).1 ∧ (turn s).thr = (pullPacket s).2.thr ∧
    (turn s).rr_cursor = (pullPacket s).2.rr_cursor ∧ (turn s).svc = (pullPacket s).2.svc ∧
    (turn s).mode = (pullPacket s).2.mode ∧ (turn s).cs = (pullPacket s).2.cs ∧
    (turn s).bs.bs_run = (pullPacket s).2.bs.bs_run ∧
    (turn s).trace = (logWhen s.trace.trace_dcc (.packet (pullPacket s).1.pkt
      (codecReport s.cfg (s.mode == .Service) (pullPacket s).1.pkt)) s).trace := by
  have hadv := turn_advancedFrom s
  rw [effects_pull hpos hend] at hadv
  obtain ⟨hslot, -, -, -, -, -, -, -, -, hstop, -⟩ := pullNext_engine hrun
  obtain ⟨hthr, hcursor, hsvc, hmode, hcs⟩ := pullNext_registers s
  exact ⟨(congrFun hadv.slot _).trans hslot, hadv.thr.trans hthr, hadv.rr_cursor.trans hcursor, hadv.svc.trans hsvc,
    hadv.mode.trans hmode, hadv.cs.trans hcs, hadv.bs_run.trans hstop, hadv.trace.trans (pullNext_trace s)⟩

end Sys2Proof.Machine

open Sys2Proof Sys2Proof.Machine

/-- Settles O32: the drain writes no register that the claim compares with the state before it, and the clauses are read
off the effect of the position and the advance after it. -/
theorem bitEndEffects : Obligations.BitEndEffects := by
  intro s hrun
  obtain ⟨c, b, n, hdrain, -⟩ := adcDrain_frame s
  dsimp only
  rw [bitEnd_eq_turn hrun, hdrain]
  set d : State := { s with cs := c, svc := { s.svc with ack_seen := b }, draws := n }
  have hadv := turn_advancedFrom d
  obtain ⟨hcfg, hlist, hnow, hresp, hcodec, hinputs⟩ := effects_kept d
  obtain ⟨hslot, -, -, hwire, hbits, hrc⟩ := effects_engine (s := d) hrun
  refine ⟨fun hcut => ?cutout, ?stopBit, ?frameEnd, fun hpull hend => ?pull, fun hrun' => ?running,
    turn_stopped (s := d) hrun, (congrFun hadv.slot _).trans hslot, fun hstop => ?noStopBit, fun hpull => ?noPull,
    fun hpull hend => ?noThr, fun hcut hend => hadv.rc.trans (effects_rc (s := d) hcut hend),
    hadv.preamble_bits.trans hbits, hadv.railcom_enabled.trans hrc, hadv.cfg.trans hcfg, hadv.thr_list.trans hlist,
    hadv.now.trans hnow, hadv.resp.trans hresp, hadv.codec.trans hcodec, hadv.inputs.trans hinputs⟩
  case cutout => exact hadv.rc.trans (congrArg State.rc (effects_cutout (s := d) hcut))
  case stopBit =>
    rintro ⟨i, hp, hl⟩
    have he := congrArg State.bs (effects_stopBit (s := d) hp hl)
    exact ⟨hadv.last_ref.trans (congrArg Bitstream.last_ref he), hadv.cur.trans (congrArg Bitstream.cur he)⟩
  case frameEnd =>
    intro hend
    have he := effects_of_frameEnd (s := d) hend
    exact ⟨hadv.rc.trans (congrArg State.rc he), hadv.thr.trans (congrArg State.thr he),
      hadv.trace.trans (congrArg State.trace he)⟩
  case pull =>
    obtain ⟨hother, hthr, hcursor, hsvc, hmode, hcs, hstop, htrace⟩ := turn_pull (s := d) hrun hpull hend
    refine ⟨hother, hthr, hcursor, hsvc, hmode, hcs, hstop, fun hoff => ?_, fun hon => ?_⟩
    · exact htrace.trans (by rw [show d.trace.trace_dcc = false from hoff]; rfl)
    · exact htrace.trans (by rw [show d.trace.trace_dcc = true from hon]; rfl)
  case running =>
    obtain ⟨hpos, hwire', hcut, hsig, hpwr⟩ := turn_running hrun'
    refine ⟨hpos, by rw [hwire', hwire], by rw [hcut]; exact beq_iff_eq, ?_, ?_⟩
    · exact hsig.trans (congrArg Bitstream.dcc_sig (slotWaveforms _ s.bs))
    · exact hpwr.trans (congrArg Bitstream.dcc_pwr (slotWaveforms _ s.bs))
  case noStopBit =>
    obtain ⟨href, hcur⟩ := effects_cur (s := d) hrun hstop
    exact ⟨hadv.last_ref.trans href, hadv.cur.trans hcur⟩
  case noPull =>
    obtain ⟨hslotA, hslotB, hmode, hcursor, hsvc, hcs, hrun'⟩ := effects_of_no_pull (s := d) hpull
    exact ⟨(congrFun hadv.slot .A).trans hslotA, (congrFun hadv.slot .B).trans hslotB, hadv.mode.trans hmode,
      hadv.rr_cursor.trans hcursor, hadv.svc.trans hsvc, hadv.cs.trans hcs, hadv.bs_run.trans (hrun'.trans hrun)⟩
  case noThr =>
    obtain ⟨hthr, htrace⟩ := effects_thr_trace (s := d) hpull hend
    exact ⟨hadv.thr.trans hthr, hadv.trace.trans htrace⟩

end

section
/-! What the wire carries from one preamble to the next (41_bitstream.md R203 to R205, R209, R210, R213): the positions
of a packet as a walk from the preamble to the stop bit, then the hand-over, then the cutout. -/

namespace Sys2Proof.Machine

/-! ### The positions of one packet -/

/-- `p` is no message-stop bit of the packet of `b` (R209). -/
def NoStopBit (b : Bitstream) (p : Pos) : Prop := ∀ i, p = .trail i → i + 1 < b.curPkt.len

/-- The positions from `p` to `q` follow one another, none of them before `q` is the stop bit, and entering them emits
the slots `l`. -/
inductive Walk (b : Bitstream) : Pos → List SlotKind → Pos → Prop where
  | here (p : Pos) : Walk b p [] p
  | next {p q : Pos} {l : List SlotKind} : NoStopBit b p → Walk b (succPos b p) l q →
      Walk b p (slotOf b (succPos b p) :: l) q

theorem Walk.step {b : Bitstream} {p p' q : Pos} {k : SlotKind} {l : List SlotKind} (hp : NoStopBit b p)
    (hsucc : succPos b p = p') (hslot : slotOf b p' = k) (h : Walk b p' l q) : Walk b p (k :: l) q := by
  subst hsucc hslot
  exact .next hp h

theorem Walk.append {b : Bitstream} {p q r : Pos} {l m : List SlotKind} (h : Walk b p l q) (h' : Walk b q m r) :
    Walk b p (l ++ m) r := by
  induction h with
  | here => exact h'
  | next hp _ ih => exact .next hp (ih h')

/-- The rest of a preamble and the start bit (R91). -/
theorem walk_preamble (b : Bitstream) : ∀ r, Walk b (.preamble (r + 1)) (List.replicate r .One ++ [.Zero]) (.preamble 0)
  | 0 => .step nofun rfl rfl (.here _)
  | r + 1 => .step nofun rfl rfl (walk_preamble b r)

/-- The bits of a byte below bit `k`, and the slot behind the byte (R203). -/
theorem walk_bits {b : Bitstream} {i : Nat} {x : Byte} {sep : SlotKind} (hx : b.curPkt.bytes[i]? = some x)
    (hsep : slotOf b (.trail i) = sep) :
    ∀ k, Walk b (.data i k) ((List.range k).map (fun j => bitSlot (x.getLsbD (k - 1 - j))) ++ [sep]) (.trail i)
  | 0 => .step nofun rfl hsep (.here _)
  | k + 1 => by
    have hrest := walk_bits hx hsep k
    simp only [Nat.sub_sub, Nat.add_comm 1] at hrest
    rw [List.range_succ_eq_map, List.map_cons, List.map_map]
    exact .step nofun rfl (slotOf_data hx k) hrest

theorem walk_byte {b : Bitstream} {p : Pos} {i : Nat} {x : Byte} {sep : SlotKind} (hp : NoStopBit b p)
    (hsucc : succPos b p = .data i 7) (hx : b.curPkt.bytes[i]? = some x) (hsep : slotOf b (.trail i) = sep) :
    Walk b p (byteSlots x ++ [sep]) (.trail i) :=
  .step hp hsucc (slotOf_data hx 7) (walk_bits hx hsep 7)

/-- The bytes from byte `i` on, each with the slot behind it, up to the stop bit (R91, R213). -/
theorem walk_bytes {b : Bitstream} {l : List Byte} {i : Nat} {p : Pos} (hl : b.curPkt.bytes.drop i = l) (hne : l ≠ [])
    (hp : NoStopBit b p) (hsucc : succPos b p = .data i 7) : Walk b p (dataSlots l) (.trail (b.curPkt.len - 1)) := by
  induction l generalizing i p with
  | nil => exact absurd rfl hne
  | cons x l ih =>
    have hx : b.curPkt.bytes[i]? = some x := by
      have := congrArg (·[0]?) hl
      simpa using this
    have hrest : b.curPkt.bytes.drop (i + 1) = l := by rw [← List.tail_drop, hl, List.tail_cons]
    have hlen : b.curPkt.len - i = l.length + 1 := by rw [← List.length_drop, hl, List.length_cons]
    cases l with
    | nil =>
      rw [show b.curPkt.len - 1 = i by simp only [List.length_nil] at hlen; omega]
      exact walk_byte hp hsucc hx (slotOf_stopBit (by simp only [List.length_nil] at hlen; omega))
    | cons y t =>
      have hi : i + 1 < b.curPkt.len := by simp only [List.length_cons] at hlen; omega
      have hsep : NoStopBit b (.trail i) := fun j hj => by
        cases hj
        exact hi
      exact (walk_byte hp hsucc hx (slotOf_separator hi)).append (ih hrest nofun hsep (succPos_separator hi))

/-- A packet from a preamble bit to its stop bit. -/
theorem walk_packet {b : Bitstream} {r : Nat} (hr : 1 ≤ r) (hlen : 1 ≤ b.curPkt.len) :
    Walk b (.preamble r) (frameSlots (r - 1) false b.curPkt) (.trail (b.curPkt.len - 1)) := by
  obtain ⟨r, rfl⟩ : ∃ k, r = k + 1 := ⟨r - 1, by omega⟩
  rw [frameSlots, show cutoutSlots false = [] from rfl, List.append_nil]
  exact (walk_preamble b r).append (walk_bytes rfl (List.ne_nil_of_length_pos hlen) nofun rfl)

/-- The rest of the cutout and the first bit of the next preamble (R93). -/
theorem walk_cutout {b : Bitstream} (h : 1 ≤ b.preamble_bits) :
    Walk b (.cutout CUTOUT_BITS) [.CutoutN, .CutoutN, .CutoutN, .One] (.preamble b.preamble_bits) :=
  .step nofun rfl rfl (.step nofun rfl rfl (.step nofun rfl rfl (.step nofun rfl (slotOf_preamble b h) (.here _))))

theorem dataSlots_length : ∀ l : List Byte, (dataSlots l).length = 9 * l.length
  | [] => rfl
  | [_] => rfl
  | x :: y :: t => by
    rw [dataSlots, List.length_append, dataSlots_length (y :: t), List.length_append, byteSlots, List.length_map,
      List.length_range, List.length_cons (a := x), List.length_singleton]
    omega

theorem frameSlots_length (n : Nat) (p : DccPacket) : (frameSlots n false p).length = n + 1 + 9 * p.len := by
  rw [frameSlots, List.length_append, List.length_append, List.length_append, List.length_replicate, dataSlots_length]
  rfl

theorem frameSlots_succ (n : Nat) (railcom : Bool) (p : DccPacket) :
    frameSlots (n + 1) railcom p = .One :: frameSlots n railcom p := rfl

theorem frameSlots_cutout (n : Nat) (railcom : Bool) (p : DccPacket) :
    frameSlots n railcom p = frameSlots n false p ++ cutoutSlots railcom := by
  rw [frameSlots, frameSlots, show cutoutSlots false = [] from rfl, List.append_nil]

/-! ### The bit ends of one packet (R205, R209) -/

theorem bitEnds_add (m n : Nat) (s : State) : bitEnds (m + n) s = bitEnds n (bitEnds m s) := by
  induction m generalizing s with
  | zero => rw [Nat.zero_add, bitEnds]
  | succ m ih => rw [Nat.succ_add, bitEnds, ih, bitEnds]

/-- An engine that a bit end leaves running was running. -/
theorem running_of_bitEnd {s : State} (h : (bitEnd s).bs.bs_run = true) : s.bs.bs_run = true := by
  by_contra hrun
  rw [bitEnd_stopped (Bool.eq_false_iff.2 hrun)] at h
  exact hrun h

theorem running_of_bitEnds {n : Nat} {s : State} (h : (bitEnds n s).bs.bs_run = true) : s.bs.bs_run = true := by
  induction n generalizing s with
  | zero => exact h
  | succ n ih => exact running_of_bitEnd (ih h)

/-- The bit engine `c` sends the packet that `b` sends: what the slots and the positions of a packet depend on, and the
reference that the hand-over changes. -/
structure SamePacket (b c : Bitstream) : Prop where
  cur : c.cur = b.cur
  slot : c.slot b.cur = b.slot b.cur
  last_ref : c.last_ref = b.last_ref
  preamble_bits : c.preamble_bits = b.preamble_bits
  railcom_enabled : c.railcom_enabled = b.railcom_enabled

theorem SamePacket.refl (b : Bitstream) : SamePacket b b := ⟨rfl, rfl, rfl, rfl, rfl⟩

theorem SamePacket.curPkt {b c : Bitstream} (h : SamePacket b c) : c.curPkt = b.curPkt := by
  rw [Bitstream.curPkt, h.cur, h.slot, Bitstream.curPkt]

theorem SamePacket.succPos {b c : Bitstream} (h : SamePacket b c) (p : Pos) :
    Machine.succPos c p = Machine.succPos b p := by
  cases p with
  | preamble | data => rfl
  | trail => simp only [Machine.succPos, h.curPkt, h.railcom_enabled, h.preamble_bits]
  | cutout => simp only [Machine.succPos, h.preamble_bits]

theorem SamePacket.trans {b c d : Bitstream} (h : SamePacket b c) (h' : SamePacket c d) : SamePacket b d where
  cur := h'.cur.trans h.cur
  slot := by rw [← h.cur, h'.slot, h.cur, h.slot]
  last_ref := h'.last_ref.trans h.last_ref
  preamble_bits := h'.preamble_bits.trans h.preamble_bits
  railcom_enabled := h'.railcom_enabled.trans h.railcom_enabled

/-- A bit end away from the stop bit, after which the engine still runs, goes one position on in the same packet. -/
theorem bitEnd_samePacket {s : State} (hp : NoStopBit s.bs s.bs.pos) (hrun : (bitEnd s).bs.bs_run = true) :
    SamePacket s.bs (bitEnd s).bs ∧ (bitEnd s).bs.pos = succPos s.bs s.bs.pos ∧
    (bitEnd s).bs.wire = slotOf s.bs (succPos s.bs s.bs.pos) :: s.bs.wire := by
  obtain ⟨-, -, -, -, hgo, -, hslot, hkept, -, -, -, hbits, hrc, -⟩ := bitEndEffects s (running_of_bitEnd hrun)
  obtain ⟨hpos, hwire, -⟩ := hgo hrun
  obtain ⟨href, hcur⟩ := hkept fun ⟨i, hi, hlast⟩ => absurd (hp i hi) (by omega)
  have hsame : SamePacket s.bs (bitEnd s).bs := ⟨hcur, hslot, href, hbits, hrc⟩
  exact ⟨hsame, hpos, by rw [hwire, hpos, slotOf_congr hsame.curPkt]⟩

/-- The bit end at the stop bit hands over, and emits the first slot behind the packet (R209). -/
theorem bitEnd_stopBit {s : State} {i : Nat} (hp : s.bs.pos = .trail i) (hlast : s.bs.curPkt.len ≤ i + 1)
    (hrun : (bitEnd s).bs.bs_run = true) :
    (bitEnd s).bs.cur = s.bs.cur.other ∧ (bitEnd s).bs.last_ref = (s.bs.slot s.bs.cur).ref ∧
    (bitEnd s).bs.preamble_bits = s.bs.preamble_bits ∧
    (bitEnd s).bs.pos = (if s.bs.railcom_enabled then .cutout CUTOUT_BITS else .preamble s.bs.preamble_bits) ∧
    (bitEnd s).bs.wire = slotOf (bitEnd s).bs (bitEnd s).bs.pos :: s.bs.wire := by
  obtain ⟨-, hstop, -, -, hgo, -, -, -, -, -, -, hbits, -⟩ := bitEndEffects s (running_of_bitEnd hrun)
  obtain ⟨hpos, hwire, -⟩ := hgo hrun
  obtain ⟨href, hcur⟩ := hstop ⟨i, hp, hlast⟩
  exact ⟨hcur, href, hbits, by rw [hpos, hp, succPos_stopBit hlast], hwire⟩

/-- While the engine runs, as many bit ends as a walk has slots make the walk. -/
theorem Walk.bitEnds {b : Bitstream} {p q : Pos} {l : List SlotKind} (h : Walk b p l q) {s : State}
    (hb : SamePacket b s.bs) (hp : s.bs.pos = p) (hrun : (bitEnds l.length s).bs.bs_run = true) :
    SamePacket b (bitEnds l.length s).bs ∧ (bitEnds l.length s).bs.pos = q ∧
    (bitEnds l.length s).bs.wire = l.reverse ++ s.bs.wire := by
  induction h generalizing s with
  | here => exact ⟨hb, hp, rfl⟩
  | next hstop _ ih =>
    subst hp
    obtain ⟨hsame, hpos, hwire⟩ := bitEnd_samePacket (fun i hi => by rw [hb.curPkt]; exact hstop i hi)
      (running_of_bitEnds hrun)
    obtain ⟨hsame', hpos', hwire'⟩ := ih (hb.trans hsame) (by rw [hpos, hb.succPos]) hrun
    refine ⟨hsame', hpos', hwire'.trans ?_⟩
    rw [hwire, hb.succPos, slotOf_congr hb.curPkt, List.reverse_cons, List.append_assoc, List.singleton_append]

/-- From a preamble bit of a packet to the slot behind its stop bit (R209, R213). -/
theorem bitEnds_handOver {s : State} {r : Nat} (hr : 1 ≤ r) (hp : s.bs.pos = .preamble r) (hlen : 1 ≤ s.bs.curPkt.len)
    (hrun : (bitEnds (r + 1 + 9 * s.bs.curPkt.len) s).bs.bs_run = true) :
    let t := bitEnds (r + 1 + 9 * s.bs.curPkt.len) s
    t.bs.cur = s.bs.cur.other ∧ t.bs.last_ref = (s.bs.slot s.bs.cur).ref ∧ t.bs.preamble_bits = s.bs.preamble_bits ∧
    t.bs.pos = (if s.bs.railcom_enabled then .cutout CUTOUT_BITS else .preamble s.bs.preamble_bits) ∧
    t.bs.wire = slotOf t.bs t.bs.pos :: ((frameSlots (r - 1) false s.bs.curPkt).reverse ++ s.bs.wire) := by
  have hwalk := walk_packet hr hlen
  have hcount : r + 1 + 9 * s.bs.curPkt.len = (frameSlots (r - 1) false s.bs.curPkt).length + 1 := by
    rw [frameSlots_length]
    omega
  rw [hcount, bitEnds_add] at hrun ⊢
  obtain ⟨hsame, hpos, hwire⟩ := hwalk.bitEnds (.refl _) hp (running_of_bitEnd hrun)
  obtain ⟨hcur, href, hbits, hpos', hwire'⟩ := bitEnd_stopBit hpos (by rw [hsame.curPkt]; omega) hrun
  exact ⟨hcur.trans (congrArg _ hsame.cur), href.trans (by rw [hsame.cur, hsame.slot]), hbits.trans hsame.preamble_bits,
    hpos'.trans (by rw [hsame.railcom_enabled, hsame.preamble_bits]), hwire'.trans (by rw [hwire, bitEnds, bitEnds])⟩

/-- From a preamble bit of a packet to the first preamble bit of the next (R213). -/
theorem bitEnds_packet {s : State} {r : Nat} (hbits : 1 ≤ s.bs.preamble_bits) (hr : 1 ≤ r) (hp : s.bs.pos = .preamble r)
    (hlen : 1 ≤ s.bs.curPkt.len)
    (hrun : (bitEnds (r + 1 + 9 * s.bs.curPkt.len + (if s.bs.railcom_enabled then 4 else 0)) s).bs.bs_run = true) :
    let t := bitEnds (r + 1 + 9 * s.bs.curPkt.len + (if s.bs.railcom_enabled then 4 else 0)) s
    t.bs.wire = (frameSlots (r - 1) s.bs.railcom_enabled s.bs.curPkt ++ [SlotKind.One]).reverse ++ s.bs.wire ∧
    t.bs.pos = .preamble s.bs.preamble_bits ∧ t.bs.cur = s.bs.cur.other ∧
    t.bs.last_ref = (s.bs.slot s.bs.cur).ref := by
  rw [bitEnds_add] at hrun ⊢
  obtain ⟨hcur, href, hkept, hpos, hwire⟩ := bitEnds_handOver hr hp hlen (running_of_bitEnds hrun)
  generalize bitEnds (r + 1 + 9 * s.bs.curPkt.len) s = t at *
  rw [← hkept] at hbits hpos
  rw [frameSlots_cutout, List.reverse_append, List.reverse_append]
  cases hrc : s.bs.railcom_enabled with
  | false =>
    rw [hrc] at hpos
    rw [hpos] at hwire
    refine ⟨hwire.trans ?_, hpos.trans (by rw [hkept]; rfl), hcur, href⟩
    rw [if_neg Bool.false_ne_true, slotOf_preamble _ hbits]
    rfl
  | true =>
    rw [hrc] at hpos hrun
    obtain ⟨hsame, hpos', hwire'⟩ := (walk_cutout hbits).bitEnds (.refl _) hpos hrun
    rw [hpos] at hwire
    refine ⟨hwire'.trans ?_, hpos'.trans (by rw [hkept]), hsame.cur.trans hcur, hsame.last_ref.trans href⟩
    rw [hwire]
    rfl

/-- From a start to the first preamble bit behind its template: two ones are emitted by the start itself (R210). -/
theorem bitEnds_start {p0 : Nat} {tmpl : DccPacket} {s : State} (h : 2 ≤ p0) (hlen : tmpl.len = 3)
    (hrun : (bitEnds (p0 + s.cfg.start_extra_ones + 27 + (if s.cfg.railcom_enabled then 4 else 0))
      (start p0 tmpl s)).bs.bs_run = true) :
    let t := bitEnds (p0 + s.cfg.start_extra_ones + 27 + (if s.cfg.railcom_enabled then 4 else 0)) (start p0 tmpl s)
    t.bs.wire = (frameSlots (p0 + s.cfg.start_extra_ones) s.cfg.railcom_enabled tmpl ++ [SlotKind.One]).reverse ++
      s.bs.wire ∧
    t.bs.pos = .preamble p0 ∧ t.bs.cur = .B ∧ t.bs.last_ref = none := by
  obtain ⟨n, hn⟩ : ∃ n, p0 + s.cfg.start_extra_ones = n + 2 := ⟨p0 + s.cfg.start_extra_ones - 2, by omega⟩
  have hcount : n + 2 + 27 = n + 1 + 1 + 9 * tmpl.len := by rw [hlen]
  have hpacket := bitEnds_packet (s := start p0 tmpl s) (r := n + 1)
  rw [start_eq (by omega), hn] at hpacket
  rw [start_eq (by omega), hn, hcount] at hrun ⊢
  obtain ⟨hwire, hpos, hcur, href⟩ := hpacket (Nat.le_of_succ_le h) (Nat.le_add_left 1 n) rfl
    (show 1 ≤ tmpl.len by omega) hrun
  refine ⟨hwire.trans ?_, hpos, hcur, href⟩
  rw [frameSlots_succ, frameSlots_succ, List.cons_append, List.cons_append, List.reverse_cons, List.reverse_cons,
    List.append_assoc, List.append_assoc]
  rfl

end Sys2Proof.Machine

open Sys2Proof Sys2Proof.Machine

/-- Settles O33: the walk through the packet, the hand-over and the walk through the cutout, from any preamble bit; and
from the first that a start leaves. -/
theorem wireCarriesThePacket : Obligations.WireCarriesThePacket :=
  ⟨fun _ _ _ hbits hr hp hlen hrun => bitEnds_packet hbits hr hp hlen hrun,
    fun _ => ⟨fun hrun => bitEnds_start (by decide) rfl hrun, fun hrun => bitEnds_start (by decide) rfl hrun⟩⟩

end

section
/-! The class of a raw byte, what a byte without one does to its frame, and the messages that reach no throttle
(42_railcom.md R245, R246, R250, R252; R387). -/

namespace Sys2Proof.Machine

/-! ### The raw bytes of a symbol (R246) -/

/-- The byte carries the symbol in the version: the rows of R246. `INV` has no row of its own. -/
def Carries (v : RailcomVersion) (b : Byte) : Sym → Prop
  | .data d => b = codeOf d
  | .ack => b = 0xF0#8 ∨ (b = 0x0F#8 ∧ v = .v2021)
  | .nak => b = 0x3C#8
  | .bsy => b = 0xE1#8 ∧ v = .v2012
  | .inv => False

/-- A byte found in the code table is the code of its place. -/
theorem eq_codeOf_of_findIdx? {b : Byte} {i : Nat} (h : codeTable.findIdx? (· == b) = some i) :
    b = codeOf (BitVec.ofNat 6 i) := by
  obtain ⟨hi, hb, -⟩ := List.findIdx?_eq_some_iff_getElem.1 h
  have hlen : codeTable.length = 2 ^ 6 := rfl
  rw [codeOf, BitVec.toNat_ofNat, Nat.mod_eq_of_lt (hlen ▸ hi), List.getD_eq_getElem _ _ hi]
  exact (beq_iff_eq.1 hb).symm

theorem carries_rcClass (v : RailcomVersion) (b : Byte) (h : rcClass v b ≠ .inv) : Carries v b (rcClass v b) := by
  unfold rcClass at h ⊢
  split
  next i hcode => exact eq_codeOf_of_findIdx? hcode
  next hcode =>
    rw [hcode] at h
    split_ifs at h ⊢ with hack hnak hbsy
    · exact hack
    · exact hnak
    · exact hbsy
    · exact absurd rfl h

theorem rcClass_of_carries {v : RailcomVersion} {b : Byte} {x : Sym} (h : Carries v b x) : rcClass v b = x := by
  cases x with
  | data d => rw [show b = codeOf d from h, rcClass_codeOf]
  | ack =>
    obtain rfl | ⟨rfl, rfl⟩ := h
    · cases v <;> rfl
    · rfl
  | nak => cases show b = 0x3C#8 from h; cases v <;> rfl
  | bsy => obtain ⟨rfl, rfl⟩ := h; rfl
  | inv => exact h.elim

/-- Outside `INV` the class of a byte is exactly the symbol that it carries. -/
theorem rcClass_eq_iff {v : RailcomVersion} {b : Byte} {x : Sym} (hx : x ≠ .inv) :
    rcClass v b = x ↔ Carries v b x :=
  ⟨fun h => h ▸ carries_rcClass v b (h ▸ hx), rcClass_of_carries⟩

theorem codeOf_weight (d : BitVec 6) : ((codeOf d).toNat.bits.filter (· == true)).length = 4 := by
  revert d; decide

/-! ### An invalid symbol in a frame (R250, R252) -/

theorem rcCh2_of_inv_mem {t : List Sym} (h : Sym.inv ∈ t) : rcCh2 t = [] := by
  rw [rcCh2, rcCh2Loop_inv _ t h, Option.getD_none]

/-- Channel 1 takes two data symbols from the head. -/
theorem rcCh1_data {t r : List Sym} {m : RcMsg} (h : rcCh1 t = (some m, r)) :
    ∃ s0 s1, t = .data s0 :: .data s1 :: r := by
  unfold rcCh1 at h
  split at h
  · split_ifs at h <;> cases h <;> exact ⟨_, _, rfl⟩
  · cases h

/-- The symbols that channel 1 leaves still hold an invalid symbol of the frame. -/
theorem inv_mem_rcCh1_rest {t : List Sym} (h : Sym.inv ∈ t) : Sym.inv ∈ (rcCh1 t).2 := by
  cases hch1 : (rcCh1 t).1 with
  | none => rwa [rcCh1_none hch1]
  | some m =>
    obtain ⟨s0, s1, ht⟩ := rcCh1_data (Prod.ext hch1 rfl)
    rw [ht] at h
    simpa using h

theorem rcCh1_of_inv {t : List Sym} {k : Nat} (hk : k < 2) (h : t[k]? = some .inv) : (rcCh1 t).1 = none := by
  cases hch1 : (rcCh1 t).1 with
  | none => rfl
  | some m =>
    obtain ⟨s0, s1, ht⟩ := rcCh1_data (Prod.ext hch1 rfl)
    rw [ht] at h
    obtain rfl | rfl : k = 0 ∨ k = 1 := by omega
    all_goals cases h

/-! ### A message that reaches no throttle (R387) -/

/-- It takes its place in channel 2, and that is all. -/
theorem exec_msgInstr_channel2 {m : RcMsg} {s : State} (hm : ∀ i s, deliverTo i m s = s)
    (hplace : (∀ v, m ≠ .ahi v ∧ m ≠ .alo v) ∨ s.rc.rc_ch1 ≠ none ∨ s.rc.rc_ch2 ≠ [])
    (hbsy : m = .bsy → s.cfg.railcom_version = .v2012) :
    exec (msgInstr m) s = .next { s with rc := { s.rc with rc_ch2 := s.rc.rc_ch2 ++ [m] } } := by
  rw [exec_msgInstr hbsy, runMsg, deliverLast_none m hm, recordMsg_ch2 m s hplace]

/-- AHI or ALO as the first message of the frame is channel 1, and that is all (R250, R253). -/
theorem exec_msgInstr_channel1 {m : RcMsg} {s : State} (hm : (∃ v, m = .ahi v) ∨ ∃ v, m = .alo v)
    (h : s.rc.rc_ch1 = none ∧ s.rc.rc_ch2 = []) :
    exec (msgInstr m) s = .next { s with rc := { s.rc with rc_ch1 := some m } } := by
  have hbsy : m ≠ .bsy := by
    rintro rfl
    obtain ⟨v, hv⟩ | ⟨v, hv⟩ := hm <;> cases hv
  rw [exec_msgInstr (absurd · hbsy), runMsg_channel1 hm h]

theorem exec_rcAck2021_in_2021 {s : State} (h : s.cfg.railcom_version = .v2021) :
    exec .rcAck2021 s = exec .rcAck s := by
  show execRcAck2021 s = execRcAck s
  rw [execRcAck2021, h, execRcAck]

theorem exec_rcAck2021_in_2012 {s : State} (h : s.cfg.railcom_version = .v2012) :
    exec .rcAck2021 s = .next (clearCh2 s) := by
  show execRcAck2021 s = _
  rw [execRcAck2021, h]

theorem exec_rcBsy_in_2021 {s : State} (h : s.cfg.railcom_version = .v2021) :
    exec .rcBsy s = .next (clearCh2 s) := by
  show execRcBsy s = _
  rw [execRcBsy, h]

end Sys2Proof.Machine

open Sys2Proof Sys2Proof.Machine

/-- Settles O25: the symbols that channel 1 leaves still hold the invalid one, and channel 1 is two data symbols. -/
theorem corruptFrameDropsChannel2 : Obligations.CorruptFrameDropsChannel2 := by
  intro v raw k hk hinv
  have hget : (raw.map (rcClass v))[k]? = some .inv := by
    rw [List.getElem?_map, List.getElem?_eq_getElem hk, Option.map_some, ← List.getD_eq_getElem _ 0#8 hk, hinv]
  exact ⟨rcCh2_of_inv_mem (inv_mem_rcCh1_rest (List.mem_of_getElem? hget)), fun hk2 => rcCh1_of_inv hk2 hget⟩

/-- Settles O23: a class other than `INV` is the symbol that the byte carries. -/
theorem rawSymbolClasses : Obligations.RawSymbolClasses := fun _ _ =>
  ⟨fun _ => rcClass_eq_iff nofun, codeOf_weight, rcClass_eq_iff nofun, rcClass_eq_iff nofun, rcClass_eq_iff nofun⟩

/-- Settles O26: each of the messages reaches no throttle and is recorded where it stands in the frame; a symbol of one
version is a message in that version and clears channel 2 in the other. -/
theorem railcomMessagesWithoutThrottleEffect : Obligations.RailcomMessagesWithoutThrottleEffect := by
  intro s val d0 d1 d2 d3 p ss rec2
  have hack : exec .rcAck s = .next (rec2 .ack) :=
    exec_msgInstr_channel2 (m := .ack) (fun _ _ => rfl) (.inl fun _ => ⟨nofun, nofun⟩) nofun
  exact ⟨hack,
    exec_msgInstr_channel2 (m := .nak) (fun _ _ => rfl) (.inl fun _ => ⟨nofun, nofun⟩) nofun,
    exec_msgInstr_channel2 (m := .ext p) (fun _ _ => rfl) (.inl fun _ => ⟨nofun, nofun⟩) nofun,
    exec_msgInstr_channel2 (m := .xpom ss d0 d1 d2 d3) (fun _ _ => rfl) (.inl fun _ => ⟨nofun, nofun⟩) nofun,
    fun h2021 => ⟨(exec_rcAck2021_in_2021 h2021).trans hack, exec_rcBsy_in_2021 h2021⟩,
    fun h2012 => ⟨exec_msgInstr_channel2 (m := .bsy) (fun _ _ => rfl) (.inl fun _ => ⟨nofun, nofun⟩) fun _ => h2012,
      exec_rcAck2021_in_2012 h2012⟩,
    fun hfirst => ⟨exec_msgInstr_channel1 (m := .ahi val) (.inl ⟨val, rfl⟩) hfirst,
      exec_msgInstr_channel1 (m := .alo val) (.inr ⟨val, rfl⟩) hfirst⟩,
    fun hlater => ⟨exec_msgInstr_channel2 (m := .ahi val) (fun _ _ => rfl) (.inr hlater) nofun,
      exec_msgInstr_channel2 (m := .alo val) (fun _ _ => rfl) (.inr hlater) nofun⟩⟩

end

section
/-! The current sensor (43_current_sensor.md R281 to R290): the sample ring read from its head is a shift register, from
which the two averages follow; the sample FIFO when it is full; the milliamp conversion; the ack comparison. -/

namespace Sys2Proof.Machine

/-! ### The sample ring as a shift register (R284) -/

/-- The samples of the ring, oldest first: the head is where the oldest stands (R284). -/
def samplesOldestFirst (c : Sensor) : List (BitVec 12) := c.cs_ring.rotate c.cs_head

/-- The ring has `n` places, and the head is one of them. -/
structure RingOk (n : Nat) (c : Sensor) : Prop where
  length : c.cs_ring.length = n
  head : c.cs_head < n

theorem RingOk.ringWrite {n : Nat} {c : Sensor} (h : RingOk n c) (x : BitVec 12) : RingOk n (ringWrite n x c) :=
  ⟨List.length_set.trans h.length, Nat.mod_lt _ (Nat.zero_lt_of_lt h.head)⟩

theorem RingOk.foldl_ringWrite {n : Nat} {c : Sensor} (h : RingOk n c) (l : List (BitVec 12)) :
    RingOk n (l.foldl (fun c x => Machine.ringWrite n x c) c) := by
  induction l generalizing c with
  | nil => exact h
  | cons x l ih => exact ih (h.ringWrite x)

theorem samplesOldestFirst_length {n : Nat} {c : Sensor} (h : RingOk n c) : (samplesOldestFirst c).length = n :=
  (List.length_rotate ..).trans h.length

/-- A write takes the place of the oldest sample and becomes the newest. -/
theorem samplesOldestFirst_ringWrite {n : Nat} {c : Sensor} (h : RingOk n c) (x : BitVec 12) :
    samplesOldestFirst (ringWrite n x c) = (samplesOldestFirst c).tail ++ [x] := by
  obtain ⟨rfl, hhead⟩ := h
  have hset : (c.cs_ring.set c.cs_head x).length = c.cs_ring.length := List.length_set
  calc (c.cs_ring.set c.cs_head x).rotate ((c.cs_head + 1) % c.cs_ring.length)
      = (c.cs_ring.set c.cs_head x).rotate (c.cs_head + 1) := by rw [← hset, List.rotate_mod]
    _ = c.cs_ring.drop (c.cs_head + 1) ++ (c.cs_ring.take c.cs_head ++ [x]) := by
        rw [List.rotate_eq_drop_append_take (hset ▸ hhead), List.drop_set_of_lt (Nat.lt_succ_self _),
          List.take_succ_eq_append_getElem (hset ▸ hhead), List.getElem_set_self,
          List.take_set_of_le (Nat.le_refl _)]
    _ = (c.cs_ring.rotate c.cs_head).tail ++ [x] := by
        rw [List.rotate_eq_drop_append_take hhead.le, List.drop_eq_getElem_cons hhead, List.cons_append,
          List.tail_cons, List.append_assoc]

/-- Any number of writes: the ring keeps the newest samples. -/
theorem samplesOldestFirst_foldl_ringWrite {n : Nat} {c : Sensor} (h : RingOk n c) (l : List (BitVec 12)) :
    samplesOldestFirst (l.foldl (fun c x => ringWrite n x c) c) = (samplesOldestFirst c ++ l).drop l.length := by
  induction l generalizing c with
  | nil => simp
  | cons x l ih =>
    have hne : samplesOldestFirst c ≠ [] :=
      List.ne_nil_of_length_pos (samplesOldestFirst_length h ▸ Nat.zero_lt_of_lt h.head)
    rw [List.foldl_cons, ih (h.ringWrite x), samplesOldestFirst_ringWrite h, List.append_assoc, List.singleton_append,
      ← List.tail_append_of_ne_nil hne, List.drop_tail, List.length_cons]

/-! ### The averages of the newest samples (R285, R286) -/

/-- The long average does not see where the head stands. -/
theorem longAvgRaw_eq (n : Nat) (c : Sensor) :
    longAvgRaw n c = ((samplesOldestFirst c).map BitVec.toNat).sum / n := by
  rw [longAvgRaw, samplesOldestFirst, ((List.rotate_perm c.cs_ring c.cs_head).map BitVec.toNat).sum_eq]

/-- The `k`-th newest sample is the `k`-th from the end. -/
theorem sampleBack_eq {n : Nat} {c : Sensor} (h : RingOk n c) {k : Nat} (hk : k < n) :
    sampleBack n c k = ((samplesOldestFirst c).map BitVec.toNat).reverse.getD k 0 := by
  obtain ⟨rfl, hhead⟩ := h
  have hplace : c.cs_head + (k + 1) * c.cs_ring.length - 1 - k =
      c.cs_ring.length - 1 - k + c.cs_head + c.cs_ring.length * k := by
    rw [Nat.succ_mul, Nat.mul_comm k]
    omega
  rw [sampleBack, hplace, Nat.add_mul_mod_self_left, List.getD_eq_getElem _ _ (Nat.mod_lt _ (Nat.zero_lt_of_lt hk)),
    List.getD_eq_getElem _ _ (by simpa [samplesOldestFirst] using hk)]
  simp [samplesOldestFirst, List.getElem_rotate]

/-- The short average is that of the last 16, in a ring that holds them. -/
theorem shortAvgRaw_eq {n : Nat} {c : Sensor} (h : RingOk n c) (hn : 16 ≤ n) :
    shortAvgRaw n c = (((samplesOldestFirst c).drop (n - 16)).map BitVec.toNat).sum / 16 := by
  have hlength := samplesOldestFirst_length h
  have hnewest : (List.range 16).map (sampleBack n c) =
      (((samplesOldestFirst c).drop (n - 16)).map BitVec.toNat).reverse := by
    rw [List.map_drop, List.reverse_drop, List.length_map, hlength, Nat.sub_sub_self hn]
    refine List.ext_getElem (by simpa [hlength] using hn) fun k hk hk' => ?_
    have hkn : k < n := by
      rw [List.length_map, List.length_range] at hk
      omega
    rw [List.getElem_map, List.getElem_range, sampleBack_eq h hkn, List.getElem_take,
      List.getD_eq_getElem _ _ (by simpa [hlength] using hkn)]
  rw [shortAvgRaw, show SHORT_AVG_N = 16 from rfl, hnewest, List.sum_reverse]

/-! ### The sample FIFO (R281) -/

@[simp] theorem flagNewest_append_singleton (older : List (BitVec 12 × Bool)) (newest : BitVec 12 × Bool) :
    flagNewest (older ++ [newest]) = older ++ [(newest.1, true)] := by
  simp [flagNewest]

theorem adcSample_room {s : State} (raw : BitVec 12) (err : Bool) (hrun : s.cs.adc_run = true)
    (hroom : s.cs.adc_fifo.length < s.cfg.adc_fifo_depth) :
    adcSample raw err s = { s with cs := { s.cs with adc_fifo := s.cs.adc_fifo ++ [(raw, err)] } } := by
  rw [adcSample, if_pos hrun, if_pos hroom]

theorem adcSample_full {s : State} (raw : BitVec 12) (err : Bool) {older : List (BitVec 12 × Bool)}
    {newest : BitVec 12 × Bool} (hrun : s.cs.adc_run = true) (hfull : s.cfg.adc_fifo_depth ≤ s.cs.adc_fifo.length)
    (hfifo : s.cs.adc_fifo = older ++ [newest]) :
    adcSample raw err s = { s with cs := { s.cs with adc_fifo := older ++ [(newest.1, true)] } } := by
  rw [adcSample, if_pos hrun, if_neg (Nat.not_lt.2 hfull), hfifo, flagNewest_append_singleton]

/-! ### The milliamp conversion (R287) and the ack comparison (R290) -/

theorem toMA_mono {a b : Nat} (h : a ≤ b) : toMA a ≤ toMA b := by
  unfold toMA
  gcongr

/-- The product before the last division, at its largest for the largest 12-bit code. -/
theorem toMA_product_le {raw : Nat} (h : raw ≤ 4095) : ((raw * 3300 + 2048) / 4096) * 7447 ≤ 24567653 :=
  calc ((raw * 3300 + 2048) / 4096) * 7447
      ≤ ((4095 * 3300 + 2048) / 4096) * 7447 := by gcongr
    _ = 24567653 := by norm_num

theorem ackCheck_reached {s : State} (harmed : s.svc.ack_armed = true) (h : s.svc.ack_threshold_mA ≤ shortAvgMA s) :
    ackCheck s = { s with svc := { s.svc with ack_seen := true } } :=
  if_pos ⟨harmed, h⟩

theorem ackCheck_not_reached {s : State} (h : s.svc.ack_armed = false ∨ shortAvgMA s < s.svc.ack_threshold_mA) :
    ackCheck s = s := by
  refine if_neg fun ⟨harmed, hreached⟩ => ?_
  obtain hoff | hbelow := h
  · exact absurd (hoff.symm.trans harmed) nofun
  · exact absurd hreached (Nat.not_le.2 hbelow)

end Sys2Proof.Machine

open Sys2Proof Sys2Proof.Machine

/-- Settles O37: the ring read from its head is a shift register, so a ring's length of samples leaves exactly these. -/
theorem averagesOfTheLastSamples : Obligations.AveragesOfTheLastSamples := by
  intro n c l hn hlength hhead hl t
  have hok : RingOk n c := ⟨hlength, hhead⟩
  have hsamples : samplesOldestFirst t = l := by
    rw [samplesOldestFirst_foldl_ringWrite hok, hl, List.drop_left' (samplesOldestFirst_length hok)]
  exact ⟨hsamples ▸ longAvgRaw_eq n t, hsamples ▸ shortAvgRaw_eq (hok.foldl_ringWrite l) hn⟩

/-- Settles O35: the step is the sample on the state without the event, and a FIFO with room differs from a full one. -/
theorem adcSampleQueues : Obligations.AdcSampleQueues := by
  intro s rest raw err hin hrun
  constructor
  · exact fun hroom => (step_cons hin).trans (congrArg Host.Outcome.next (adcSample_room raw err hrun hroom))
  · exact fun _ _ hfull hfifo =>
      (step_cons hin).trans (congrArg Host.Outcome.next (adcSample_full raw err hrun hfull hfifo))

/-- Settles O38: the formula is the model's, each of its divisions is monotone, and the rest are values. -/
theorem milliampConversion : Obligations.MilliampConversion :=
  ⟨fun _ => rfl, fun _ _ => toMA_mono, fun _ => toMA_product_le, by decide⟩

/-- Settles O39: the comparison by its two outcomes; the arming is the model's own update. -/
theorem ackDetector : Obligations.AckDetector :=
  fun _ => ⟨ackCheck_reached, ackCheck_not_reached, rfl⟩

end

section
/-! The service-mode sequencer (44_scheduler.md R315 to R322): the packet handed out in each phase, the outcome of a block
by its operation, and a whole operation as runs of pulls that count a phase down. -/

namespace Sys2Proof.Machine

/-! ### The command packet (R316) -/

/-- A service-mode packet of a CV operation as numbers, with its checksum (R110). -/
theorem plainPacket_cvInstr (p : BitVec 4) (g : BitVec 2) (v : BitVec 10) (d : Byte) :
    plainPacket (cvInstr p g v d) = { bytes :=
      [(p ++ g ++ 0#2) ||| (v >>> 8).setWidth 8, v.setWidth 8, d,
        ((p ++ g ++ 0#2) ||| (v >>> 8).setWidth 8) ^^^ v.setWidth 8 ^^^ d] } := by
  rw [cvInstr_eq]
  simp [plainPacket, xorBytes, BitVec.xor_assoc]

/-- The data byte of a bit operation, the bit's number written in eight bits (R103). -/
theorem bitByte_eq_ite (k d : Bool) (b : BitVec 3) :
    bitByte k d b =
      0xE0#8 ||| (if k then 0x10#8 else 0x00#8) ||| (if d then 0x08#8 else 0x00#8) ||| b.setWidth 8 := by
  revert k d b; decide

/-- A bit operation's packet as numbers (R177). -/
theorem svcBitPacket_eq (v : BitVec 10) (k d : Bool) (b : BitVec 3) {n : Byte} (hn : b.setWidth 8 = n) :
    svcBitPacket v k d b = plainPacket (cvInstr 0b0111#4 0b10#2 v
      (0xE0#8 ||| (if k then 0x10#8 else 0x00#8) ||| (if d then 0x08#8 else 0x00#8) ||| n)) := by
  rw [svcBitPacket, bitByte_eq_ite, hn]

theorem bitNumber_setWidth {n : Nat} (h : n ≤ 7) : (BitVec.ofNat 3 n).setWidth 8 = BitVec.ofNat 8 n := by
  interval_cases n <;> rfl

/-! ### The phases of a pull (R315, R321) -/

/-- The sequencer with `k` packets to hand out in phase `ph`. -/
def atPhase (ph : SvcPhase) (k : Nat) (s : State) : State :=
  { s with svc := { s.svc with svc_phase := ph, svc_cnt := k } }

theorem atPhase_self {s : State} {ph : SvcPhase} {k : Nat} (hp : s.svc.svc_phase = ph) (hk : s.svc.svc_cnt = k) :
    atPhase ph k s = s := by
  subst hp hk
  rfl

/-- A phase with packets left hands out one of them, unless an ack cuts it short. -/
theorem pullPacket_handOut {s : State} (hm : s.mode = .Service) {ph : SvcPhase} {k : Nat}
    (hk : ¬ (ph = .Reset2 ∧ k = 0)) (hff : fastForward (atPhase ph k s) = atPhase ph k s) :
    pullPacket (atPhase ph k s) =
      ({ pkt := (handOut (atPhase ph k s)).1, ref := none }, (handOut (atPhase ph k s)).2) := by
  have hmode : (atPhase ph k s).mode = .Service := hm
  have hblock : ¬ ((atPhase ph k s).svc.svc_phase = .Reset2 ∧ (atPhase ph k s).svc.svc_cnt = 0) := hk
  simp only [pullPacket, hmode, pullSvc, if_neg hblock, Bool.false_eq_true, if_false, hff]

theorem pullPacket_blockEnd {s : State} (hm : s.mode = .Service) (hp : s.svc.svc_phase = .Reset2)
    (hk : s.svc.svc_cnt = 0) :
    pullPacket s = if (blockEnd s).1 then ({ pkt := RESET, ref := none }, (blockEnd s).2) else
      ({ pkt := (handOut (fastForward (blockEnd s).2)).1, ref := none }, (handOut (fastForward (blockEnd s).2)).2) := by
  simp only [pullPacket, hm, pullSvc, if_pos (And.intro hp hk)]

theorem fastForward_cut {s : State} (hp : s.svc.svc_phase = .Command) (hack : s.svc.ack_seen = true)
    (hlog : s.cfg.caplog_active = false) : fastForward s = atPhase .Reset2 5 s :=
  if_pos ⟨hp, hack, by simp [hlog]⟩

theorem fastForward_of_phase_ne {s : State} (hp : s.svc.svc_phase ≠ .Command) : fastForward s = s :=
  if_neg fun h => hp h.1

theorem fastForward_of_not_cut {s : State} (h : ¬ (s.svc.ack_seen = true ∧ s.cfg.caplog_active = false)) :
    fastForward s = s :=
  if_neg fun ⟨_, hack, hlog⟩ => h ⟨hack, by simpa using hlog⟩

theorem pullPacket_reset1 {s : State} (hm : s.mode = .Service) (n : Nat) :
    pullPacket (atPhase .Reset1 (n + 2) s) = ({ pkt := RESET, ref := none }, atPhase .Reset1 (n + 1) s) :=
  pullPacket_handOut hm nofun (fastForward_of_phase_ne nofun)

/-- The last Reset1 packet arms the detector (R318). -/
theorem pullPacket_reset1_last {s : State} (hm : s.mode = .Service) :
    pullPacket (atPhase .Reset1 1 s) = ({ pkt := RESET, ref := none }, atPhase .Command 5 (arm s)) :=
  pullPacket_handOut hm nofun (fastForward_of_phase_ne nofun)

theorem pullPacket_command {s : State} (hm : s.mode = .Service)
    (hcut : ¬ (s.svc.ack_seen = true ∧ s.cfg.caplog_active = false)) (n : Nat) :
    pullPacket (atPhase .Command (n + 2) s) =
      ({ pkt := svcCmdPacket s.svc, ref := none }, atPhase .Command (n + 1) s) :=
  pullPacket_handOut hm nofun (fastForward_of_not_cut hcut)

theorem pullPacket_command_last {s : State} (hm : s.mode = .Service)
    (hcut : ¬ (s.svc.ack_seen = true ∧ s.cfg.caplog_active = false)) :
    pullPacket (atPhase .Command 1 s) = ({ pkt := svcCmdPacket s.svc, ref := none }, atPhase .Reset2 5 s) :=
  pullPacket_handOut hm nofun (fastForward_of_not_cut hcut)

theorem pullPacket_reset2 {s : State} (hm : s.mode = .Service) (n : Nat) :
    pullPacket (atPhase .Reset2 (n + 1) s) = ({ pkt := RESET, ref := none }, atPhase .Reset2 n s) :=
  pullPacket_handOut hm nofun (fastForward_of_phase_ne nofun)

/-- An ack cuts the Command phase short: the pull hands out the first packet of Reset2. -/
theorem pullPacket_command_cut {s : State} (hm : s.mode = .Service) (hp : s.svc.svc_phase = .Command)
    (hack : s.svc.ack_seen = true) (hlog : s.cfg.caplog_active = false) :
    pullPacket s = ({ pkt := RESET, ref := none }, atPhase .Reset2 4 s) := by
  have hblock : ¬ (s.svc.svc_phase = .Reset2 ∧ s.svc.svc_cnt = 0) := by simp [hp]
  simp only [pullPacket, hm, pullSvc, if_neg hblock, Bool.false_eq_true, if_false, fastForward_cut hp hack hlog]
  rfl

/-- A complete block that ends the operation: the terminal pull hands out a Reset packet. -/
theorem pullPacket_ended {s : State} (hm : s.mode = .Service) (hp : s.svc.svc_phase = .Reset2) (hk : s.svc.svc_cnt = 0)
    (hend : (blockEnd s).1 = true) : pullPacket s = ({ pkt := RESET, ref := none }, (blockEnd s).2) := by
  rw [pullPacket_blockEnd hm hp hk, if_pos hend]

/-- A complete block that goes on has armed the detector anew, so the next block's first Command packet is not cut. -/
theorem pullPacket_nextBlock {s : State} (hm : s.mode = .Service) (hp : s.svc.svc_phase = .Reset2)
    (hk : s.svc.svc_cnt = 0) (hgo : (blockEnd s).1 = false) :
    pullPacket s =
      ({ pkt := svcCmdPacket (blockEnd s).2.svc, ref := none }, atPhase .Command 4 (blockEnd s).2) := by
  obtain ⟨_, _, _, hend, -⟩ | ⟨_, _, hnext, -⟩ := blockEnd_cases s
  · exact absurd (hgo.symm.trans (congrArg Prod.fst hend)) nofun
  · rw [pullPacket_blockEnd hm hp hk, hgo, hnext]
    rfl

/-! ### The outcome of a block (R319, R320) -/

theorem blockEnd_write {s : State} (hop : s.svc.svc_op = .WriteByte ∨ s.svc.svc_op = .WriteBit) :
    blockEnd s = (true, terminal (outcomeOf s.svc.ack_seen) 0#8 s) := by
  obtain hop | hop := hop <;> simp only [blockEnd, hop]

/-- A block of `read_cv` that verifies one bit: an ack sets the bit in the accumulator. -/
theorem blockEnd_readByte_bit {s : State} (hop : s.svc.svc_op = .ReadByte) (hstep : s.svc.svc_step ≤ 7) :
    blockEnd s = (false, nextBlock { s with svc := { s.svc with
      svc_val := if s.svc.ack_seen then s.svc.svc_val ||| BitVec.twoPow 8 s.svc.svc_step else s.svc.svc_val
      svc_step := if s.svc.svc_step = 0 then 8 else s.svc.svc_step - 1 } }) := by
  have hnext : (if 0 < s.svc.svc_step then s.svc.svc_step - 1 else 8) =
      if s.svc.svc_step = 0 then 8 else s.svc.svc_step - 1 := by
    split <;> split <;> omega
  simp only [blockEnd, hop, if_pos hstep, hnext, BitVec.twoPow]

/-- The last block of `read_cv` verifies the accumulated byte. -/
theorem blockEnd_readByte_check {s : State} (hop : s.svc.svc_op = .ReadByte) (hstep : s.svc.svc_step = 8) :
    blockEnd s = (true, terminal (outcomeOf s.svc.ack_seen) s.svc.svc_val s) := by
  simp [blockEnd, hop, hstep]

/-- An ack of `read_bit` says that the bit has the block's value. -/
theorem blockEnd_readBit_ack {s : State} (hop : s.svc.svc_op = .ReadBit) (hack : s.svc.ack_seen = true) :
    blockEnd s = if s.svc.svc_step = 0 then (true, terminal .Success 0#8 { s with svc := { s.svc with svc_val := 0#8 } })
      else (true, terminal .Success 1#8 { s with svc := { s.svc with svc_val := 1#8 } }) := by
  simp only [blockEnd, hop, hack, if_true]

theorem blockEnd_readBit_silent {s : State} (hop : s.svc.svc_op = .ReadBit) (hack : s.svc.ack_seen = false) :
    blockEnd s = if s.svc.svc_step = 0 then (false, nextBlock { s with svc := { s.svc with svc_step := 1 } })
      else (true, terminal .Error 0#8 s) := by
  simp only [blockEnd, hop, hack, Bool.false_eq_true, if_false]

/-- The pull after a write's block that no ack answered ends the operation with Error. -/
theorem pullPacket_write_silent {s : State} (hm : s.mode = .Service)
    (hop : s.svc.svc_op = .WriteByte ∨ s.svc.svc_op = .WriteBit) (hp : s.svc.svc_phase = .Reset2)
    (hk : s.svc.svc_cnt = 0) (hack : s.svc.ack_seen = false) :
    pullPacket s = ({ pkt := RESET, ref := none }, terminal .Error 0#8 s) := by
  have hblock : blockEnd s = (true, terminal .Error 0#8 s) := by rw [blockEnd_write hop, hack, outcomeOf, if_neg nofun]
  rw [pullPacket_ended hm hp hk (congrArg Prod.fst hblock), hblock]

/-- The end of an operation as the host sees it: Off, the engine stopped, the outcome latched (R320). -/
theorem terminal_outcome (st : SvcStatus) (val : Byte) (s : State) : (terminal st val s).mode = .Off ∧
    (terminal st val s).bs.bs_run = false ∧ (terminal st val s).svc.svc_status = st ∧
    (terminal st val s).svc.svc_result = val := by
  rw [terminal_eq]
  refine ⟨rfl, ?_, rfl, rfl⟩
  cases h : s.bs.bs_run <;> simp [h]

/-! ### Runs of pulls (R322) -/

theorem pulls_add (m n : Nat) (s : State) :
    pulls (m + n) s = ((pulls m s).1 ++ (pulls n (pulls m s).2).1, (pulls n (pulls m s).2).2) := by
  induction m generalizing s with
  | zero => simp [pulls]
  | succ m ih => simp only [Nat.succ_add, pulls, ih, List.cons_append]

theorem pulls_one (s : State) : pulls 1 s = ([(pullPacket s).1.pkt], (pullPacket s).2) := rfl

/-- States that a pull counts down, handing out one packet each time, hand out that packet `n` times. -/
theorem pulls_countDown {f : Nat → State} {p : DccPacket}
    (h : ∀ k, pullPacket (f (k + 1)) = ({ pkt := p, ref := none }, f k)) (n : Nat) :
    pulls n (f n) = (List.replicate n p, f 0) := by
  induction n with
  | zero => rfl
  | succ n ih => simp only [pulls, h, ih, List.replicate_succ]

/-- The Reset1 phase from its start: 20 Reset packets, and the detector is armed. -/
theorem pulls_reset1 {s : State} (hm : s.mode = .Service) :
    pulls 20 (atPhase .Reset1 20 s) = (List.replicate 20 RESET, atPhase .Command 5 (arm s)) := by
  rw [pulls_add 19 1, pulls_countDown (f := fun k => atPhase .Reset1 (k + 1) s) (pullPacket_reset1 hm) 19, pulls_one,
    pullPacket_reset1_last hm]
  rfl

/-- The Command phase without an ack: 5 command packets. -/
theorem pulls_command {s : State} (hm : s.mode = .Service) (hack : s.svc.ack_seen = false) :
    pulls 5 (atPhase .Command 5 s) = (List.replicate 5 (svcCmdPacket s.svc), atPhase .Reset2 5 s) := by
  have hcut : ¬ (s.svc.ack_seen = true ∧ s.cfg.caplog_active = false) := by simp [hack]
  rw [pulls_add 4 1, pulls_countDown (f := fun k => atPhase .Command (k + 1) s) (pullPacket_command hm hcut) 4, pulls_one,
    pullPacket_command_last hm hcut]
  rfl

/-- The first block of an operation that no decoder acknowledges, up to its evaluation. -/
theorem pulls_firstBlock {s : State} (hm : s.mode = .Service) :
    pulls 30 (atPhase .Reset1 20 s) =
      (List.replicate 20 RESET ++ List.replicate 5 (svcCmdPacket s.svc) ++ List.replicate 5 RESET,
        atPhase .Reset2 0 (arm s)) := by
  rw [pulls_add 25 5, pulls_add 20 5, pulls_reset1 hm, pulls_command (s := arm s) hm rfl,
    pulls_countDown (f := fun k => atPhase .Reset2 k (arm s)) (pullPacket_reset2 (s := arm s) hm) 5]
  rfl

end Sys2Proof.Machine

open Sys2Proof Sys2Proof.Machine

/-- Settles O44: the first block hands out 30 packets, and its evaluation without an ack ends a write with Error. -/
theorem writeWithoutAckSequence : Obligations.WriteWithoutAckSequence := by
  intro s hm hop hp hk
  have h30 : pulls 30 s =
      (List.replicate 20 RESET ++ List.replicate 5 (svcCmdPacket s.svc) ++ List.replicate 5 RESET,
        atPhase .Reset2 0 (arm s)) := by
    rw [← pulls_firstBlock hm, atPhase_self hp hk]
  have hlast := pullPacket_write_silent (s := atPhase .Reset2 0 (arm s)) hm hop rfl rfl rfl
  rw [pulls_add 30 1, h30, pulls_one, hlast]
  exact ⟨rfl, hm, terminal_outcome ..⟩

/-- Settles O41: each phase by its count; the state with its own phase and count is itself. -/
theorem pullSvcPhases : Obligations.PullSvcPhases := by
  intro s n hm out put cut
  refine ⟨fun hp hk => ?_, fun hp hk => ?_, fun hp hcut hk => ?_, fun hp hcut hk => ?_, fun hp hcut => ?_,
    fun hp hk => ?_, fun hp hk hend => ?_, fun hp hk hgo => ?_⟩
  · exact atPhase_self hp hk ▸ pullPacket_reset1 hm n
  · exact atPhase_self hp hk ▸ pullPacket_reset1_last hm
  · exact atPhase_self hp hk ▸ pullPacket_command hm hcut n
  · exact atPhase_self hp hk ▸ pullPacket_command_last hm hcut
  · exact pullPacket_command_cut hm hp hcut.1 hcut.2
  · exact atPhase_self hp hk ▸ pullPacket_reset2 hm n
  · exact pullPacket_ended hm hp hk hend
  · exact pullPacket_nextBlock hm hp hk hgo

/-- Settles O42: every packet is one of the three encoders', whose bytes are those of the CV instruction. -/
theorem svcCommandPacketBytes : Obligations.SvcCommandPacketBytes := by
  intro v lo hi pkt bit
  refine ⟨fun hop => ?_, fun hop => ?_, fun hop hstep => ?_, fun hop hstep => ?_, fun hop hstep => ?_,
    fun hop hstep => ?_⟩
  · simp only [svcCmdPacket, hop]
    exact plainPacket_cvInstr ..
  · simp only [svcCmdPacket, hop, svcBitPacket_eq _ _ _ _ rfl]
    exact plainPacket_cvInstr ..
  · simp only [svcCmdPacket, hop, if_pos hstep, svcBitPacket_eq _ _ _ _ (bitNumber_setWidth hstep)]
    exact plainPacket_cvInstr ..
  · simp only [svcCmdPacket, hop, hstep]
    exact plainPacket_cvInstr ..
  · simp only [svcCmdPacket, hop, hstep, svcBitPacket_eq _ _ _ _ rfl]
    exact plainPacket_cvInstr ..
  · simp only [svcCmdPacket, hop, hstep, svcBitPacket_eq _ _ _ _ rfl]
    exact plainPacket_cvInstr ..

/-- Settles O43: the outcome of each operation's block, with the effects of `terminal` and `next_block` written out. -/
theorem blockEndOutcomes : Obligations.BlockEndOutcomes := by
  intro s ended goOn v
  refine ⟨fun hop hack => ?_, fun hop hack => ?_, fun hop hstep => ?_, fun hop hstep => ?_, fun hop hstep hack => ?_,
    fun hop hstep hack => ?_, fun hop hstep hack => ?_, fun hop hstep hack => ?_⟩
  · rw [blockEnd_write hop, terminal_eq, show s.svc.ack_seen = true from hack]
    rfl
  · rw [blockEnd_write hop, terminal_eq, show s.svc.ack_seen = false from hack]
    rfl
  · exact blockEnd_readByte_bit hop hstep
  · rw [blockEnd_readByte_check hop hstep, terminal_eq]
    rfl
  · rw [blockEnd_readBit_ack hop hack, if_pos hstep, terminal_eq]
    rfl
  · rw [blockEnd_readBit_silent hop hack, if_pos hstep]
    rfl
  · have hone : s.svc.svc_step ≠ 0 := fun h => absurd (hstep.symm.trans h) nofun
    rw [blockEnd_readBit_ack hop hack, if_neg hone, terminal_eq]
    rfl
  · have hone : s.svc.svc_step ≠ 0 := fun h => absurd (hstep.symm.trans h) nofun
    rw [blockEnd_readBit_silent hop hack, if_neg hone, terminal_eq]
    rfl

end

section
/-! The operations-mode pull and the commands of modes, service operations, polls and verbosity (44_scheduler.md R311 to
R333, R343, R345): each command on a state and operands it accepts. -/

namespace Sys2Proof.Machine

/-! ### The operations-mode pull (R313) -/

theorem pullPacket_ops_empty {s : State} (hm : s.mode = .Ops) (hl : s.thr_list = []) :
    pullPacket s = ({ pkt := IDLE, ref := none }, s) := by
  simp only [pullPacket, hm, pullOps, hl, List.length_nil, if_true]

theorem pullPacket_ops {s : State} {i : Nat} (hm : s.mode = .Ops) (hi : s.thr_list[s.rr_cursor]? = some i) :
    pullPacket s =
      ({ pkt := (nextPacket s.cfg (thrAt s i)).1, ref := some { slot := i, gen := (thrAt s i).gen } },
       { s with rr_cursor := (s.rr_cursor + 1) % s.thr_list.length
                thr := s.thr.set i (nextPacket s.cfg (thrAt s i)).2 }) := by
  have hne : s.thr_list.length ≠ 0 := by
    obtain ⟨hlt, -⟩ := List.getElem?_eq_some_iff.1 hi
    exact Nat.ne_zero_of_lt hlt
  simp only [pullPacket, hm, pullOps, if_neg hne, List.getD_eq_getElem?_getD, hi, Option.getD_some, setThr]

/-! ### Mode commands (R323, R324) -/

theorem exec_setModeOff_service {s : State} (hm : s.mode = .Service) :
    exec .setModeOff s = .next (respondOk (terminal .Error 0#8 s)) := by
  rw [exec, execSetModeOff]
  split
  · rfl
  · rename_i hoff
    exact nomatch hm.symm.trans hoff
  · rename_i hops
    exact nomatch hm.symm.trans hops

theorem exec_setModeOff_noService {s : State} (hm : s.mode ≠ .Service) :
    exec .setModeOff s = .next (respondOk (modeOffEffects s)) := by
  rw [exec, execSetModeOff]
  split
  · exact absurd ‹_› hm
  · rfl
  · rfl

theorem exec_setModeOps_ops {s : State} (hm : s.mode = .Ops) : exec .setModeOps s = .next (respondOk s) := by
  rw [exec, execSetModeOps, hm]

theorem exec_setModeOps_service {s : State} (hm : s.mode = .Service) :
    exec .setModeOps s = .next (raiseError .refused s) := by
  rw [exec, execSetModeOps, hm]

theorem exec_setModeOps_off {s : State} (hm : s.mode = .Off) :
    exec .setModeOps s = .next (respondOk { startOps (adcStart (restartEffects s)) with mode := .Ops }) := by
  rw [exec, execSetModeOps, hm]

/-- A sequencer that rests is what the effects of `set_mode_off` leave of it (R323, R45 clause 3). -/
theorem ServiceOk.atRest {s : State} (h : ServiceOk s) (hm : s.mode ≠ .Service) : { s.svc with
    svc_op := .None, svc_phase := .Reset1, svc_cnt := 0, svc_step := 0, ack_armed := false, ack_seen := false } =
    s.svc := by
  have hop : s.svc.svc_op = .None := Classical.not_not.1 (mt h.op.2 hm)
  have hstep : s.svc.svc_step = 0 := by
    have hstep := h.step
    rwa [hop] at hstep
  have harmed : s.svc.ack_armed = false := Bool.eq_false_iff.2 fun e => hm (h.armed.1 e).1
  have hseen : s.svc.ack_seen = false := Bool.eq_false_iff.2 fun e => nomatch harmed.symm.trans (h.seen e)
  obtain ⟨hphase, hcnt⟩ := h.idle hm
  cases hv : s.svc
  simp_all

/-- In Off the effects of `set_mode_off` find the engine, the ADC and the sequencer at rest (R323, R45). -/
theorem modeOffEffects_of_off {s : State} (h : Invariant s) (hm : s.mode = .Off) : modeOffEffects s = s := by
  have hrun : s.bs.bs_run = false := h.run.1 hm
  have hcs : { s.cs with adc_run := false, adc_fifo := [] } = s.cs := by
    rw [← h.adcFifo hm, ← hrun, ← h.adc]
  rw [modeOffEffects_eq, hcs, h.service.atRest (by simp [hm]), hrun, if_neg nofun, ← hm]

/-- On a list kept by R340 a restart resets the rotations and the cursor only (R342). -/
theorem restartEffects_of_listOk {s : State} (h : ListOk s) : restartEffects s = { s with
    thr := s.thr.map (fun t => if t.valid then { t with seq := 0 } else t), rr_cursor := 0 } := by
  rw [restartEffects, sortSlots_of_sorted h.le]

/-! ### Service commands (R325 to R330) -/

/-- A service command with operands in range begins its operation in every mode but Service. -/
theorem svcCommand_begins {f : State → State} {s : State} {argsOk : Bool} (hargs : argsOk = true)
    (hm : s.mode ≠ .Service) : svcCommand argsOk f s = respondOk (f s) := by
  rw [svcCommand, if_pos hargs]
  cases h : s.mode with
  | Service => exact absurd h hm
  | Off => rfl
  | Ops => rfl

/-- The bit value of `write_bit`, which is 0 or 1 (R327). -/
theorem bitValue_eq {val : Byte} (h : val.toNat ≤ 1) : val.getLsbD 0 = decide (val.toNat = 1) := by
  rw [BitVec.getLsbD, Nat.testBit_zero, Nat.mod_eq_of_lt (by omega)]

/-! ### Polls (R333, R343, R386) -/

/-- A byte as the 16-bit value of a response (R130). -/
theorem setWidth_byte (b : Byte) : b.setWidth 16 = 0#8 ++ b := by
  revert b
  decide

/-- A valid slot's address names it (R374). -/
theorem findSlot_of_listOk {s : State} (hl : ListOk s) {i : Nat} {a : BitVec 14} (hi : i < s.thr.length)
    (hv : (thrAt s i).valid = true) (ha : (thrAt s i).address = a) : findSlot s a = some i :=
  ha ▸ findSlot_unique hl hi hv

/-- A throttle command with an address in range runs on the slot that the address names. -/
theorem withThrottle_of_listOk {s : State} (hl : ListOk s) {i : Nat} {a : BitVec 16} (h1 : 1 ≤ a.toNat)
    (h2 : a.toNat ≤ 10239) (hi : i < s.thr.length) (hv : (thrAt s i).valid = true)
    (ha : (thrAt s i).address = a.setWidth 14) (f : Nat → Throttle → State → State) :
    withThrottle a true f s = f i (thrAt s i) s :=
  withThrottle_found (addrOk_iff.2 ⟨h1, h2⟩) rfl (findSlot_of_listOk hl hi hv ha)

/-! ### Verbosity (R345) -/

theorem setVerbosity_unknown {which : BitVec 16} (h : 3 < which.toNat) (on : Bool) (t : Trace) :
    setVerbosity which on t = none := by
  have hne : ∀ k : BitVec 16, k.toNat ≤ 3 → which ≠ k := by
    rintro k hk rfl
    omega
  rw [setVerbosity, if_neg (hne _ (by decide)), if_neg (hne _ (by decide)), if_neg (hne _ (by decide)),
    if_neg (hne _ (by decide))]

end Sys2Proof.Machine

open Sys2Proof Sys2Proof.Machine

/-- Settles O40: an entry of the list at the cursor is the throttle served; with no entry, or in Off, the pull is Idle. -/
theorem pullOpsServesTheCursor : Obligations.PullOpsServesTheCursor := by
  intro s
  refine ⟨fun h => ?_, fun i hm hi => pullPacket_ops hm hi⟩
  obtain hm | ⟨hm, hl⟩ := h
  · rw [pullPacket, hm]
    rfl
  · exact pullPacket_ops_empty hm hl

/-- Settles O45: in Service the operation ends with Error; else the effects of `set_mode_off`, which in Off change nothing. -/
theorem setModeOff : Obligations.SetModeOff := by
  intro s off
  refine ⟨fun hm => ?_, fun hm => ?_, fun h hm => ?_⟩
  · rw [exec_setModeOff_service hm, terminal_eq]
    rfl
  · rw [exec_setModeOff_noService hm, modeOffEffects_eq]
    rfl
  · rw [exec_setModeOff_noService (by simp [hm]), modeOffEffects_of_off h hm]
    rfl

/-- Settles O46: one case for each mode; the sort of a restart leaves the list kept by R340 alone. -/
theorem setModeOps : Obligations.SetModeOps := by
  intro s
  refine ⟨fun hm => exec_setModeOps_ops hm, fun hm => exec_setModeOps_service hm, fun hm hl => ?_⟩
  rw [exec_setModeOps_off hm, restartEffects_of_listOk hl]
  rfl

/-- Settles O47: each command is accepted, and begins the operation that `svc_begin` writes. -/
theorem serviceCommandsBegin : Obligations.ServiceCommandsBegin := by
  intro s cv bit val hm h1 h2 base begun
  have hcv : cvOk cv = true := cvOk_iff.2 ⟨h1, h2⟩
  have hcfg : base.cfg = s.cfg := by
    simp only [base]
    split
    · exact modeOffEffects_cfg s
    · rfl
  have hbegin : ∀ op b bv v step, respondOk (svcBegin op cv b bv v step s) = begun op b bv v step := by
    intro op b bv v step
    simp only [begun, svcBegin, cvField_eq hcv, ← hcfg]
    rfl
  refine ⟨?_, ?_, fun hbit hval => ?_, fun hbit => ?_⟩
  · exact congrArg _ ((svcCommand_begins hcv hm).trans (hbegin ..))
  · exact congrArg _ ((svcCommand_begins hcv hm).trans (hbegin ..))
  · rw [BitVec.ofNat_toNat, ← bitValue_eq hval]
    exact congrArg _ ((svcCommand_begins (by simp [hcv, hbit, hval]) hm).trans (hbegin ..))
  · rw [BitVec.ofNat_toNat]
    exact congrArg _ ((svcCommand_begins (by simp [hcv, hbit]) hm).trans (hbegin ..))

/-- Settles O48: the table of `svc_done` by the status; a lookup finds the one slot with the address. -/
theorem pollsOnlyAnswer : Obligations.PollsOnlyAnswer := by
  intro s a
  refine ⟨?_, fun i h1 h2 hl hi hv ha => ⟨?_, ?_⟩⟩
  · rw [exec, execSvcDone, svcDoneResponse, setWidth_byte]
    rfl
  · exact congrArg _ (withThrottle_of_listOk hl h1 h2 hi hv ha _)
  · rw [exec, execThrOpsDone, withThrottle_of_listOk hl h1 h2 hi hv ha, opsDoneResponse, setWidth_byte]
    rfl

/-- Settles O51: four selectors, and no other. -/
theorem setVerbosity : Obligations.SetVerbosity := by
  intro s on
  refine ⟨rfl, rfl, rfl, rfl, fun which h => ?_⟩
  simp only [exec, execSetVerbosity, setVerbosity_unknown h]
  rfl

end

section
/-! Throttle management (44_scheduler.md R340 to R342): what creating, deleting and restarting leave of the table and of the
sorted list. -/

namespace Sys2Proof.Machine

/-! ### Restart (R342) -/

/-- A restart puts every valid slot's rotation at its start. -/
theorem thrAt_restartEffects (s : State) (j : Nat) : thrAt (restartEffects s) j =
    if (thrAt s j).valid then { thrAt s j with seq := 0 } else thrAt s j := by
  by_cases hj : j < s.thr.length
  · rw [thrAt_lt hj, thrAt_lt (by simpa using hj)]
    simp
  · rw [thrAt_ge (s := s) (by omega), thrAt_ge (by simpa using hj)]
    rfl

theorem addrOf_restartEffects (s : State) (j : Nat) : addrOf (restartEffects s) j = addrOf s j := by
  rw [addrOf, thrAt_restartEffects]
  split <;> rfl

/-! ### Delete (R341) -/

/-- In a list without repetitions the filter removes the one entry. -/
theorem ListOk.filter_ne {s : State} (h : ListOk s) (i : Nat) : s.thr_list.filter (· != i) = s.thr_list.erase i :=
  (h.nodup.erase_eq_filter i).symm

/-- A reference to an invalid slot is stale (R11). -/
theorem not_live_of_invalid {s : State} {r : ThrRef} (h : (thrAt s r.slot).valid = false) : live s r = false := by
  rw [live, h, Bool.false_and]

/-! ### Create (R340, R373) -/

/-- The list holds each valid slot once, so a list shorter than the table leaves a free slot. -/
theorem exists_freeSlot {s : State} (hl : ListOk s) (h : s.thr_list.length < s.thr.length) :
    ∃ i, freeSlot s = some i := by
  cases hf : freeSlot s with
  | some i => exact ⟨i, rfl⟩
  | none =>
    have hsub : List.range s.thr.length ⊆ s.thr_list := fun i hi => by
      have hi : i < s.thr.length := List.mem_range.1 hi
      exact (hl.holds i).2 ⟨hi, freeSlot_none.1 hf _ (thrAt_mem hi)⟩
    have hle := (List.nodup_range.subperm hsub).length_le
    rw [List.length_range] at hle
    omega

/-- The state with a new throttle in slot `i`, before its slot enters the list. -/
def withNewThrottle (i : Nat) (a : BitVec 14) (s : State) : State :=
  { setThr i (newThrottle s.cfg a (thrAt s i) s.draws) s with draws := s.draws + 1 }

theorem thrAt_withNewThrottle {s : State} {i : Nat} (hi : i < s.thr.length) (a : BitVec 14) (j : Nat) :
    thrAt (withNewThrottle i a s) j = if j = i then newThrottle s.cfg a (thrAt s i) s.draws else thrAt s j := by
  have h := thrAt_set s i j (newThrottle s.cfg a (thrAt s i) s.draws)
  simp only [hi, and_true] at h
  exact h

/-- The state after an accepted create that made a throttle in slot `i`, before its response. -/
def created (i : Nat) (a : BitVec 14) (s : State) : State :=
  restartEffects { withNewThrottle i a s with thr_list := insertSlot (withNewThrottle i a s) i s.thr_list }

theorem exec_createThrottle_new {s : State} {a : BitVec 16} {i : Nat} (ha : addrOk a = true)
    (hnew : findSlot s (a.setWidth 14) = none) (hroom : s.thr_list.length ≠ s.cfg.max_throttles)
    (hfree : freeSlot s = some i) :
    exec (.createThrottle a) s = .next (respondVal i (created i (a.setWidth 14) s)) := by
  simp only [exec, execCreateThrottle, if_pos ha, hnew, if_neg hroom, hfree]
  rfl

theorem thrAt_created (i : Nat) (a : BitVec 14) (s : State) (j : Nat) : thrAt (created i a s) j =
    if (thrAt (withNewThrottle i a s) j).valid then { thrAt (withNewThrottle i a s) j with seq := 0 }
    else thrAt (withNewThrottle i a s) j :=
  thrAt_restartEffects ..

/-- The new throttle's rotation is at its start already. -/
theorem thrAt_created_self {s : State} {i : Nat} (hi : i < s.thr.length) (a : BitVec 14) :
    thrAt (created i a s) i = newThrottle s.cfg a (thrAt s i) s.draws := by
  rw [thrAt_created, thrAt_withNewThrottle hi, if_pos rfl]
  rfl

theorem thrAt_created_other {s : State} {i j : Nat} (hi : i < s.thr.length) (hj : j ≠ i) (a : BitVec 14) :
    thrAt (created i a s) j = if (thrAt s j).valid then { thrAt s j with seq := 0 } else thrAt s j := by
  rw [thrAt_created, thrAt_withNewThrottle hi, if_neg hj]

theorem takeWhile_dropWhile_congr {α : Type} {p q : α → Bool} {l : List α} (h : ∀ x ∈ l, p x = q x) :
    l.takeWhile p = l.takeWhile q ∧ l.dropWhile p = l.dropWhile q := by
  induction l with
  | nil => exact ⟨rfl, rfl⟩
  | cons x l ih =>
    obtain ⟨htake, hdrop⟩ := ih fun y hy => h y (List.mem_cons_of_mem _ hy)
    simp [List.takeWhile_cons, List.dropWhile_cons, h x List.mem_cons_self, htake, hdrop]

/-- The new slot stands before the first greater address, and no other slot has its address, so the restart's sort leaves
the list as it is. -/
theorem created_thr_list {s : State} (h : Invariant s) {i : Nat} {a : BitVec 14} (h1 : 1 ≤ a.toNat)
    (h2 : a.toNat ≤ 10239) (hnew : findSlot s a = none) (hfree : freeSlot s = some i) :
    (created i a s).thr_list = s.thr_list.takeWhile (fun j => addrOf s j < a.toNat) ++ [i] ++
      s.thr_list.dropWhile (fun j => addrOf s j < a.toNat) := by
  obtain ⟨hi, hinvalid, -⟩ := freeSlot_some hfree
  have hsort : (created i a s).thr_list = insertSlot (withNewThrottle i a s) i s.thr_list :=
    sortSlots_of_sorted (create_inv h i a ⟨h1, h2⟩ hnew hfree (s.draws + 1)).list.le
  have hself : addrOf (withNewThrottle i a s) i = a.toNat := by
    rw [addrOf, thrAt_withNewThrottle hi, if_pos rfl]
    rfl
  have hbelow : ∀ j ∈ s.thr_list, decide (addrOf (withNewThrottle i a s) j ≤ addrOf (withNewThrottle i a s) i) =
      decide (addrOf s j < a.toNat) := by
    intro j hj
    obtain ⟨hjlt, hjvalid⟩ := (h.list.holds j).1 hj
    have hji : j ≠ i := by
      rintro rfl
      exact absurd (hinvalid.symm.trans hjvalid) nofun
    have hne : addrOf s j ≠ a.toNat := fun e =>
      findSlot_none.1 hnew _ (thrAt_mem hjlt) hjvalid (BitVec.eq_of_toNat_eq e)
    rw [hself, addrOf, thrAt_withNewThrottle hi, if_neg hji]
    exact decide_eq_decide.2 (Nat.le_iff_lt_or_eq.trans (or_iff_left hne))
  obtain ⟨htake, hdrop⟩ := takeWhile_dropWhile_congr hbelow
  rw [hsort, insertSlot_eq, htake, hdrop]

end Sys2Proof.Machine

open Sys2Proof Sys2Proof.Machine

/-- Settles O49: the lookup, then the free slot; the list by the insertion, which the restart's sort leaves alone. -/
theorem createThrottle : Obligations.CreateThrottle := by
  intro s a h h1 h2
  have ha : addrOk a = true := addrOk_iff.2 ⟨h1, h2⟩
  refine ⟨fun i hi hv haddr => ?_, fun hnew hfull => ?_, fun hnew hroom => ?_⟩
  · simp only [exec, execCreateThrottle, if_pos ha, findSlot_of_listOk h.list hi hv haddr]
    rfl
  · simp only [exec, execCreateThrottle, if_pos ha, findSlot_none.2 hnew, if_pos hfull]
    rfl
  · obtain ⟨i, hfree⟩ := exists_freeSlot h.list (h.sizes.thr ▸ hroom)
    obtain ⟨hi, hinvalid, hlowest⟩ := freeSlot_some hfree
    have hwidth := addrOk_toNat ha
    have hlist := created_thr_list h (hwidth ▸ h1) (hwidth ▸ h2) (findSlot_none.2 hnew) hfree
    rw [hwidth] at hlist
    exact ⟨i, _, exec_createThrottle_new ha (findSlot_none.2 hnew) hroom.ne hfree, hi, hinvalid, hlowest,
      ⟨{ bytes := Config.freePacket s.draws }, thrAt_created_self hi _⟩, fun j hj => thrAt_created_other hi hj _, hlist,
      rfl⟩

/-- Settles O50: a delete makes its slot invalid, so no reference to it is live; a restart sorts by the addresses, which it
keeps. -/
theorem deleteAndRestartThrottles : Obligations.DeleteAndRestartThrottles := by
  intro s a
  refine ⟨fun i h1 h2 hl hi hv ha => ?_, _, rfl, sortSlots_perm .., ?_, rfl, fun hl => sortSlots_of_sorted hl.le⟩
  · refine ⟨_, congrArg Host.Outcome.next (withThrottle_of_listOk hl h1 h2 hi hv ha _), ?_,
      fun r hr _ => not_live_of_invalid ?_⟩
    · rw [hl.filter_ne i]
      rfl
    · rw [hr]
      exact congrArg Throttle.valid (thrAt_setThr_self hi _)
  · exact (sortSlots_sorted s s.thr_list).imp fun hle =>
      (addrOf_restartEffects ..).trans_le (hle.trans_eq (addrOf_restartEffects ..).symm)

end

section
/-! Throttle (45_throttle.md): the packet rotation, the two RailCom messages that reach a throttle, and the commands of
one throttle that are accepted. -/

namespace Sys2Proof.Machine

/-! ### A pending operation (R18, R380) -/

theorem opsPending_iff {t : Throttle} :
    opsPending t = true ↔ 0 < t.read_cv_cnt ∨ 0 < t.write_cv_cnt ∨ 0 < t.write_bit_cnt := by
  simp only [opsPending, Bool.or_eq_true, decide_eq_true_eq, or_assoc]

theorem opsPending_eq_false {t : Throttle} (hread : t.read_cv_cnt = 0) (hwrite : t.write_cv_cnt = 0)
    (hbit : t.write_bit_cnt = 0) : opsPending t = false := by
  rw [opsPending, hread, hwrite, hbit]
  rfl

/-! ### The rotation (R371, R372, R384) -/

/-- The packet of the operation goes out, its counter counts, and at 0 the operation completes: a read that no decoder
answered fails, a write succeeds. -/
theorem nextPacket_read (c : Config) {t : Throttle} (h : 0 < t.read_cv_cnt) :
    nextPacket c t = (t.pkt_ops,
      if t.read_cv_cnt - 1 = 0 then opsComplete false 0#8 { t with read_cv_cnt := t.read_cv_cnt - 1 }
      else { t with read_cv_cnt := t.read_cv_cnt - 1 }) := if_pos h

theorem nextPacket_write (c : Config) {t : Throttle} (hread : t.read_cv_cnt = 0) (h : 0 < t.write_cv_cnt) :
    nextPacket c t = (t.pkt_ops,
      if t.write_cv_cnt - 1 = 0 then opsComplete true t.ops_wr_val { t with write_cv_cnt := t.write_cv_cnt - 1 }
      else { t with write_cv_cnt := t.write_cv_cnt - 1 }) := by
  rw [nextPacket, if_neg (by omega), if_pos h]

theorem nextPacket_bit (c : Config) {t : Throttle} (hread : t.read_cv_cnt = 0) (hwrite : t.write_cv_cnt = 0)
    (h : 0 < t.write_bit_cnt) :
    nextPacket c t = (t.pkt_ops,
      if t.write_bit_cnt - 1 = 0 then opsComplete true t.ops_wr_val { t with write_bit_cnt := t.write_bit_cnt - 1 }
      else { t with write_bit_cnt := t.write_bit_cnt - 1 }) := by
  rw [nextPacket, if_neg (by omega), if_neg (by omega), if_pos h]

theorem nextPacket_rotates (c : Config) {t : Throttle} (hread : t.read_cv_cnt = 0) (hwrite : t.write_cv_cnt = 0)
    (hbit : t.write_bit_cnt = 0) :
    nextPacket c t = (rot t t.seq, { t with seq := (t.seq + 1) % (2 * groupCount c.func_cap) }) := by
  rw [nextPacket, if_neg (by omega), if_neg (by omega), if_neg (by omega)]
  rfl

/-- Even places of the rotation hold the speed packet, odd places the group packets in order. -/
theorem rot_even (t : Throttle) (k : Nat) : rot t (2 * k) = t.pkt_speed := if_pos (Nat.mul_mod_right 2 k)

theorem rot_odd {t : Throttle} {k : Nat} {p : DccPacket} (h : t.pkt_func[k]? = some p) : rot t (2 * k + 1) = p := by
  rw [rot, if_neg (by omega), Nat.add_sub_cancel, Nat.mul_div_cancel_left k two_pos, List.getD_eq_getElem?_getD, h,
    Option.getD_some]

/-! ### RailCom delivery (R385, R387, R389) -/

/-- A message other than AHI and ALO is recorded in channel 2 and delivered. -/
theorem exec_msgInstr_recorded {m : RcMsg} (hplace : ∀ v, m ≠ .ahi v ∧ m ≠ .alo v) (hbsy : m ≠ .bsy) (s : State) :
    exec (msgInstr m) s =
      .next (deliverLast [m] { s with rc := { s.rc with rc_ch2 := s.rc.rc_ch2 ++ [m] } }) := by
  rw [exec_msgInstr (absurd · hbsy), runMsg, recordMsg_ch2 m s (.inl hplace)]

theorem live_iff {s : State} {r : ThrRef} :
    live s r = true ↔ (thrAt s r.slot).valid = true ∧ (thrAt s r.slot).gen = r.gen := by
  rw [live, Bool.and_eq_true, beq_iff_eq]

theorem deliverTo_dyn_speed {i : Nat} {val : Byte} {idx : BitVec 6} {s : State} (h : idx = s.cfg.dyn_subidx_speed1) :
    deliverTo i (.dyn val idx) s =
      logWhen s.trace.trace_speed (.speed i val) (setThr i (onSpeed val s.now (thrAt s i)) s) := if_pos h

theorem deliverTo_dyn_other {i : Nat} {val : Byte} {idx : BitVec 6} {s : State} (h : idx ≠ s.cfg.dyn_subidx_speed1) :
    deliverTo i (.dyn val idx) s = s := if_neg h

theorem deliverTo_pom_pending {i : Nat} (val : Byte) {s : State} (h : opsPending (thrAt s i) = true) :
    deliverTo i (.pom val) s = setThr i { thrAt s i with
      ops_done := true, ops_ok := true, ops_val := val, read_cv_cnt := 0, write_cv_cnt := 0, write_bit_cnt := 0 } s :=
  congrArg (setThr i · s) (if_pos h)

theorem deliverTo_pom_idle {i : Nat} (val : Byte) {s : State} (h : opsPending (thrAt s i) = false) :
    deliverTo i (.pom val) s = s := by
  rw [deliverTo, onPom, h]
  exact setThr_thrAt s i

/-! ### Commands of one throttle (R374 to R383) -/

/-- The data byte of a speed: bit 7 set over a speed of at least 0, and the magnitude of a negative one (R150). -/
theorem speedInstr_toInt {sp : Byte} (h : sp ≠ 0x80#8) :
    speedInstr sp.toInt = [0x3F#8, if 0 ≤ sp.toInt then 0x80#8 ||| sp else -sp] := by
  revert sp
  decide

/-- The throttle after `set_speed`, with the packet and the cleared low bit of `seq` as numbers. -/
theorem setSpeed_speedArg {sp : Byte} (h : sp ≠ 0x80#8) (t : Throttle) :
    setSpeed (speedArg sp) t = { t with
      speed := sp.toInt
      pkt_speed := buildPacket t.address [0x3F#8, if 0 ≤ sp.toInt then 0x80#8 ||| sp else -sp]
      seq := 2 * (t.seq / 2) } := by
  have hseq : t.seq - t.seq % 2 = 2 * (t.seq / 2) := by omega
  rw [setSpeed, speedPacket, speedArg, speedInstr_toInt h, hseq]

theorem addrTaken_eq_false {s : State} {i : Nat} {b : BitVec 14}
    (h : ∀ j, j < s.thr.length → j ≠ i → (thrAt s j).valid = true → (thrAt s j).address ≠ b) :
    addrTaken s i b = false := by
  rw [addrTaken, List.any_eq_false]
  rintro ⟨t, j⟩ hmem htaken
  obtain ⟨hj, ht⟩ := List.mem_zipIdx' hmem
  simp only [Bool.and_eq_true, beq_iff_eq, bne_iff_ne] at htaken
  obtain ⟨⟨hvalid, haddr⟩, hne⟩ := htaken
  rw [ht, ← thrAt_lt hj] at hvalid haddr
  exact h j hj hne hvalid haddr

/-- The state after an accepted change of address. -/
def readdressed (i : Nat) (b : BitVec 14) (s : State) : State :=
  let s' := setThr i (setAddr s.cfg b (thrAt s i)) s
  respondOk { s' with thr_list := sortSlots s' s.thr_list, rr_cursor := 0 }

theorem exec_thrSetAddress_accepted {s : State} {a new : BitVec 16} {i : Nat} (ha : addrOk a = true)
    (hnew : addrOk new = true) (hfind : findSlot s (a.setWidth 14) = some i) (hidle : opsPending (thrAt s i) = false)
    (hfree : addrTaken s i (new.setWidth 14) = false) :
    exec (.thrSetAddress a new) s = .next (readdressed i (new.setWidth 14) s) := by
  rw [exec, execThrSetAddress, withThrottle_found ha hnew hfind, hidle, hfree]
  rfl

/-- The list of the new state is sorted by the addresses of the new state. -/
theorem readdressed_sorted (i : Nat) (b : BitVec 14) (s : State) :
    (readdressed i b s).thr_list.Pairwise
      (fun j k => addrOf (readdressed i b s) j ≤ addrOf (readdressed i b s) k) :=
  sortSlots_sorted (setThr i (setAddr s.cfg b (thrAt s i)) s) s.thr_list

theorem opsCommand_accepted {s : State} {a cv : BitVec 16} {i : Nat} (ha : addrOk a = true) (hcv : cvOk cv = true)
    (hfind : findSlot s (a.setWidth 14) = some i) (hidle : opsPending (thrAt s i) = false) (k : OpsCounter)
    (pkt : Throttle → DccPacket) (wr : Byte) :
    opsCommand a cv k pkt wr s =
      respondOk (setThr i (opsRequest s.cfg k (pkt (thrAt s i)) wr (thrAt s i)) s) := by
  rw [opsCommand, withThrottle_found ha hcv hfind, hidle]
  rfl

/-- The instruction bytes of a CV operation from the CV number less one as a natural number (R103). -/
theorem cvInstr_ofNat (p : BitVec 4) (g : BitVec 2) {n : Nat} (h : n < 1024) (d : Byte) :
    cvInstr p g (BitVec.ofNat 10 n) d =
      [(p ++ g ++ 0#2) ||| BitVec.ofNat 8 (n / 256), BitVec.ofNat 8 n, d] := by
  have hhigh : (BitVec.ofNat 10 n >>> 8).setWidth 8 = BitVec.ofNat 8 (n / 256) := by
    apply BitVec.eq_of_toNat_eq
    simp only [BitVec.toNat_setWidth, BitVec.toNat_ushiftRight, BitVec.toNat_ofNat, Nat.shiftRight_eq_div_pow]
    omega
  have hlow : (BitVec.ofNat 10 n).setWidth 8 = BitVec.ofNat 8 n := by
    apply BitVec.eq_of_toNat_eq
    simp only [BitVec.toNat_setWidth, BitVec.toNat_ofNat]
    omega
  rw [cvInstr_eq, hhigh, hlow]

end Sys2Proof.Machine

open Sys2Proof Sys2Proof.Machine

/-- Settles O54: the bit of the function set, its group within the capacity, and the number above `FMAX` refused as an
operand. -/
theorem setFunction : Obligations.SetFunction := by
  intro s a n on i h1 h2 hfind t g
  have ha : addrOk a = true := addrOk_iff.2 ⟨h1, h2⟩
  refine ⟨fun hn => ⟨setBit t.functions n.toNat on, fun k hk => setBit_getLsbD _ _ on k hk, grp_lt hn,
    congrArg Host.Outcome.next (withThrottle_found ha (decide_eq_true hn) hfind)⟩, fun hn => ?_⟩
  exact congrArg Host.Outcome.next (withThrottle_badArg (by simp [Nat.not_le.2 hn]))

/-- Settles O55: the address is free and nothing is pending, so the command is accepted; the sort by the new addresses
permutes the list. -/
theorem setAddress : Obligations.SetAddress := by
  intro s a new i h1 h2 h1' h2' hfind hread hwrite hbit hfree t b
  exact ⟨readdressed i b s,
    exec_thrSetAddress_accepted (addrOk_iff.2 ⟨h1, h2⟩) (addrOk_iff.2 ⟨h1', h2'⟩) hfind
      (opsPending_eq_false hread hwrite hbit) (addrTaken_eq_false hfree),
    rfl, sortSlots_perm .., readdressed_sorted ..⟩

/-- Settles O27: a message that a live reference hears is delivered to its slot, and any other is only recorded. -/
theorem pomAndDynReachTheThrottle : Obligations.PomAndDynReachTheThrottle := by
  intro s val idx rec2
  have hpom : exec (.rcPom val) s = .next (deliverLast [.pom val] (rec2 (.pom val))) :=
    exec_msgInstr_recorded (m := .pom val) (fun _ => ⟨nofun, nofun⟩) nofun s
  have hdyn : exec (.rcDyn val idx) s = .next (deliverLast [.dyn val idx] (rec2 (.dyn val idx))) :=
    exec_msgInstr_recorded (m := .dyn val idx) (fun _ => ⟨nofun, nofun⟩) nofun s
  refine ⟨fun r hr hvalid hgen => ?_, fun hstale => ?_⟩
  · have hheard (m : RcMsg) : deliverLast [m] (rec2 m) = deliverTo r.slot m (rec2 m) :=
      deliverLast_live m _ r hr (live_iff.2 ⟨hvalid, hgen⟩)
    rw [hpom, hdyn, hheard, hheard]
    refine ⟨fun hpending => ?_, fun ⟨hread, hwrite, hbit⟩ => ?_, fun hidx => ?_, fun hidx => ?_⟩
    · exact congrArg Host.Outcome.next (deliverTo_pom_pending val (opsPending_iff.2 hpending))
    · exact congrArg Host.Outcome.next (deliverTo_pom_idle val (opsPending_eq_false hread hwrite hbit))
    · have hspeed := deliverTo_dyn_speed (i := r.slot) (val := val) (s := rec2 (.dyn val idx)) hidx
      exact ⟨fun hoff => congrArg Host.Outcome.next (hspeed.trans (if_neg (Bool.eq_false_iff.1 hoff))),
        fun hon => congrArg Host.Outcome.next (hspeed.trans (if_pos hon))⟩
    · exact congrArg Host.Outcome.next (deliverTo_dyn_other hidx)
  · have hunheard (m : RcMsg) : deliverLast [m] (rec2 m) = rec2 m :=
      deliverLast_dead [m] _ fun r hr => Bool.eq_false_iff.2 fun hlive => hstale r hr (live_iff.1 hlive)
    rw [hpom, hdyn, hunheard, hunheard]
    exact ⟨rfl, rfl⟩

/-- Settles O52: each counter in the order of its priority, and then the rotation by the parity of `seq`. -/
theorem rotationAndOverrides : Obligations.RotationAndOverrides := by
  intro c t
  refine ⟨fun h => ?_, fun h => ?_, fun hread h => ?_, fun hread h => ?_, fun hread hwrite h => ?_,
    fun hread hwrite h => ?_, fun hread hwrite hbit => ⟨fun k hk => ?_, fun k p hk hp => ?_⟩⟩
  · rw [nextPacket_read c (by omega), h]
    rfl
  · rw [nextPacket_read c (by omega), if_neg (by omega)]
  · rw [nextPacket_write c hread (by omega), h]
    rfl
  · rw [nextPacket_write c hread (by omega), if_neg (by omega)]
  · rw [nextPacket_bit c hread hwrite (by omega), h]
    rfl
  · rw [nextPacket_bit c hread hwrite (by omega), if_neg (by omega)]
  · rw [nextPacket_rotates c hread hwrite hbit, hk, rot_even]
  · rw [nextPacket_rotates c hread hwrite hbit, hk, rot_odd hp]

/-- Settles O53: the packet of a speed byte by byte; -128 is refused as an operand. -/
theorem setSpeed : Obligations.SetSpeed := by
  intro s a sp i h1 h2 hfind t speedByte
  refine ⟨fun hsp => ?_, fun hsp => ?_⟩
  · rw [exec, execThrSetSpeed, withThrottle_found (addrOk_iff.2 ⟨h1, h2⟩) (bne_iff_ne.2 hsp) hfind,
      setSpeed_speedArg hsp]
    rfl
  · exact congrArg Host.Outcome.next (withThrottle_badArg (by simp [hsp]))

/-- Settles O56: each request is accepted, and its packet holds the CV number less one in ten bits. -/
theorem opsRequests : Obligations.OpsRequests := by
  intro s a cv val bv bit i h1 h2 hcv1 hcv2 hfind hread hwrite hbit v lo hi t req
  have hcv : cvOk cv = true := cvOk_iff.2 ⟨hcv1, hcv2⟩
  have haccepted := opsCommand_accepted (addrOk_iff.2 ⟨h1, h2⟩) hcv hfind (opsPending_eq_false hread hwrite hbit)
  have hbytes (g : BitVec 2) (d : Byte) : cvInstr 0b1110#4 g (cvField cv) d =
      [(0b1110#4 ++ g ++ 0#2) ||| hi, lo, d] := by
    rw [cvField_eq hcv, cvInstr_ofNat _ _ (by omega)]
  refine ⟨?_, ?_, ?_⟩
  · rw [exec, execThrReadCv, haccepted, opsVerifyPacket, hbytes]
    rfl
  · rw [exec, execThrWriteCv, haccepted, opsWritePacket, hbytes]
    rfl
  · have hval : (BitVec.ofBool bv).setWidth 8 = if bv then 1#8 else 0#8 := by cases bv <;> rfl
    rw [exec, execThrWriteBit, haccepted, opsBitPacket, hbytes, bitByte_eq_ite, hval]
    rfl

end

section
/-! Errors of the command port (60_exceptions.md R410 to R417): a command that answers `ok = 0` changes nothing else,
and the refusals by operand and by policy. -/

namespace Sys2Proof.Machine

/-! ### A failed command changes nothing (R410) -/

/-- From `s` to `t` nothing but the response changed, unless the response is `ok = 1`. -/
structure FailsClean (s t : State) : Prop where
  unchanged : t.resp.ok = false → t = { s with resp := t.resp }

theorem respond_failsClean (r : Response) (s : State) : FailsClean s (respond r s) := ⟨fun _ => rfl⟩

theorem raiseError_failsClean (k : CmdError) (s : State) : FailsClean s (raiseError k s) := respond_failsClean _ s

theorem FailsClean.of_ok {s t : State} (h : t.resp.ok = true) : FailsClean s t :=
  ⟨fun hfailed => nomatch h.symm.trans hfailed⟩

theorem svcCommand_failsClean (argsOk : Bool) (f : State → State) (s : State) :
    FailsClean s (svcCommand argsOk f s) := by
  unfold svcCommand
  split
  · split
    · exact raiseError_failsClean ..
    · exact .of_ok rfl
    · exact .of_ok rfl
  · exact raiseError_failsClean ..

theorem withThrottle_failsClean {a : BitVec 16} {argsOk : Bool} {f : Nat → Throttle → State → State} {s : State}
    (hf : ∀ i t, FailsClean s (f i t s)) : FailsClean s (withThrottle a argsOk f s) := by
  unfold withThrottle
  split
  · split
    · exact raiseError_failsClean ..
    · exact hf ..
  · exact raiseError_failsClean ..

theorem opsCommand_failsClean (a cv : BitVec 16) (k : OpsCounter) (pkt : Throttle → DccPacket) (wr : Byte) (s : State) :
    FailsClean s (opsCommand a cv k pkt wr s) :=
  withThrottle_failsClean fun i t => by
    split
    · exact raiseError_failsClean ..
    · exact .of_ok rfl

theorem execSetModeOps_failsClean (s : State) : ∃ t, execSetModeOps s = .next t ∧ FailsClean s t := by
  refine ⟨_, rfl, ?_⟩
  split
  · exact .of_ok rfl
  · exact raiseError_failsClean ..
  · exact .of_ok rfl

theorem execCreateThrottle_failsClean (a : BitVec 16) (s : State) :
    ∃ t, execCreateThrottle a s = .next t ∧ FailsClean s t := by
  refine ⟨_, rfl, ?_⟩
  split
  · dsimp only
    split
    · exact .of_ok rfl
    · split
      · exact raiseError_failsClean ..
      · split
        · exact raiseError_failsClean ..
        · exact .of_ok rfl
  · exact raiseError_failsClean ..

theorem execThrSetAddress_failsClean (a new : BitVec 16) (s : State) :
    ∃ t, execThrSetAddress a new s = .next t ∧ FailsClean s t := by
  refine ⟨_, rfl, withThrottle_failsClean fun i t => ?_⟩
  split
  · exact raiseError_failsClean ..
  · exact .of_ok rfl

theorem execSetVerbosity_failsClean (which : BitVec 16) (on : Bool) (s : State) :
    ∃ t, execSetVerbosity which on s = .next t ∧ FailsClean s t := by
  refine ⟨_, rfl, ?_⟩
  split
  · exact .of_ok rfl
  · exact raiseError_failsClean ..

/-- Every host command (R131); a packet form or a RailCom message, the last case, has no command word. -/
theorem exec_failsClean {i : Instr} {c : Config} {w : BitVec 48} (hw : encode c i = .command w) (s : State) :
    ∃ t, exec i s = .next t ∧ FailsClean s t := by
  cases i with
  | setModeOff | restartThrottles => exact ⟨_, rfl, .of_ok rfl⟩
  | setModeOps => exact execSetModeOps_failsClean s
  | writeCv cv v | writeBit cv b v | readCv cv | readBit cv b => exact ⟨_, rfl, svcCommand_failsClean ..⟩
  | svcDone => exact ⟨_, rfl, respond_failsClean ..⟩
  | createThrottle a => exact execCreateThrottle_failsClean a s
  | deleteThrottle a | findThrottle a | thrSetSpeed a v | thrSetFunction a n on =>
    exact ⟨_, rfl, withThrottle_failsClean fun _ _ => .of_ok rfl⟩
  | thrSetAddress a new => exact execThrSetAddress_failsClean a new s
  | thrReadCv a cv | thrWriteCv a cv v | thrWriteBit a cv v b => exact ⟨_, rfl, opsCommand_failsClean ..⟩
  | thrOpsDone a => exact ⟨_, rfl, withThrottle_failsClean fun _ _ => respond_failsClean ..⟩
  | setVerbosity which on => exact execSetVerbosity_failsClean which on s
  | _ => nomatch hw

/-! ### Operands out of range (R412) -/

theorem svcCommand_badArg {argsOk : Bool} (h : argsOk = false) (f : State → State) (s : State) :
    svcCommand argsOk f s = raiseError .arg s := by
  rw [svcCommand, h, if_neg nofun]

/-- A throttle command with its own address or another operand out of range. -/
theorem withThrottle_badAddr {a : BitVec 16} (h : addrOk a = false) (argsOk : Bool) (f : Nat → Throttle → State → State)
    (s : State) : withThrottle a argsOk f s = raiseError .arg s :=
  withThrottle_badArg (by rw [h, Bool.false_and])

theorem withThrottle_badOperand {argsOk : Bool} (h : argsOk = false) (a : BitVec 16)
    (f : Nat → Throttle → State → State) (s : State) : withThrottle a argsOk f s = raiseError .arg s :=
  withThrottle_badArg (by rw [h, Bool.and_false])

theorem exec_createThrottle_badAddr {a : BitVec 16} (h : addrOk a = false) (s : State) :
    exec (.createThrottle a) s = .next (raiseError .arg s) := by
  rw [exec, execCreateThrottle, h, if_neg nofun]

/-! ### Refusals by policy (R417) -/

theorem decodeCommand_unknown {w : BitVec 48} (h : cmdOp w ∉ [0x01#8, 0x02#8, 0x10#8, 0x11#8, 0x12#8, 0x13#8, 0x14#8,
    0x20#8, 0x21#8, 0x22#8, 0x23#8, 0x30#8, 0x31#8, 0x32#8, 0x33#8, 0x34#8, 0x35#8, 0x36#8, 0x40#8]) :
    decodeCommand w = .error .opcode := by
  simp only [List.mem_cons, not_or] at h
  simp only [decodeCommand, h, if_false]

theorem runEvent_cmd_of_reject {w : BitVec 48} {s : State} {r : Reject} (h : decode s.cfg (.command w) = .error r) :
    runEvent exec (.cmd w) s = .next (raiseError .refused (echo w s)) := by
  simp only [runEvent, h]

theorem svcCommand_service {s : State} (hm : s.mode = .Service) (argsOk : Bool) (f : State → State) :
    svcCommand argsOk f s = raiseError .refused s := by
  rw [svcCommand, hm]
  split <;> rfl

theorem exec_createThrottle_full {s : State} {a : BitVec 16} (hfull : s.thr_list.length = s.cfg.max_throttles)
    (hnew : findSlot s (a.setWidth 14) = none) : exec (.createThrottle a) s = .next (raiseError .refused s) := by
  simp only [exec, execCreateThrottle, hnew, if_pos hfull]
  split <;> rfl

/-- What the found throttle refuses is refused whether or not the other operands are in range (R423). -/
theorem withThrottle_refused {a : BitVec 16} {f : Nat → Throttle → State → State} {s : State} {i : Nat}
    (hfind : findSlot s (a.setWidth 14) = some i) (hf : f i (thrAt s i) s = raiseError .refused s) (argsOk : Bool) :
    withThrottle a argsOk f s = raiseError .refused s := by
  rw [withThrottle, hfind]
  split
  · exact hf
  · rfl

theorem opsCommand_pending {s : State} {a : BitVec 16} {i : Nat} (hfind : findSlot s (a.setWidth 14) = some i)
    (hpending : opsPending (thrAt s i) = true) (cv : BitVec 16) (k : OpsCounter) (pkt : Throttle → DccPacket)
    (wr : Byte) : opsCommand a cv k pkt wr s = raiseError .refused s :=
  withThrottle_refused hfind (if_pos hpending) _

theorem exec_thrSetAddress_refused {s : State} {a new : BitVec 16} {i : Nat}
    (hfind : findSlot s (a.setWidth 14) = some i)
    (h : (opsPending (thrAt s i) || addrTaken s i (new.setWidth 14)) = true) :
    exec (.thrSetAddress a new) s = .next (raiseError .refused s) :=
  congrArg Host.Outcome.next (withThrottle_refused hfind (if_pos h) _)

theorem addrTaken_of_valid {s : State} {i j : Nat} {b : BitVec 14} (hj : j < s.thr.length) (hne : j ≠ i)
    (hvalid : (thrAt s j).valid = true) (haddr : (thrAt s j).address = b) : addrTaken s i b = true := by
  rw [thrAt_lt hj] at hvalid haddr
  exact List.any_eq_true.2 ⟨(s.thr[j], j), List.mk_mem_zipIdx_iff_getElem?.2 (List.getElem?_eq_getElem hj),
    by simp [hvalid, haddr, hne]⟩

end Sys2Proof.Machine

open Sys2Proof Sys2Proof.Machine

/-- Settles O9, command by command: each way to fail is a response alone, and each change of state answers `ok = 1`. -/
theorem failedCommandsChangeNothing : Obligations.FailedCommandsChangeNothing := by
  rintro s t i ⟨w, hw⟩ hexec hfailed
  obtain ⟨u, hu, hclean⟩ := exec_failsClean hw s
  obtain rfl : u = t := Host.Outcome.next.inj (hu.symm.trans hexec)
  exact hclean.unchanged hfailed

/-- Settles O10: the operand's check is false, whatever the other operands, the mode and the table are. -/
theorem commandsRejectBadOperands : Obligations.CommandsRejectBadOperands := by
  intro s a cv b n new which v sp bit on
  have hsvc {argsOk f} (h : argsOk = false) := congrArg (Host.Outcome.next : State → Out) (svcCommand_badArg h f s)
  refine ⟨fun hcv => ?cv, fun hb => ?bitNumber, fun hv => ?bitValue, fun ha => ?address, ?speed, fun hn => ?function,
    fun hnew => ?newAddress, fun hwhich => ?selector, fun _ hrange => if_pos hrange⟩
  case cv =>
    have hcv : cvOk cv = false := cvOk_false hcv
    have hthr {f} := congrArg (Host.Outcome.next : State → Out) (withThrottle_badOperand hcv a f s)
    exact ⟨hsvc hcv, hsvc hcv, hsvc (by simp [hcv]), hsvc (by simp [hcv]), hthr, hthr, hthr⟩
  case bitNumber => exact ⟨hsvc (by simp [hb]), hsvc (by simp [hb])⟩
  case bitValue => exact hsvc (by simp [hv])
  case address =>
    have ha : addrOk a = false := addrOk_false ha
    have hthr {argsOk f} := congrArg (Host.Outcome.next : State → Out) (withThrottle_badAddr ha argsOk f s)
    exact ⟨exec_createThrottle_badAddr ha s, hthr, hthr, hthr, hthr, hthr, hthr, hthr, hthr, hthr⟩
  case speed => exact congrArg Host.Outcome.next (withThrottle_badOperand (by decide) ..)
  case function => exact congrArg Host.Outcome.next (withThrottle_badOperand (decide_eq_false (Nat.not_le.2 hn)) ..)
  case newAddress => exact congrArg Host.Outcome.next (withThrottle_badOperand (addrOk_false hnew) ..)
  case selector =>
    rw [exec, execSetVerbosity, setVerbosity_unknown hwhich]
    rfl

/-- Settles O11, one refusal after the other; none depends on the operands that the statement leaves free. -/
theorem commandsRejectByPolicy : Obligations.CommandsRejectByPolicy := by
  intro s a cv b new n v sp bit on
  refine ⟨fun w rest hin hop => ?opcode, fun hm => ?service, fun hfull hnew => ?full, fun hnone => ?unknown,
    fun i hfind => ⟨fun hcount => ?pending, fun j hj hne hvalid haddr => ?taken⟩⟩
  case opcode =>
    have hstep : step s = .next (raiseError .refused (echo w { s with inputs := rest })) :=
      (step_cons hin).trans (runEvent_cmd_of_reject (decodeCommand_unknown hop))
    refine ⟨fun hoff => hstep.trans ?_, fun hon => hstep.trans ?_⟩
    · rw [echo_off (s := { s with inputs := rest }) w hoff]
      rfl
    · rw [echo_on (s := { s with inputs := rest }) w hon]
      rfl
  case service =>
    have hsvc {argsOk f} := congrArg (Host.Outcome.next : State → Out) (svcCommand_service hm argsOk f)
    exact ⟨exec_setModeOps_service hm, hsvc, hsvc, hsvc, hsvc⟩
  case full => exact exec_createThrottle_full hfull (findSlot_none.2 hnew)
  case unknown =>
    have hthr {argsOk f} := congrArg (Host.Outcome.next : State → Out)
      (withThrottle_unknown (ok := argsOk) (f := f) (findSlot_none.2 hnone))
    exact ⟨hthr, hthr, hthr, hthr, hthr, hthr, hthr, hthr, hthr⟩
  case pending =>
    have hpending := opsPending_iff.2 hcount
    have hops {k pkt wr} := congrArg (Host.Outcome.next : State → Out) (opsCommand_pending hfind hpending cv k pkt wr)
    exact ⟨exec_thrSetAddress_refused hfind (by rw [hpending, Bool.true_or]), hops, hops, hops⟩
  case taken =>
    exact exec_thrSetAddress_refused hfind (by rw [addrTaken_of_valid hj hne hvalid haddr, Bool.or_true])

end

section
/-! What the bit-end interrupt never writes (60_exceptions.md R430): the host's part of the state, as one value that
each operation of the interrupt keeps. -/

namespace Sys2Proof.Machine

/-- A throttle without the registers that the interrupt may write (R430): the rotation, the counters and the results of
an operation, and the speed that the decoder reports. -/
def Throttle.hostPart (t : Throttle) : Throttle :=
  { t with seq := 0, read_cv_cnt := 0, write_cv_cnt := 0, write_bit_cnt := 0, rc_speed := 0#8, rc_speed_time := 0,
           rc_speed_valid := false, ops_done := false, ops_ok := false, ops_val := 0#8 }

/-- The rows of R430 that the interrupt never writes, and the two return ports. -/
structure HostPart where
  throttles : List Throttle
  thr_list : List Nat
  verbosity : Trace
  resp : Response
  codec : CodecOut

def State.hostPart (s : State) : HostPart :=
  { throttles := s.thr.map Throttle.hostPart, thr_list := s.thr_list, verbosity := { s.trace with log_ring := [] },
    resp := s.resp, codec := s.codec }

theorem Throttle.hostPart_eq_iff {t u : Throttle} : t.hostPart = u.hostPart ↔
    t.valid = u.valid ∧ t.gen = u.gen ∧ t.address = u.address ∧ t.speed = u.speed ∧ t.functions = u.functions ∧
    t.pkt_speed = u.pkt_speed ∧ t.pkt_func = u.pkt_func ∧ t.pkt_ops = u.pkt_ops ∧ t.ops_wr_val = u.ops_wr_val := by
  simp [Throttle.hostPart]

theorem State.hostPart_eq_iff {s t : State} : t.hostPart = s.hostPart ↔
    t.thr.map Throttle.hostPart = s.thr.map Throttle.hostPart ∧ t.thr_list = s.thr_list ∧
    (t.trace.trace_dcc = s.trace.trace_dcc ∧ t.trace.trace_railcom = s.trace.trace_railcom ∧
      t.trace.trace_speed = s.trace.trace_speed ∧ t.trace.cmd_echo = s.trace.cmd_echo) ∧
    t.resp = s.resp ∧ t.codec = s.codec := by
  simp [State.hostPart]

theorem hostPart_thrAt (s : State) (j : Nat) :
    (thrAt s j).hostPart = (s.thr.map Throttle.hostPart).getD j Throttle.reset.hostPart :=
  (List.getD_map ..).symm

/-! ### Throttles (R372, R384, R385, R389) -/

theorem onPom_hostPart (val : Byte) (t : Throttle) : (onPom val t).hostPart = t.hostPart := by
  unfold onPom
  split <;> rfl

theorem onSpeed_hostPart (val : Byte) (now : Nat) (t : Throttle) : (onSpeed val now t).hostPart = t.hostPart := rfl

theorem nextPacket_hostPart (c : Config) (t : Throttle) : (nextPacket c t).2.hostPart = t.hostPart := by
  obtain ⟨q, r, w, b, d, o, v, h, -⟩ := nextPacket_frame c t
  rw [h]
  rfl

theorem setThr_hostPart {s : State} {i : Nat} {t : Throttle} (h : t.hostPart = (thrAt s i).hostPart) :
    (setThr i t s).hostPart = s.hostPart := by
  have hthr : (s.thr.set i t).map Throttle.hostPart = s.thr.map Throttle.hostPart := by
    rw [List.map_set, h, ← List.map_set]
    exact congrArg (fun u : State => u.thr.map Throttle.hostPart) (setThr_thrAt s i)
  simp only [State.hostPart, setThr, hthr]

/-! ### RailCom delivery (R206, R387) -/

theorem logWhen_hostPart (b : Bool) (l : LogLine) (s : State) : (logWhen b l s).hostPart = s.hostPart := by
  cases b <;> rfl

theorem deliverTo_hostPart (i : Nat) (m : RcMsg) (s : State) : (deliverTo i m s).hostPart = s.hostPart := by
  cases m with
  | pom v => exact setThr_hostPart (onPom_hostPart v _)
  | dyn v x =>
    simp only [deliverTo]
    split
    · exact (logWhen_hostPart ..).trans (setThr_hostPart (onSpeed_hostPart v s.now _))
    · rfl
  | _ => rfl

theorem thrDeliver_hostPart (i : Nat) (ms : List RcMsg) (s : State) : (thrDeliver i ms s).hostPart = s.hostPart := by
  induction ms generalizing s with
  | nil => rfl
  | cons m ms ih => exact (ih (deliverTo i m s)).trans (deliverTo_hostPart i m s)

theorem deliverLast_hostPart (ms : List RcMsg) (s : State) : (deliverLast ms s).hostPart = s.hostPart := by
  unfold deliverLast
  split
  · split
    · exact thrDeliver_hostPart ..
    · rfl
  · rfl

theorem railcomDeliver_hostPart (s : State) : (railcomDeliver s).hostPart = s.hostPart :=
  (logWhen_hostPart ..).trans (deliverLast_hostPart ..)

/-! ### The pull (R207, R311) -/

theorem pullOps_hostPart (s : State) : (pullOps s).2.hostPart = s.hostPart := by
  obtain h | ⟨-, i, -, h⟩ := pullOps_cases s
  · rw [h]
  · rw [h]
    exact setThr_hostPart (s := s) (nextPacket_hostPart s.cfg (thrAt s i))

theorem pullSvc_hostPart (s : State) : (pullSvc s).2.hostPart = s.hostPart := by
  obtain ⟨-, -, st, val, w, h, -⟩ | ⟨p, v, h, -⟩ := pullSvc_cases s
  · rw [h, terminal_eq]
    rfl
  · rw [h]
    rfl

theorem pullPacket_hostPart (s : State) : (pullPacket s).2.hostPart = s.hostPart := by
  unfold pullPacket
  split
  · exact pullOps_hostPart s
  · exact pullSvc_hostPart s
  · rfl

theorem pullNext_hostPart (s : State) : (pullNext s).hostPart = s.hostPart :=
  (logWhen_hostPart ..).trans (pullPacket_hostPart s)

/-! ### The bit end (R205) -/

theorem effects_hostPart (s : State) : (effects s).hostPart = s.hostPart := by
  obtain ⟨-, he⟩ | ⟨-, he⟩ | ⟨-, -, he⟩ | ⟨-, he⟩ | he := effects_cases s
  case inr.inl => rw [he, railcomDeliver_hostPart]
  case inr.inr.inl => rw [he, pullNext_hostPart]
  case inr.inr.inr.inr => rw [he]
  all_goals
    rw [he]
    rfl

theorem adcDrain_hostPart (s : State) : (adcDrain s).hostPart = s.hostPart := by
  obtain ⟨c, b, d, h, -⟩ := adcDrain_frame s
  rw [h]
  rfl

theorem turn_hostPart (s : State) : (turn s).hostPart = s.hostPart := by
  have hadv := turn_advancedFrom s
  rw [← effects_hostPart s]
  simp only [State.hostPart, hadv.thr, hadv.thr_list, hadv.trace, hadv.resp, hadv.codec]

theorem bitEnd_hostPart (s : State) : (bitEnd s).hostPart = s.hostPart := by
  cases hrun : s.bs.bs_run with
  | false => rw [bitEnd_stopped hrun]
  | true => rw [bitEnd_eq_turn hrun, turn_hostPart, adcDrain_hostPart]

end Sys2Proof.Machine

open Sys2Proof Sys2Proof.Machine

/-- Settles O60: each register is a part of the host's part of the state, which the interrupt keeps. -/
theorem interruptWritesNoHostState : Obligations.InterruptWritesNoHostState := by
  intro s t
  have h : t.hostPart = s.hostPart := bitEnd_hostPart s
  obtain ⟨hthr, hlist, ⟨hdcc, hrailcom, hspeed, hecho⟩, hresp, hcodec⟩ := State.hostPart_eq_iff.1 h
  have hlength : t.thr.length = s.thr.length := by simpa using congrArg List.length hthr
  have hslot (j : Nat) : (thrAt t j).hostPart = (thrAt s j).hostPart := by rw [hostPart_thrAt, hostPart_thrAt, hthr]
  exact ⟨hlist, hlength, fun j => Throttle.hostPart_eq_iff.1 (hslot j), hdcc, hrailcom, hspeed, hecho, hresp, hcodec⟩

end

section
/-! The reset values (70_reset_and_hazards.md R451). -/

namespace Sys2Proof.Machine

theorem length_thr_resetWith (c : Config) : (State.resetWith c).thr.length = c.max_throttles := List.length_replicate

theorem eq_reset_of_mem_thr_resetWith {c : Config} {t : Throttle} (h : t ∈ (State.resetWith c).thr) :
    t = Throttle.reset :=
  List.eq_of_mem_replicate h

end Sys2Proof.Machine

open Sys2Proof Sys2Proof.Machine

/-- Settles O57: the throttle table is `max_throttles` copies of the slot at reset, and every other row is a field of the
reset state as it is written, whatever the parameters are. -/
theorem resetValues : Obligations.ResetValues := by
  intro c s
  have hlength : s.thr.length = c.max_throttles := length_thr_resetWith c
  have hslots : ∀ t ∈ s.thr, t.valid = false ∧ t.gen = 0 := by
    intro t ht
    rw [eq_reset_of_mem_thr_resetWith ht]
    exact ⟨rfl, rfl⟩
  refine ⟨rfl, rfl, rfl, rfl, rfl, rfl, rfl, rfl, rfl, rfl, rfl, hlength, hslots, ?remainingRows⟩
  and_intros <;> rfl

end
